-- ==== Sys2Proof/Word.lean ====
section
/-! DEFINITION. The widths of spec/00_scope.md R7 and the device index. -/

namespace Sys2Proof

/-- A host register, a command word, the tick counter: 32 bits (R7). -/
abbrev Word := BitVec 32

/-- The content of one chip register: 8 bits (R7). -/
abbrev Byte := BitVec 8

/-- A chip register address: 7 bits, 0..127 (R7, R70). -/
abbrev RegAddr := BitVec 7

/-- A two-wire bus address: 7 bits (R7, R71). -/
abbrev BusAddr := BitVec 7

/-- A bit pattern: eight symbols of two bits each (R100). -/
abbrev Pattern := BitVec 16

/-- One bit per device, a half of DEV_FAIL_MASK (R37). -/
abbrev DevMask := BitVec 16

/-- One bit per event kind (R28, R29, R261). -/
abbrev EventSet := BitVec 10

/-- A device index `d`, 0..15 (R90). -/
abbrev DevIx := Fin 16

/-- The sixteen device indexes in index order. -/
def allDevIx : List DevIx := [0, 1, 2, 3, 4, 5, 6, 7, 8, 9, 10, 11, 12, 13, 14, 15]

end Sys2Proof
end

