-- ==== Sys2Proof/Config.lean ====
section
/-! DEFINITION. The configuration record `cfg` (spec/00_scope.md R6, 92_eei_decisions.md section 2), the answers of the bus
oracle (20_memory.md R64, R65), the actions of the agents (00_scope.md R5), and the values the spec leaves free, as opaque
constants without a body. -/

namespace Sys2Proof.Config

/-- The two chip families (R6, R152). -/
inductive ChipFamily where
  | f18
  | f28
deriving DecidableEq, Repr, Inhabited

/-- The chip layout of one family (R6). DESIGN CHOICE (log 5): the functions ID_MAP, INPUT_PAT, MODE_PAT and PHASE_PAT are
tables, so that the record is plain data. -/
structure Layout where
  /-- ID_REG[f]. -/
  idReg : RegAddr
  /-- ID_MAP[f]: identification byte and chip type; a byte not listed is unrecognised, 0. -/
  idMap : List (Byte × BitVec 2)
  /-- STATUS_REG[f]. -/
  statusReg : RegAddr
  /-- AUTOMUTE_REG[f]. -/
  automuteReg : RegAddr
  /-- AUTOMUTE_BIT[f], 0..7. -/
  automuteBit : Fin 8
  /-- MUTE_REG[f]. -/
  muteReg : RegAddr
  /-- MUTE_PAT[f]. -/
  mutePat : Pattern
  /-- UNMUTE_PAT[f]. -/
  unmutePat : Pattern
  /-- ATTEN_REG[f]. -/
  attenReg : RegAddr
  /-- ATTEN_MAX[f]. -/
  attenMax : Byte
  /-- INPUT_REG[f]. -/
  inputReg : RegAddr
  /-- INPUT_PAT[f](s), the pattern of selector s at place s; INPUT_COUNT[f] is the length. -/
  inputPats : List Pattern
  /-- MODE_REG[f]. -/
  modeReg : RegAddr
  /-- MODE_PAT[f](m), the pattern of mode value m at place m. -/
  modePats : List Pattern
  /-- PHASE_REG[f]. -/
  phaseReg : RegAddr
  /-- PHASE_PAT[f](p), the pattern of phase value p at place p. -/
  phasePats : List Pattern
deriving DecidableEq, Repr, Inhabited

/-- The static attributes of one device (R6, R43). cfg.name is diagnostic and not modelled (R6). -/
structure DevCfg where
  /-- cfg.addr[d]. -/
  addr : BusAddr
  /-- cfg.family[d]. -/
  family : ChipFamily
  /-- cfg.mode[d]. -/
  mode : Nat
  /-- cfg.phase[d]. -/
  phase : Nat
  /-- cfg.noI2C[d]. -/
  noI2C : Bool
  /-- cfg.osc[d]; no rule reads it (R6, log 24). -/
  osc : Nat
deriving DecidableEq, Repr, Inhabited

/-- The configuration record (R6). Bus addresses and chip register addresses are 7 bits wide by type (R7), ATTEN_MAX is 8
bits wide and AUTOMUTE_BIT is below 8 by type; the other conditions of D48 are `Cfg.wf`. -/
structure Cfg where
  /-- N_DEV. -/
  nDev : Nat
  /-- The attributes of the sixteen device slots; only slots below N_DEV are read (log 21). -/
  devs : Vector DevCfg 16
  /-- The layout of the ES9018-style family. -/
  f18 : Layout
  /-- The layout of the ES9028-style family. -/
  f28 : Layout
  /-- RELAY_PIN, 255 = unused. -/
  relayPin : BitVec 8
  /-- RESET_PIN, 255 = unused. -/
  resetPin : BitVec 8
  /-- SETTLE_DELAY, in ticks. -/
  settleDelay : Word
  /-- SAMPLE_INTERVAL, in ticks. -/
  sampleInterval : Word
  /-- READ_POLL_INTERVAL; timing only, no rule reads it (R312, log 18). -/
  readPollInterval : Nat
  /-- READ_RETRIES; timing only, no rule reads it (R312, log 18). -/
  readRetries : Nat
  /-- NOI2C_READ_VALUE. -/
  noI2CReadValue : Byte
  /-- NOI2C_CHIP_TYPE. -/
  noI2CChipType : BitVec 2
  /-- BASE, the platform's base address; every offset is relative to it (R75, log 14). -/
  base : Word
deriving DecidableEq, Repr, Inhabited

/-- The layout of a family. -/
def Cfg.layout (c : Cfg) : ChipFamily → Layout
  | .f18 => c.f18
  | .f28 => c.f28

/-- The patterns of the two-place fields of `ex`: PAT(s) for s = 0..3. -/
def exTwoBitPats : List Pattern := [0xAAA0#16, 0xAAA1#16, 0xAAA4#16, 0xAAA5#16]

/-- The layout of the example configuration EX (95_test_vectors.md section 2). -/
def exLayout : Layout where
  idReg := 0x20#7
  idMap := [(0x10#8, 1#2), (0x11#8, 2#2)]
  statusReg := 0x21#7
  automuteReg := 0x21#7
  automuteBit := 1
  muteReg := 0x0A#7
  mutePat := 0xAAA9#16
  unmutePat := 0xAAA8#16
  attenReg := 0x0B#7
  attenMax := 124#8
  inputReg := 0x0C#7
  inputPats := exTwoBitPats
  modeReg := 0x0D#7
  modePats :=
    [0xAA00#16, 0xAA01#16, 0xAA04#16, 0xAA05#16, 0xAA10#16, 0xAA11#16, 0xAA14#16, 0xAA15#16,
     0xAA40#16, 0xAA41#16, 0xAA44#16, 0xAA45#16, 0xAA50#16, 0xAA51#16, 0xAA54#16, 0xAA55#16]
  phaseReg := 0x0E#7
  phasePats := exTwoBitPats

/-- A device of EX at a bus address. -/
def exDevice (addr : BusAddr) : DevCfg where
  addr := addr
  family := .f18
  mode := 0
  phase := 0
  noI2C := false
  osc := 0

/-- The example configuration EX with two devices at 0x48 and 0x49 (95_test_vectors.md section 2). The parameters EX does
not name (READ_POLL_INTERVAL, READ_RETRIES, osc, the layout of the family it does not use, the slots past N_DEV) are read by
no rule on it. -/
def ex : Cfg where
  nDev := 2
  devs := (Vector.replicate 16 (exDevice 0x4A#7)).set 0 (exDevice 0x48#7) |>.set 1 (exDevice 0x49#7)
  f18 := exLayout
  f28 := exLayout
  relayPin := 7#8
  resetPin := 8#8
  settleDelay := 500#32
  sampleInterval := 100#32
  readPollInterval := 0
  readRetries := 0
  noI2CReadValue := 0x00#8
  noI2CChipType := 1#2
  base := 0#32

/-- The variant EX3: three devices, the third at 0x4A. -/
def ex3 : Cfg := { ex with nDev := 3 }

/-- The variant EXN: one device with the noI2C flag. -/
def exN : Cfg :=
  { ex with nDev := 1, devs := ex.devs.set 0 { exDevice 0x48#7 with noI2C := true } }

/-- A non-success bus transaction code: 1..4 (R65). Codes 5-7 are never returned and cannot be written down (log 3). -/
inductive BusError where
  /-- BUFFER_OVERFLOW. -/
  | bufferOverflow
  /-- ADDR_NACK. -/
  | addrNack
  /-- DATA_NACK. -/
  | dataNack
  /-- OTHER, the source's "unspecified". -/
  | other
deriving DecidableEq, Repr, Inhabited

/-- An answer of the bus oracle to BusRead (R64). -/
inductive ReadAnswer where
  /-- Data(b): the byte arrived. -/
  | data (b : Byte)
  /-- AddrErr(c): the address phase returned a non-success code. -/
  | addrErr (c : BusError)
  /-- Timeout: acknowledged, but no data within the bound. -/
  | timeout
deriving DecidableEq, Repr, Inhabited

/-- An answer of the bus oracle to BusWrite (R65). -/
inductive WriteAnswer where
  /-- SUCCESS, code 0. -/
  | success
  /-- A non-success code. -/
  | error (c : BusError)
deriving DecidableEq, Repr, Inhabited

/-- One step of one agent (R5): a host access of a width in bytes at an offset, the Engine, the Timer or the Reset agent. -/
inductive AgentAction where
  /-- MemRead(off, width) by the Host (R60). -/
  | hostRead (width off : Nat)
  /-- MemWrite(off, width, v) by the Host (R60). -/
  | hostWrite (width off : Nat) (v : Word)
  /-- The Engine (R66). -/
  | engine
  /-- The Timer (R270). -/
  | tick
  /-- The Reset agent (R290). -/
  | reset
deriving DecidableEq, Repr, Inhabited

/-- DESIGN CHOICE, safe (log 4): the configuration of the block at `State.reset`. Every parameter of it is OPEN in the spec
(92_eei_decisions.md section 2); free. -/
opaque boardRaw : Cfg

/-- DESIGN CHOICE, safe (log 2): the oracle's answer to the n-th read past the listed answers (R69); free. -/
opaque freeReadAnswer : Nat → ReadAnswer

/-- DESIGN CHOICE, safe (log 2): the oracle's answer to the n-th write past the listed answers (R69); free. -/
opaque freeWriteAnswer : Nat → WriteAnswer

/-- DESIGN CHOICE, safe (log 1): past the listed schedule, the agent actions before the n-th turn of the Engine (R5, R66, R270,
R290); free. -/
opaque freeRound : Nat → List AgentAction

end Sys2Proof.Config
end

