-- ==== Sys2Proof/Machine/Operands.lean ====
section
/-! DEFINITION. Operand assembly from LARG and the bit-pattern functions (spec/30_encoding.md R92, R98, R100, R101) and the
attenuation clamp (41_device.md R172). -/

namespace Sys2Proof.Machine

/-- The 8-bit operand `v` or `s`: LARG[7:0], the upper bits ignored (R92, R98). -/
def operandByte (larg : Word) : Byte := larg.extractLsb' 0 8

/-- The pattern operand `P`: LARG[15:0], the upper bits ignored (R92, R98). -/
def operandPattern (larg : Word) : Pattern := larg.extractLsb' 0 16

/-- PatValid(P): no symbol P[2i+1:2i] is 11 (R101). -/
def patValid (p : Pattern) : Bool :=
  [0, 1, 2, 3, 4, 5, 6, 7].all fun i => !(p.getLsbD (2 * i + 1) && p.getLsbD (2 * i))

/-- PatTouch(P): bit i is 1 where the symbol is `0` or `1` (R101). -/
def patTouch (p : Pattern) : Byte := BitVec.ofFnLE fun i : Fin 8 => !p.getLsbD (2 * i.val + 1)

/-- PatVal(P): bit i is 1 where the symbol is `1` (R101). -/
def patVal (p : Pattern) : Byte :=
  BitVec.ofFnLE fun i : Fin 8 => p.getLsbD (2 * i.val) && !p.getLsbD (2 * i.val + 1)

/-- Overlay(cur, P) = (cur AND NOT Touch(P)) OR Val(P) (R101). -/
def overlay (cur : Byte) (p : Pattern) : Byte := (cur &&& ~~~patTouch p) ||| patVal p

/-- The attenuation clamp min(v, ATTEN_MAX[f]), unsigned on 8 bits (R13, R172). -/
def clampAtten (v attenMax : Byte) : Byte := if v.toNat ≤ attenMax.toNat then v else attenMax

/-- One symbol of a pattern string (R100). -/
inductive Symbol where
  | zero
  | one
  | keep
deriving DecidableEq, Repr

/-- The two-bit code of a symbol (R100). -/
def symbolCode : Symbol → BitVec 2
  | .zero => 0b00#2
  | .one => 0b01#2
  | .keep => 0b10#2

/-- The pattern of a symbol list, the symbol of bit 7 first (R100): each later symbol lies two bits lower. -/
def patOfSymbols (l : List Symbol) : Pattern :=
  l.foldl (fun acc s => (acc <<< 2) ||| (symbolCode s).setWidth 16) 0#16

/-- The symbol of a character of a pattern string; any other character is none (R105). -/
def symbolOfChar : Char → Option Symbol
  | '0' => some .zero
  | '1' => some .one
  | '*' => some .keep
  | _ => none

end Sys2Proof.Machine
end

