-- ==== Sys2Proof/Syntax.lean ====
section
/-! DEFINITION. The commands: one constructor per row of spec/opcode_table.json (spec/30_encoding.md R93). -/

namespace Sys2Proof

/-- The three command families (00_scope.md R2). -/
inductive CmdFamily where
  | transport
  | device
  | controller
deriving DecidableEq, Repr

/-- The 18 commands with the fields of their word (R90, R91, R93). The operand word stands in LARG, not in the command
(R92). -/
inductive Instr where
  /-- READ_REG d, r (R130). -/
  | readReg (d : DevIx) (r : RegAddr)
  /-- WRITE_REG d, r; the value is LARG[7:0] (R132). -/
  | writeReg (d : DevIx) (r : RegAddr)
  /-- WRITE_BITS d, r; the pattern is LARG[15:0] (R134). -/
  | writeBits (d : DevIx) (r : RegAddr)
  /-- DEV_INIT d (R151). -/
  | devInit (d : DevIx)
  /-- DEV_RESET d (R156). -/
  | devReset (d : DevIx)
  /-- DEV_LOCKED d (R161). -/
  | devLocked (d : DevIx)
  /-- DEV_AUTOMUTED d (R166). -/
  | devAutomuted (d : DevIx)
  /-- DEV_MUTE d (R169). -/
  | devMute (d : DevIx)
  /-- DEV_UNMUTE d (R171). -/
  | devUnmute (d : DevIx)
  /-- DEV_SET_ATTEN d; the attenuation is LARG[7:0] (R173). -/
  | devSetAtten (d : DevIx)
  /-- DEV_SELECT_INPUT d; the selector is LARG[7:0] (R176). -/
  | devSelectInput (d : DevIx)
  /-- POWER_ON (R190). -/
  | powerOn
  /-- POWER_OFF (R195). -/
  | powerOff
  /-- POLL (R200). -/
  | poll
  /-- SET_ATTEN_ALL; the attenuation is LARG[7:0] (R230). -/
  | setAttenAll
  /-- MUTE_ALL (R232). -/
  | muteAll
  /-- UNMUTE_ALL (R234). -/
  | unmuteAll
  /-- SELECT_INPUT_ALL; the selector is LARG[7:0] (R236). -/
  | selectInputAll
deriving DecidableEq, Repr

/-- The family of a command (R91, R93). -/
def Instr.family : Instr → CmdFamily
  | .readReg _ _ | .writeReg _ _ | .writeBits _ _ => .transport
  | .devInit _ | .devReset _ | .devLocked _ | .devAutomuted _ => .device
  | .devMute _ | .devUnmute _ | .devSetAtten _ | .devSelectInput _ => .device
  | .powerOn | .powerOff | .poll | .setAttenAll | .muteAll | .unmuteAll | .selectInputAll => .controller

/-- The device a command names, for the two families that name one (R91). -/
def Instr.device? : Instr → Option DevIx
  | .readReg d _ | .writeReg d _ | .writeBits d _ => some d
  | .devInit d | .devReset d | .devLocked d | .devAutomuted d => some d
  | .devMute d | .devUnmute d | .devSetAtten d | .devSelectInput d => some d
  | .powerOn | .powerOff | .poll | .setAttenAll | .muteAll | .unmuteAll | .selectInputAll => none

end Sys2Proof
end

