-- ==== Sys2Proof/WellFormed.lean ====
section
/-! DEFINITION. What is well-formed: a command word (spec/30_encoding.md R94), a command for a configuration (R95, the BAD_DEV
condition) and the configuration itself (92_eei_decisions.md D48, 70_reset_and_hazards.md R294). -/

namespace Sys2Proof

/-- The opcodes R93 lists, by family; none for a reserved one (R96). -/
def listedFamily (op : Nat) : Option CmdFamily :=
  if 0x01 ≤ op ∧ op ≤ 0x03 then some .transport
  else if 0x08 ≤ op ∧ op ≤ 0x0F then some .device
  else if 0x10 ≤ op ∧ op ≤ 0x16 then some .controller
  else none

/-- R94: the command word w is well-formed. -/
def commandWordWf (w : Word) : Bool :=
  match listedFamily (w.toNat % 32) with
  | none => false
  | some fam =>
    w.extractLsb' 5 3 == 0#3 && w.extractLsb' 19 13 == 0#13 &&
      match fam with
      | .transport => true
      | .device => w.extractLsb' 12 7 == 0#7
      | .controller => w.extractLsb' 8 11 == 0#11

/-- The command names an existing device of the configuration, where it names one (R95: otherwise BAD_DEV). -/
def Instr.wf (c : Config.Cfg) (i : Instr) : Bool :=
  match i.device? with
  | some d => decide (d.val < c.nDev)
  | none => true

end Sys2Proof

namespace Sys2Proof.Config

/-- D48: 1 ≤ N_DEV ≤ 16. -/
def Cfg.countOk (c : Cfg) : Bool := decide (1 ≤ c.nDev) && decide (c.nDev ≤ 16)

/-- D48: the bus addresses of the bus devices are distinct. -/
def Cfg.addrsOk (c : Cfg) : Bool :=
  allDevIx.all fun d => allDevIx.all fun e =>
    decide (c.nDev ≤ d.val) || decide (c.nDev ≤ e.val) || decide (d = e) ||
      c.devs[d].noI2C || c.devs[e].noI2C || c.devs[d].addr != c.devs[e].addr

/-- D48: every configured pattern passes PatValid (R102). -/
def Layout.patsOk (l : Layout) : Bool :=
  Machine.patValid l.mutePat && Machine.patValid l.unmutePat && l.inputPats.all Machine.patValid &&
    l.modePats.all Machine.patValid && l.phasePats.all Machine.patValid

/-- D48: ID_MAP[f] maps into 0, 1, 2. -/
def Layout.idMapOk (l : Layout) : Bool := l.idMap.all fun e => e.2 != 3#2

/-- D48 and R6: INPUT_COUNT[f] is 1..256. -/
def Layout.inputsOk (l : Layout) : Bool :=
  decide (1 ≤ l.inputPats.length) && decide (l.inputPats.length ≤ 256)

/-- D48: NOI2C_CHIP_TYPE is 1 or 2. -/
def Cfg.noI2CTypeOk (c : Cfg) : Bool := c.noI2CChipType == 1#2 || c.noI2CChipType == 2#2

/-- DESIGN CHOICE (log 5): the mode and phase value of every device has a pattern in its family's table. -/
def Cfg.modesOk (c : Cfg) : Bool :=
  allDevIx.all fun d => decide (c.nDev ≤ d.val) ||
    (decide (c.devs[d].mode < (c.layout c.devs[d].family).modePats.length) &&
      decide (c.devs[d].phase < (c.layout c.devs[d].family).phasePats.length))

/-- The configuration is well-formed (D48, R294 step 1). -/
def Cfg.wf (c : Cfg) : Bool :=
  c.countOk && c.addrsOk && c.f18.patsOk && c.f28.patsOk && c.f18.idMapOk && c.f28.idMapOk &&
    c.f18.inputsOk && c.f28.inputsOk && c.noI2CTypeOk && c.modesOk

/-- A well-formed configuration: the rules describe only these (R294). -/
structure Board where
  /-- The configuration record. -/
  cfg : Cfg
  /-- It is well-formed. -/
  wf : cfg.wf = true
deriving DecidableEq, Repr

/-- The example configuration EX. -/
def boardEx : Board := ⟨ex, by decide⟩

/-- The example configuration EX3. -/
def boardEx3 : Board := ⟨ex3, by decide⟩

/-- The example configuration EXN. -/
def boardExN : Board := ⟨exN, by decide⟩

/-- DESIGN CHOICE, safe (log 4): the configuration at `State.reset`, any well-formed one. -/
def board : Board := if h : boardRaw.wf = true then ⟨boardRaw, h⟩ else boardEx

end Sys2Proof.Config
end

