-- ==== Sys2Proof/Decode.lean ====
section
/-! DEFINITION. The decoder and the encoder of command words (spec/30_encoding.md R90-R98, R106). -/

namespace Sys2Proof

/-- Why a word is no command, in the order of R95 and R256. Each completes with BAD_CMD. -/
inductive DecodeError where
  /-- w[4:0] is no listed opcode (R96). -/
  | reservedOpcode
  /-- w[7:5] or w[31:19] is nonzero (R94). -/
  | reservedBits
  /-- A field the command does not use is nonzero (R91, R94). -/
  | unusedField
deriving DecidableEq, Repr

/-- OP = w[4:0] (R90). -/
def wordOp (w : Word) : BitVec 5 := w.extractLsb' 0 5

/-- The reserved field w[7:5] (R90). -/
def wordReservedLow (w : Word) : BitVec 3 := w.extractLsb' 5 3

/-- DEV = w[11:8] (R90). -/
def wordDev (w : Word) : BitVec 4 := w.extractLsb' 8 4

/-- REG = w[18:12] (R90). -/
def wordReg (w : Word) : RegAddr := w.extractLsb' 12 7

/-- The reserved field w[31:19] (R90). -/
def wordReservedHigh (w : Word) : BitVec 13 := w.extractLsb' 19 13

/-- The device index of a DEV field (R98). -/
def devIxOfField (b : BitVec 4) : DevIx := ⟨b.toNat, b.isLt⟩

/-- The opcode map (R93): the command of an opcode, with the fields of the word; none for a reserved opcode. -/
def commandOfOpcode (op : BitVec 5) (d : DevIx) (r : RegAddr) : Option Instr :=
  match op.toNat with
  | 0x01 => some (.readReg d r)
  | 0x02 => some (.writeReg d r)
  | 0x03 => some (.writeBits d r)
  | 0x08 => some (.devInit d)
  | 0x09 => some (.devReset d)
  | 0x0A => some (.devLocked d)
  | 0x0B => some (.devAutomuted d)
  | 0x0C => some (.devMute d)
  | 0x0D => some (.devUnmute d)
  | 0x0E => some (.devSetAtten d)
  | 0x0F => some (.devSelectInput d)
  | 0x10 => some .powerOn
  | 0x11 => some .powerOff
  | 0x12 => some .poll
  | 0x13 => some .setAttenAll
  | 0x14 => some .muteAll
  | 0x15 => some .unmuteAll
  | 0x16 => some .selectInputAll
  | _ => none

/-- The fields a command of the family does not use are 0 (R91). -/
def unusedFieldsZero (fam : CmdFamily) (w : Word) : Bool :=
  match fam with
  | .transport => true
  | .device => wordReg w == 0#7
  | .controller => wordReg w == 0#7 && wordDev w == 0#4

/-- The decoder, total on every word, its checks in the order of R95 (the last one, BAD_DEV, needs the configuration and
stands in the meanings: log 22). -/
def decode (w : Word) : Except DecodeError Instr :=
  match commandOfOpcode (wordOp w) (devIxOfField (wordDev w)) (wordReg w) with
  | none => .error .reservedOpcode
  | some i =>
    if wordReservedLow w ≠ 0#3 ∨ wordReservedHigh w ≠ 0#13 then .error .reservedBits
    else if unusedFieldsZero i.family w then .ok i
    else .error .unusedField

/-- The opcode of a command (R93). -/
def opcode : Instr → BitVec 5
  | .readReg _ _ => 0x01#5
  | .writeReg _ _ => 0x02#5
  | .writeBits _ _ => 0x03#5
  | .devInit _ => 0x08#5
  | .devReset _ => 0x09#5
  | .devLocked _ => 0x0A#5
  | .devAutomuted _ => 0x0B#5
  | .devMute _ => 0x0C#5
  | .devUnmute _ => 0x0D#5
  | .devSetAtten _ => 0x0E#5
  | .devSelectInput _ => 0x0F#5
  | .powerOn => 0x10#5
  | .powerOff => 0x11#5
  | .poll => 0x12#5
  | .setAttenAll => 0x13#5
  | .muteAll => 0x14#5
  | .unmuteAll => 0x15#5
  | .selectInputAll => 0x16#5

/-- The DEV field of a command, 0 where it names no device (R91). -/
def devField (i : Instr) : BitVec 4 :=
  match i.device? with
  | some d => BitVec.ofNat 4 d.val
  | none => 0#4

/-- The REG field of a command, 0 where it names no register (R91). -/
def regField : Instr → RegAddr
  | .readReg _ r | .writeReg _ r | .writeBits _ r => r
  | .devInit _ | .devReset _ | .devLocked _ | .devAutomuted _ => 0#7
  | .devMute _ | .devUnmute _ | .devSetAtten _ | .devSelectInput _ => 0#7
  | .powerOn | .powerOff | .poll | .setAttenAll | .muteAll | .unmuteAll | .selectInputAll => 0#7

/-- The word of a command: 0000000000000 REG DEV 000 OP (R90, R106). -/
def encode (i : Instr) : Word := 0#13 ++ regField i ++ devField i ++ 0#3 ++ opcode i

/-- The command the decoder reads from the low `nbits` bits of `w`. A command is one 32-bit word (R97), bit 0 the least
significant. -/
def decodeTableWord (nbits w : Nat) : Option Instr :=
  match decode (BitVec.ofNat 32 (w % 2 ^ nbits)) with
  | .ok i => some i
  | .error _ => none

end Sys2Proof
end

