-- ==== Sys2Proof/Machine/State.lean ====
section
/-! DEFINITION. The state of the block (spec/10_state.md R20-R47, listed in INVENTORY.md), its fault and refusal reasons, and
its reset value (R290). -/

namespace Sys2Proof.Machine

/-- What stops the machine. The block itself never stops: every command error is a completion status (R250, R266). -/
inductive Fault where
  /-- Raised by a host access at an offset of 0x40 or more, which is no offset of the 64-byte register window (R60). Safe
  (log 13). -/
  | outsideHostSpace
deriving DecidableEq, Repr

/-- What the model gives no meaning. -/
inductive Refusal where
  /-- Raised by `exec` for an instruction without a meaning; no arm of this model does. Safe. -/
  | notModelled (mnemonic : String)
  /-- Raised by a host access that is not 32 bits wide: R60 gives it no meaning. Safe. -/
  | hostAccessWidth
  /-- Raised by a host access at an offset that is not a multiple of 4: R60 gives it no meaning. Safe. -/
  | hostAccessMisaligned
  /-- Raised by `State.release` on an ill-formed configuration: R294 gives it no behaviour. Safe. -/
  | illFormedConfig
deriving DecidableEq, Repr

/-- The error codes of R251; the code numbers are `errCode`. -/
inductive CmdErr where
  /-- NONE. -/
  | noErr
  /-- BAD_CMD. -/
  | badCmd
  /-- BAD_DEV. -/
  | badDev
  /-- BAD_ARG. -/
  | badArg
  /-- BAD_PATTERN. -/
  | badPattern
  /-- NOT_INIT. -/
  | notInit
  /-- BUS. -/
  | bus
  /-- TIMEOUT. -/
  | timeout
  /-- VERIFY. -/
  | verify
  /-- ID_UNKNOWN. -/
  | idUnknown
  /-- DEV_FAIL. -/
  | devFail
deriving DecidableEq, Repr

/-- The event kinds of R261; the numbers are `eventNumber`. -/
inductive EventKind where
  | beforePowerOn
  | afterPowerOn
  | beforePowerOff
  | afterPowerOff
  | lock
  | noLock
  | lockReadError
  | initialised
  | notInitialised
  | automuteChanged
deriving DecidableEq, Repr

/-- The two digital outputs (R275). -/
inductive OutPin where
  | relay
  | reset
deriving DecidableEq, Repr

/-- An externally visible action of an Engine step (R11). -/
inductive Action where
  /-- BusRd(a, r, result). -/
  | busRd (a : BusAddr) (r : RegAddr) (result : Config.ReadAnswer)
  /-- BusWr(a, r, v, code). -/
  | busWr (a : BusAddr) (r : RegAddr) (v : Byte) (code : Config.WriteAnswer)
  /-- Pin(which, level). -/
  | pin (which : OutPin) (level : Bool)
  /-- Ev(k, delivered). -/
  | ev (k : EventKind) (delivered : Bool)
deriving DecidableEq, Repr

/-- The stored fields of STATUS (R24); IRQ is combinational. -/
structure Status where
  busy : Bool
  done : Bool
  ok : Bool
  overrun : Bool
  err : CmdErr
  buscode : BitVec 3
deriving DecidableEq, Repr

/-- The Engine's latches (R46) and the event set of the running step (R260, log 9). BUSY stands in `Status`, the same bit. -/
structure EngineRegs where
  lcmd : Word
  larg : Word
  lpow : Bool
  fired : EventSet
deriving DecidableEq, Repr

/-- The host registers that hold a value of their own: ARG (R23), RESULT (R25), EVENT_ENABLE (R28), EVENT_PENDING (R29),
DEV_FAIL_MASK (R37). -/
structure HostRegs where
  arg : Word
  result : Word
  eventEnable : EventSet
  eventPending : EventSet
  failMask : Word
deriving DecidableEq, Repr

/-- The controller's fields (R44), read at CTRL_STATUS, LOCK_AGG, POWER_ON_TIME and LAST_POLL_TIME. -/
structure Controller where
  power : Bool
  initialised : Bool
  errorInitialising : Bool
  automuted : Bool
  powerOnTime : Word
  lastPollTime : Word
  prevLock : Word
  relayOut : Bool
  resetOut : Bool
deriving DecidableEq, Repr

/-- A shadow entry (R40). -/
structure ShadowEntry where
  val : Byte
  valid : Bool
deriving DecidableEq, Repr

/-- The state of a device (R41). -/
inductive DevPhase where
  | uninitialised
  | initialising
  | initialised
deriving DecidableEq, Repr

/-- A device (R40-R42): its state, its chip type, its shadow register file. -/
structure Device where
  phase : DevPhase
  chipType : BitVec 2
  shadow : Vector ShadowEntry 128
deriving DecidableEq, Repr

/-- The model's own fields, what the block's surroundings do and see: the actions still to come (log 1), the oracle's answers
still to come (log 2), the counters that index the free ones (log 20), the word the last host read returned (log 10), and the
trace of the last Engine step (R11, log 8). -/
structure Env where
  schedule : List Config.AgentAction
  turn : Nat
  reads : List Config.ReadAnswer
  writes : List Config.WriteAnswer
  busTurn : Nat
  readData : Word
  trace : List Action
deriving DecidableEq, Repr

/-- The state of the block. -/
structure State where
  /-- The configuration, written by no step (R6). -/
  board : Config.Board
  /-- STATUS. -/
  status : Status
  /-- The Engine's latches. -/
  engine : EngineRegs
  /-- ARG, RESULT, EVENT_ENABLE, EVENT_PENDING, DEV_FAIL_MASK. -/
  host : HostRegs
  /-- The controller's fields. -/
  ctl : Controller
  /-- NOW (R30). -/
  now : Word
  /-- The sixteen device slots; N_DEV of them exist (log 21). -/
  devs : Vector Device 16
  /-- The surroundings. -/
  env : Env
deriving DecidableEq, Repr

/-- LOCK_SENTINEL (R35). -/
def lockSentinel : Word := 0xFFFFFFFF#32

/-- STATUS after reset (R24). -/
def Status.reset : Status where
  busy := false
  done := false
  ok := false
  overrun := false
  err := .noErr
  buscode := 0#3

/-- The Engine's latches after reset (R46). -/
def EngineRegs.reset : EngineRegs where
  lcmd := 0#32
  larg := 0#32
  lpow := false
  fired := 0#10

/-- The host registers after reset (R23, R25, R28, R29, R37). -/
def HostRegs.reset : HostRegs where
  arg := 0#32
  result := 0#32
  eventEnable := 0#10
  eventPending := 0#10
  failMask := 0#32

/-- The controller after reset (R44). -/
def Controller.reset : Controller where
  power := false
  initialised := false
  errorInitialising := false
  automuted := false
  powerOnTime := 0#32
  lastPollTime := 0#32
  prevLock := lockSentinel
  relayOut := false
  resetOut := false

/-- A device after reset (R40-R42). DESIGN CHOICE (log 6): the value of an invalid entry is 0; no rule reads it. -/
def Device.reset : Device where
  phase := .uninitialised
  chipType := 0#2
  shadow := Vector.replicate 128 { val := 0#8, valid := false }

/-- The surroundings before anything happened. DESIGN CHOICE (log 1, log 2, log 10, log 20). -/
def Env.initial : Env where
  schedule := []
  turn := 0
  reads := []
  writes := []
  busTurn := 0
  readData := 0#32
  trace := []

/-- The block right after reset, for a configuration (10_state.md section 6, R290). -/
def State.resetWith (b : Config.Board) : State where
  board := b
  status := Status.reset
  engine := EngineRegs.reset
  host := HostRegs.reset
  ctl := Controller.reset
  now := 0#32
  devs := Vector.replicate 16 Device.reset
  env := Env.initial

/-- The block right after reset. Its configuration is free (log 4). -/
def State.reset : State := State.resetWith Config.board

/-- Reset is released with a configuration: an ill-formed one is refused (R294 step 1, D48). -/
def State.release (c : Config.Cfg) : Host.Outcome State Fault Refusal :=
  if h : c.wf = true then .next (State.resetWith ⟨c, h⟩) else .refused .illFormedConfig

/-- The configuration record of a state. -/
def State.cfg (s : State) : Config.Cfg := s.board.cfg

end Sys2Proof.Machine
end

