-- ==== Sys2Proof/Machine/Flags.lean ====
section
/-! DEFINITION. The codes and the assembled words of the read-only registers: STATUS, RESULT, CTRL_STATUS, DEV_STATE,
DEV_CHIPTYPE (spec/10_state.md R24-R26, R33, R34, R36, R45; 60_exceptions.md R251, R261, R262). -/

namespace Sys2Proof.Machine

/-- The number of an error code (R251). -/
def errCode : CmdErr → BitVec 4
  | .noErr => 0#4
  | .badCmd => 1#4
  | .badDev => 2#4
  | .badArg => 3#4
  | .badPattern => 4#4
  | .notInit => 5#4
  | .bus => 6#4
  | .timeout => 7#4
  | .verify => 8#4
  | .idUnknown => 9#4
  | .devFail => 10#4

/-- The number of a non-success bus transaction code (R65). -/
def busErrorCode : Config.BusError → BitVec 3
  | .bufferOverflow => 1#3
  | .addrNack => 2#3
  | .dataNack => 3#3
  | .other => 4#3

/-- The transaction code of a write answer, 0 = SUCCESS (R65). -/
def writeCode : Config.WriteAnswer → BitVec 3
  | .success => 0#3
  | .error c => busErrorCode c

/-- The number of an event kind (R261). -/
def eventNumber : EventKind → Nat
  | .beforePowerOn => 0
  | .afterPowerOn => 1
  | .beforePowerOff => 2
  | .afterPowerOff => 3
  | .lock => 4
  | .noLock => 5
  | .lockReadError => 6
  | .initialised => 7
  | .notInitialised => 8
  | .automuteChanged => 9

/-- The bit of an event kind in EVENT_ENABLE and EVENT_PENDING (R261). -/
def eventBit (k : EventKind) : EventSet := 1#10 <<< eventNumber k

/-- The bit of a device in a device mask (R37). -/
def devBit (d : DevIx) : DevMask := 1#16 <<< d.val

/-- N_DEV. -/
def State.nDev (s : State) : Nat := s.cfg.nDev

/-- The existing devices in index order (42_controller.md, R14). -/
def State.devices (s : State) : List DevIx := allDevIx.filter fun d => decide (d.val < s.nDev)

/-- dev[d]. -/
def State.dev (s : State) (d : DevIx) : Device := s.devs[d]

/-- dev[d].state = Initialised. -/
def State.healthy (s : State) (d : DevIx) : Bool := (s.dev d).phase == .initialised

/-- INIT_SUCCESS: every existing device is Initialised (R33). -/
def State.initSuccess (s : State) : Bool := s.devices.all s.healthy

/-- The interrupt request and STATUS.IRQ: some event is pending (R262). -/
def State.irq (s : State) : Bool := s.host.eventPending != 0#10

/-- The command word of POWER_ON (R93). -/
def powerOnWord : Word := 0x00000010#32

/-- The command word of POWER_OFF (R93). -/
def powerOffWord : Word := 0x00000011#32

/-- CTRL_STATUS.STATE (R45). DEDUCED (log 17): the latched command is POWER_ON or POWER_OFF when LCMD is that command's one
well-formed word. -/
def State.stateCode (s : State) : BitVec 3 :=
  if s.status.busy = true ∧ s.engine.lcmd = powerOnWord ∧ s.engine.lpow = false then 1#3
  else if s.status.busy = true ∧ s.engine.lcmd = powerOffWord ∧ s.engine.lpow = true then 4#3
  else if s.ctl.power = false then 0#3
  else if s.ctl.initialised = false then 2#3
  else 3#3

/-- STATUS (R24): [31:12] reserved, IRQ, BUSCODE, ERR, OVERRUN, OK, DONE, BUSY. -/
def State.statusWord (s : State) : Word :=
  0#20 ++ BitVec.ofBool s.irq ++ s.status.buscode ++ errCode s.status.err ++ BitVec.ofBool s.status.overrun ++
    BitVec.ofBool s.status.ok ++ BitVec.ofBool s.status.done ++ BitVec.ofBool s.status.busy

/-- CTRL_STATUS (R26): [31:21] reserved, N_DEV, [15:11] reserved, STATE, [7] reserved, RESET_OUT, RELAY_OUT, AUTOMUTED,
INIT_SUCCESS, ERROR_INITIALISING, INITIALISED, POWER. -/
def State.ctrlStatusWord (s : State) : Word :=
  0#11 ++ BitVec.ofNat 5 s.nDev ++ 0#5 ++ s.stateCode ++ 0#1 ++ BitVec.ofBool s.ctl.resetOut ++
    BitVec.ofBool s.ctl.relayOut ++ BitVec.ofBool s.ctl.automuted ++ BitVec.ofBool s.initSuccess ++
    BitVec.ofBool s.ctl.errorInitialising ++ BitVec.ofBool s.ctl.initialised ++ BitVec.ofBool s.ctl.power

/-- The mask of the existing devices that satisfy `p`; a bit of a device past N_DEV is 0 (93 V18). -/
def State.maskOf (s : State) (p : DevIx → Bool) : DevMask :=
  BitVec.ofFnLE fun d : Fin 16 => decide (d.val < s.nDev) && p d

/-- DEV_STATE (R34): [31:16] the noI2C flags, [15:0] the Initialised devices. -/
def State.devStateWord (s : State) : Word :=
  s.maskOf (fun d => s.cfg.devs[d].noI2C) ++ s.maskOf s.healthy

/-- The device whose chip type DEV_CHIPTYPE holds at bit i: device i / 2 (R36). -/
def chipTypeDev (i : Fin 32) : DevIx := ⟨i.val / 2, by omega⟩

/-- DEV_CHIPTYPE (R36): bits [2d+1:2d] are dev[d].chip_type for an existing device, every other bit is 0. -/
def State.chipTypeWord (s : State) : Word :=
  BitVec.ofFnLE fun i : Fin 32 =>
    decide (i.val / 2 < s.nDev) && (s.dev (chipTypeDev i)).chipType.getLsbD (i.val % 2)

/-- The fields of RESULT a completing command defines; one it does not define is 0 (R25, R253). -/
structure CmdResult where
  data : Byte := 0#8
  locked : Bool := false
  readErr : Bool := false
  automuted : Bool := false
  elided : Bool := false
  chipType : BitVec 2 := 0#2
  pollAction : BitVec 2 := 0#2
deriving DecidableEq, Repr

/-- RESULT (R25): [31:18] reserved, POLL_ACTION, [15:14] reserved, CHIPTYPE, ELIDED, AUTOMUTED, READERR, LOCKED, DATA. -/
def resultWord (r : CmdResult) : Word :=
  0#14 ++ r.pollAction ++ 0#2 ++ r.chipType ++ BitVec.ofBool r.elided ++ BitVec.ofBool r.automuted ++
    BitVec.ofBool r.readErr ++ BitVec.ofBool r.locked ++ r.data

/-- DEV_FAIL_MASK (R37): SECONDARY above PRIMARY. -/
def failWord (pf sf : DevMask) : Word := sf ++ pf

end Sys2Proof.Machine
end

