-- ==== Sys2Proof/Machine/Ops.lean ====
section
/-! DEFINITION. The shared operations of an Engine step: its start and its commit (spec/20_memory.md R66, R67), raising a command
error (60_exceptions.md R252), the bus primitives (20_memory.md R64, R65), device and shadow accesses (10_state.md R40-R42),
events and pins (60_exceptions.md R260, R275), configuration lookups (00_scope.md R6) and the loop over devices. -/

namespace Sys2Proof.Machine

/-! ## Devices and shadows -/

/-- Write dev[d]. -/
def State.setDev (s : State) (d : DevIx) (x : Device) : State := { s with devs := s.devs.set d x }

/-- dev[d].state <- p (R41). -/
def State.setPhase (s : State) (d : DevIx) (p : DevPhase) : State := s.setDev d { s.dev d with phase := p }

/-- dev[d].chip_type <- t (R42). -/
def State.setChipType (s : State) (d : DevIx) (t : BitVec 2) : State :=
  s.setDev d { s.dev d with chipType := t }

/-- The entry of register r in a shadow file (R40). -/
def Device.entry (x : Device) (r : RegAddr) : ShadowEntry := x.shadow[r.toNat]'r.isLt

/-- Write the entry of register r in a shadow file. -/
def Device.setEntry (x : Device) (r : RegAddr) (e : ShadowEntry) : Device :=
  { x with shadow := x.shadow.set r.toNat e r.isLt }

/-- shadow[d][r] (R40). -/
def State.entry (s : State) (d : DevIx) (r : RegAddr) : ShadowEntry := (s.dev d).entry r

/-- shadow[d][r] <- (v, 1) (R40). -/
def State.setShadow (s : State) (d : DevIx) (r : RegAddr) (v : Byte) : State :=
  s.setDev d ((s.dev d).setEntry r { val := v, valid := true })

/-- shadow[d][r].valid <- 0 (R123). -/
def State.dropShadow (s : State) (d : DevIx) (r : RegAddr) : State :=
  s.setDev d ((s.dev d).setEntry r { (s.dev d).entry r with valid := false })

/-- A function applied to every place of a vector, by way of its list (so that Lean's kernel computes it). -/
def mapVector {α : Type} {n : Nat} (f : α → α) (v : Vector α n) : Vector α n :=
  ⟨(v.toList.map f).toArray, by simp⟩

/-- Every entry of a shadow file made invalid, its value kept (R40, R80). -/
def Device.dropAll (x : Device) : Device :=
  { x with shadow := mapVector (fun e => { e with valid := false }) x.shadow }

/-- shadow[d][*].valid <- 0 (R80). -/
def State.dropShadowAll (s : State) (d : DevIx) : State := s.setDev d (s.dev d).dropAll

/-! ## Configuration lookups -/

/-- The static attributes of device d (R43). -/
def State.devCfg (s : State) (d : DevIx) : Config.DevCfg := s.cfg.devs[d]

/-- The layout of the family of device d (R6, R152). -/
def State.layout (s : State) (d : DevIx) : Config.Layout := s.cfg.layout (s.devCfg d).family

/-- ID_MAP[f](id): the chip type of an identification byte, 0 = unrecognised (R6, R152). -/
def idChipType : List (Byte × BitVec 2) → Byte → BitVec 2
  | [], _ => 0#2
  | (b, t) :: rest, id => if b = id then t else idChipType rest id

/-- A pattern table at an index. A well-formed configuration has an entry at every index that is used (log 5). -/
def patternAt (l : List Pattern) (n : Nat) : Pattern := l.getD n 0xAAAA#16

/-- MODE_PAT[f](cfg.mode[d]) (R6). -/
def State.modePattern (s : State) (d : DevIx) : Pattern := patternAt (s.layout d).modePats (s.devCfg d).mode

/-- PHASE_PAT[f](cfg.phase[d]) (R6). -/
def State.phasePattern (s : State) (d : DevIx) : Pattern := patternAt (s.layout d).phasePats (s.devCfg d).phase

/-! ## Trace, events, pins -/

/-- Append an action to the trace (R11). -/
def State.record (s : State) (a : Action) : State := { s with env := { s.env with trace := s.env.trace ++ [a] } }

/-- EVENT_ENABLE[k]. -/
def State.enabled (s : State) (k : EventKind) : Bool := s.host.eventEnable.getLsbD (eventNumber k)

/-- Emit(k) (R260): the event joins `fired`, the trace records it and whether it has an observer. -/
def State.emit (s : State) (k : EventKind) : State :=
  State.record { s with engine := { s.engine with fired := s.engine.fired ||| eventBit k } } (.ev k (s.enabled k))

/-- The configured pin number of an output (R6). -/
def State.pinNumber (s : State) : OutPin → BitVec 8
  | .relay => s.cfg.relayPin
  | .reset => s.cfg.resetPin

/-- The logical level of an output <- lv (R275). -/
def State.setLevel (s : State) (which : OutPin) (lv : Bool) : State :=
  match which with
  | .relay => { s with ctl := { s.ctl with relayOut := lv } }
  | .reset => { s with ctl := { s.ctl with resetOut := lv } }

/-- SetPin(which, lv) (R275): pin number 255 is not connected and leaves no trace. -/
def State.setPin (s : State) (which : OutPin) (lv : Bool) : State :=
  if s.pinNumber which = 255#8 then s.setLevel which lv
  else (s.setLevel which lv).record (.pin which lv)

/-! ## The two-wire bus -/

/-- The oracle's next read answer (R69): the next listed one, else a free one (log 2). -/
def nextReadAnswer (e : Env) : Config.ReadAnswer × Env :=
  match e.reads with
  | a :: rest => (a, { e with reads := rest })
  | [] => (Config.freeReadAnswer e.busTurn, { e with busTurn := e.busTurn + 1 })

/-- The oracle's next write answer (R69): the next listed one, else a free one (log 2). -/
def nextWriteAnswer (e : Env) : Config.WriteAnswer × Env :=
  match e.writes with
  | a :: rest => (a, { e with writes := rest })
  | [] => (Config.freeWriteAnswer e.busTurn, { e with busTurn := e.busTurn + 1 })

/-- BusRead(a, r): one register-read transaction (R64). -/
def busRead (a : BusAddr) (r : RegAddr) (s : State) : Config.ReadAnswer × State :=
  ((nextReadAnswer s.env).1,
    State.record { s with env := (nextReadAnswer s.env).2 } (.busRd a r (nextReadAnswer s.env).1))

/-- BusWrite(a, r, v): one register-write transaction (R65). -/
def busWrite (a : BusAddr) (r : RegAddr) (v : Byte) (s : State) : Config.WriteAnswer × State :=
  ((nextWriteAnswer s.env).1,
    State.record { s with env := (nextWriteAnswer s.env).2 } (.busWr a r v (nextWriteAnswer s.env).1))

/-! ## Procedure results and the commit -/

/-- The common part of a procedure result (R10): `bc` is the bus code when `err` is BUS, and 0 otherwise. -/
structure Report where
  ok : Bool
  err : CmdErr
  bc : BitVec 3
deriving DecidableEq, Repr

/-- The result of a procedure that succeeded (R10). -/
def Report.success : Report := { ok := true, err := .noErr, bc := 0#3 }

/-- The result of a procedure that failed (R10). -/
def Report.failure (err : CmdErr) (bc : BitVec 3) : Report := { ok := false, err := err, bc := bc }

/-- The start of an Engine step (R66, R260): no event fired yet, an empty trace. -/
def beginStep (s : State) : State :=
  { s with engine := { s.engine with fired := 0#10 }, env := { s.env with trace := [] } }

/-- `finish(ok, err, bc, res, pf, sf)`: the commit that ends an Engine step (R67). The events that fired become pending where
they are enabled (R260), and the event set of the step is empty again (log 9). -/
def finish (rep : Report) (res : CmdResult) (pf sf : DevMask) (s : State) : State :=
  { s with
    status := { s.status with busy := false, done := true, ok := rep.ok, err := rep.err, buscode := rep.bc }
    engine := { s.engine with fired := 0#10 }
    host := { s.host with
      result := resultWord res
      failMask := failWord pf sf
      eventPending := s.host.eventPending ||| (s.engine.fired &&& s.host.eventEnable) } }

/-- `raise CmdError(code, bc)` (R252): the commit with OK = 0. It is the block's only kind of exception (R250, R266): nothing is
saved, no mode changes, control goes nowhere, and there is no return from it (R267). -/
def raiseCmdError (code : CmdErr) (bc : BitVec 3) (res : CmdResult) (pf sf : DevMask) (s : State) : State :=
  finish (Report.failure code bc) res pf sf s

/-- The completion of a word that is no command: BAD_CMD with nothing else (R94, R95). -/
def completeBadCmd (s : State) : State := raiseCmdError .badCmd 0#3 {} 0#16 0#16 (beginStep s)

/-- Run a command that names device d: BAD_DEV where the device does not exist (R95), else the command. -/
def onDevice (d : DevIx) (body : State → State) (s : State) : State :=
  if d.val < s.nDev then body (beginStep s) else raiseCmdError .badDev 0#3 {} 0#16 0#16 (beginStep s)

/-- The device's bit when its operation failed, else nothing (R254). -/
def failBit (ok : Bool) (d : DevIx) : DevMask := if ok then 0#16 else devBit d

/-- Do `f` on each listed device, in order, whatever the earlier ones returned; the mask holds the devices that failed (R241). -/
def forEach (f : DevIx → State → Report × State) : List DevIx → State → DevMask × State
  | [], s => (0#16, s)
  | d :: ds, s =>
    (failBit (f d s).1.ok d ||| (forEach f ds (f d s).2).1, (forEach f ds (f d s).2).2)

end Sys2Proof.Machine
end

