-- ==== Sys2Proof/Machine/Transport.lean ====
section
/-! DEFINITION. The register transport procedures and the commands READ_REG, WRITE_REG, WRITE_BITS
(spec/40_transport.md R120-R134). -/

namespace Sys2Proof.Machine

/-! ## Procedures -/

/-- `(ok, err, bc, v)` of a read (R10, R120). -/
structure ReadResult where
  rep : Report
  v : Byte
deriving DecidableEq, Repr

/-- `(ok, err, bc, elided, data)` of a write (R10, R123). -/
structure WriteResult where
  rep : Report
  elided : Bool
  data : Byte
deriving DecidableEq, Repr

/-- What a bus answer means to a read (R120). -/
def readResultOf : Config.ReadAnswer → ReadResult
  | .data b => { rep := .success, v := b }
  | .addrErr c => { rep := .failure .bus (busErrorCode c), v := 0#8 }
  | .timeout => { rep := .failure .timeout 0#3, v := 0#8 }

/-- RawRead(d, r): one BusRead, no gate (R120). -/
def rawRead (d : DevIx) (r : RegAddr) (s : State) : ReadResult × State :=
  (readResultOf (busRead (s.devCfg d).addr r s).1, (busRead (s.devCfg d).addr r s).2)

/-- RdCore(d, r): the noI2C bypass, then the not-initialised gate, then the read (R121, R122). -/
def rdCore (d : DevIx) (r : RegAddr) (s : State) : ReadResult × State :=
  if (s.devCfg d).noI2C then ({ rep := .success, v := s.cfg.noI2CReadValue }, s)
  else if s.healthy d then rawRead d r s
  else ({ rep := .failure .notInit 0#3, v := 0#8 }, s)

/-- The verify read's outcome (R123): the shadow entry is set only when the read-back equals the value written. -/
def verifyOutcome (d : DevIx) (r : RegAddr) (v : Byte) (x : ReadResult × State) : WriteResult × State :=
  if x.1.rep.ok then
    if x.1.v = v then ({ rep := .success, elided := false, data := v }, x.2.setShadow d r v)
    else ({ rep := .failure .verify 0#3, elided := false, data := x.1.v }, x.2.dropShadow d r)
  else ({ rep := x.1.rep, elided := false, data := 0#8 }, x.2.dropShadow d r)

/-- WriteVerify(d, r, v): the physical write, then the verify read (R123). -/
def writeVerify (d : DevIx) (r : RegAddr) (v : Byte) (s : State) : WriteResult × State :=
  match busWrite (s.devCfg d).addr r v s with
  | (.error c, s1) =>
    ({ rep := .failure .bus (busErrorCode c), elided := false, data := 0#8 }, s1.dropShadow d r)
  | (.success, s1) => verifyOutcome d r v (rawRead d r s1)

/-- The part of WrCore after the read-before-write (R124): a failed read ends it, an equal value elides the write. -/
def writeUnlessEqual (d : DevIx) (r : RegAddr) (v : Byte) (x : ReadResult × State) : WriteResult × State :=
  if x.1.rep.ok then
    if x.1.v = v then ({ rep := .success, elided := true, data := v }, x.2.setShadow d r v)
    else writeVerify d r v x.2
  else ({ rep := x.1.rep, elided := false, data := 0#8 }, x.2)

/-- WrCore(d, r, v): bypass, gate, shadow coalescing, read-before-write elision, write and verify (R124). -/
def wrCore (d : DevIx) (r : RegAddr) (v : Byte) (s : State) : WriteResult × State :=
  if (s.devCfg d).noI2C then ({ rep := .success, elided := true, data := 0#8 }, s)
  else if s.healthy d then
    if (s.entry d r).valid = true ∧ (s.entry d r).val = v then
      ({ rep := .success, elided := true, data := v }, s)
    else writeUnlessEqual d r v (rawRead d r s)
  else ({ rep := .failure .notInit 0#3, elided := false, data := 0#8 }, s)

/-- The part of BitsCore after the read (R125): a patch that changes nothing writes nothing, and makes the value known when the
pattern touches a bit. -/
def patchUnlessEqual (d : DevIx) (r : RegAddr) (p : Pattern) (x : ReadResult × State) : WriteResult × State :=
  if x.1.rep.ok then
    if overlay x.1.v p = x.1.v then
      ({ rep := .success, elided := true, data := x.1.v },
        if patTouch p ≠ 0#8 then x.2.setShadow d r x.1.v else x.2)
    else writeVerify d r (overlay x.1.v p) x.2
  else ({ rep := x.1.rep, elided := false, data := 0#8 }, x.2)

/-- BitsCore(d, r, P): bypass, gate, read, overlay, write and verify; the shadow is not consulted (R125). -/
def bitsCore (d : DevIx) (r : RegAddr) (p : Pattern) (s : State) : WriteResult × State :=
  if (s.devCfg d).noI2C then ({ rep := .success, elided := true, data := 0#8 }, s)
  else if s.healthy d then patchUnlessEqual d r p (rawRead d r s)
  else ({ rep := .failure .notInit 0#3, elided := false, data := 0#8 }, s)

/-- The commit of a write-type command on device d: DATA and ELIDED of RESULT, the device's fail bit (R132, R253, R254). -/
def finishWrite (d : DevIx) (x : WriteResult × State) : State :=
  finish x.1.rep { data := x.1.data, elided := x.1.elided } (failBit x.1.rep.ok d) 0#16 x.2

/-- The commit of READ_REG: DATA is the byte read, 0 on a failure (R130). -/
def finishRead (d : DevIx) (x : ReadResult × State) : State :=
  finish x.1.rep { data := if x.1.rep.ok then x.1.v else 0#8 } (failBit x.1.rep.ok d) 0#16 x.2

/-- WRITE_BITS on an existing device: the pattern is checked before everything else (R122, R134). -/
def patchRegister (d : DevIx) (r : RegAddr) (p : Pattern) (s : State) : State :=
  if patValid p then finishWrite d (bitsCore d r p s)
  else raiseCmdError .badPattern 0#3 {} (devBit d) 0#16 s

/-! ## Commands -/

/-- READ_REG d, r (R130). -/
def execReadReg (d : DevIx) (r : RegAddr) (s : State) : Host.Outcome State Fault Refusal :=
  .next (onDevice d (fun s0 => finishRead d (rdCore d r s0)) s)

/-- WRITE_REG d, r with v = LARG[7:0] (R132). -/
def execWriteReg (d : DevIx) (r : RegAddr) (s : State) : Host.Outcome State Fault Refusal :=
  .next (onDevice d (fun s0 => finishWrite d (wrCore d r (operandByte s0.engine.larg) s0)) s)

/-- WRITE_BITS d, r with P = LARG[15:0] (R134). -/
def execWriteBits (d : DevIx) (r : RegAddr) (s : State) : Host.Outcome State Fault Refusal :=
  .next (onDevice d (fun s0 => patchRegister d r (operandPattern s0.engine.larg) s0) s)

end Sys2Proof.Machine
end

