-- ==== Sys2Proof/Machine/Device.lean ====
section
/-! DEFINITION. The DAC device procedures and the DEV_* commands (spec/41_device.md R150-R179). -/

namespace Sys2Proof.Machine

/-! ## Initialisation and reset -/

/-- `(ok, err, bc, idb, ct)` of InitProc (R150). -/
structure InitResult where
  rep : Report
  idb : Byte
  ct : BitVec 2
deriving DecidableEq, Repr

/-- ResetProc(d), and Rollback(d) too: Uninitialised, the shadow invalid, no bus transaction (R150, R155). -/
def resetProc (d : DevIx) (s : State) : State := (s.setPhase d .uninitialised).dropShadowAll d

/-- The phase patch, the last part of InitProc, after the mode patch ended as `x` (R150). -/
def initPhasePatch (d : DevIx) (id : Byte) (t : BitVec 2) (x : WriteResult × State) : InitResult × State :=
  if x.1.rep.ok then
    match bitsCore d (x.2.layout d).phaseReg (x.2.phasePattern d) x.2 with
    | (w, s2) =>
      if w.rep.ok then ({ rep := .success, idb := id, ct := t }, s2)
      else ({ rep := w.rep, idb := id, ct := t }, resetProc d s2)
  else ({ rep := x.1.rep, idb := id, ct := t }, resetProc d x.2)

/-- InitProc after a successful identification read: an unrecognised byte fails at once, else the device is Initialised and the
mode and phase patches follow (R150). -/
def initIdentified (d : DevIx) (id : Byte) (s : State) : InitResult × State :=
  if idChipType (s.layout d).idMap id = 0#2 then
    ({ rep := .failure .idUnknown 0#3, idb := id, ct := 0#2 }, (s.setChipType d 0#2).setPhase d .uninitialised)
  else
    initPhasePatch d id (idChipType (s.layout d).idMap id)
      (bitsCore d (s.layout d).modeReg (s.modePattern d)
        ((s.setChipType d (idChipType (s.layout d).idMap id)).setPhase d .initialised))

/-- InitProc after the identification read ended as `x` (R150): a failed read records no chip type. -/
def initAfterId (d : DevIx) (x : ReadResult × State) : InitResult × State :=
  if x.1.rep.ok then initIdentified d x.1.v x.2
  else ({ rep := x.1.rep, idb := 0#8, ct := (x.2.dev d).chipType }, x.2.setPhase d .uninitialised)

/-- InitProc(d) (R150). The identification read is exempt from the not-initialised gate (R122). -/
def initProc (d : DevIx) (s : State) : InitResult × State :=
  if (s.devCfg d).noI2C then
    ({ rep := .success, idb := 0#8, ct := s.cfg.noI2CChipType },
      ((s.setPhase d .initialised).setChipType d s.cfg.noI2CChipType).dropShadowAll d)
  else
    initAfterId d (rawRead d (s.layout d).idReg ((s.setPhase d .initialising).dropShadowAll d))

/-! ## Status reads -/

/-- `(ok, err, bc, bit, rerr, s)` of LockedProc and AutomutedProc (R160, R165). -/
structure StatusResult where
  rep : Report
  bit : Bool
  readErr : Bool
  byte : Byte
deriving DecidableEq, Repr

/-- A status bit of a gated read: a failed read reports the read error and a bit of 0 (R160, R165). -/
def statusResultOf (bitIx : Nat) (x : ReadResult) : StatusResult :=
  if x.rep.ok then { rep := .success, bit := x.v.getLsbD bitIx, readErr := false, byte := x.v }
  else { rep := x.rep, bit := false, readErr := true, byte := 0#8 }

/-- LOCK_BIT (R6). -/
def lockBit : Nat := 0

/-- LockedProc(d) (R160). -/
def lockedProc (d : DevIx) (s : State) : StatusResult × State :=
  (statusResultOf lockBit (rdCore d (s.layout d).statusReg s).1, (rdCore d (s.layout d).statusReg s).2)

/-- AutomutedProc(d) (R165). -/
def automutedProc (d : DevIx) (s : State) : StatusResult × State :=
  (statusResultOf (s.layout d).automuteBit.val (rdCore d (s.layout d).automuteReg s).1,
    (rdCore d (s.layout d).automuteReg s).2)

/-! ## Mute, unmute, attenuation, input select -/

/-- MuteProc(d) (R168). -/
def muteProc (d : DevIx) (s : State) : WriteResult × State :=
  bitsCore d (s.layout d).muteReg (s.layout d).mutePat s

/-- UnmuteProc(d) (R170). -/
def unmuteProc (d : DevIx) (s : State) : WriteResult × State :=
  bitsCore d (s.layout d).muteReg (s.layout d).unmutePat s

/-- AttenProc(d, v) (R172): the clamped value is returned on every path, and what WrCore returns as data is discarded. DEDUCED (log
26): so on a noI2C device too, as R25, R172, R173 and the table of R253 have it; the last sentence of R253 and D22 give write-type
commands DATA = 0 there. -/
def attenProc (d : DevIx) (v : Byte) (s : State) : WriteResult × State :=
  match wrCore d (s.layout d).attenReg (clampAtten v (s.layout d).attenMax) s with
  | (w, s1) => ({ rep := w.rep, elided := w.elided, data := clampAtten v (s.layout d).attenMax }, s1)

/-- InputProc(d, sel) (R175): the selector is checked before the noI2C bypass. -/
def inputProc (d : DevIx) (sel : Byte) (s : State) : WriteResult × State :=
  if sel.toNat < (s.layout d).inputPats.length then
    bitsCore d (s.layout d).inputReg (patternAt (s.layout d).inputPats sel.toNat) s
  else ({ rep := .failure .badArg 0#3, elided := false, data := 0#8 }, s)

/-! ## Commands -/

/-- The commit of DEV_INIT (R151). -/
def finishInit (d : DevIx) (x : InitResult × State) : State :=
  finish x.1.rep { data := x.1.idb, chipType := x.1.ct } (failBit x.1.rep.ok d) 0#16 x.2

/-- The commit of DEV_LOCKED (R161). -/
def finishLocked (d : DevIx) (x : StatusResult × State) : State :=
  finish x.1.rep { data := x.1.byte, locked := x.1.bit, readErr := x.1.readErr } (failBit x.1.rep.ok d) 0#16 x.2

/-- The commit of DEV_AUTOMUTED (R166). -/
def finishAutomuted (d : DevIx) (x : StatusResult × State) : State :=
  finish x.1.rep { data := x.1.byte, automuted := x.1.bit, readErr := x.1.readErr } (failBit x.1.rep.ok d) 0#16 x.2

/-- DEV_INIT d (R151). -/
def execDevInit (d : DevIx) (s : State) : Host.Outcome State Fault Refusal :=
  .next (onDevice d (fun s0 => finishInit d (initProc d s0)) s)

/-- DEV_RESET d (R156). -/
def execDevReset (d : DevIx) (s : State) : Host.Outcome State Fault Refusal :=
  .next (onDevice d (fun s0 => finish .success {} 0#16 0#16 (resetProc d s0)) s)

/-- DEV_LOCKED d (R161). -/
def execDevLocked (d : DevIx) (s : State) : Host.Outcome State Fault Refusal :=
  .next (onDevice d (fun s0 => finishLocked d (lockedProc d s0)) s)

/-- DEV_AUTOMUTED d (R166). -/
def execDevAutomuted (d : DevIx) (s : State) : Host.Outcome State Fault Refusal :=
  .next (onDevice d (fun s0 => finishAutomuted d (automutedProc d s0)) s)

/-- DEV_MUTE d (R169). -/
def execDevMute (d : DevIx) (s : State) : Host.Outcome State Fault Refusal :=
  .next (onDevice d (fun s0 => finishWrite d (muteProc d s0)) s)

/-- DEV_UNMUTE d (R171). -/
def execDevUnmute (d : DevIx) (s : State) : Host.Outcome State Fault Refusal :=
  .next (onDevice d (fun s0 => finishWrite d (unmuteProc d s0)) s)

/-- DEV_SET_ATTEN d with v = LARG[7:0] (R173). -/
def execDevSetAtten (d : DevIx) (s : State) : Host.Outcome State Fault Refusal :=
  .next (onDevice d (fun s0 => finishWrite d (attenProc d (operandByte s0.engine.larg) s0)) s)

/-- DEV_SELECT_INPUT d with s = LARG[7:0] (R176). -/
def execDevSelectInput (d : DevIx) (s : State) : Host.Outcome State Fault Refusal :=
  .next (onDevice d (fun s0 => finishWrite d (inputProc d (operandByte s0.engine.larg) s0)) s)

end Sys2Proof.Machine
end

