-- ==== Sys2Proof/Machine/Controller.lean ====
section
/-! DEFINITION. The controller commands, the initialisation sequence and the status aggregator
(spec/42_controller.md R190-R241). -/

namespace Sys2Proof.Machine

/-! ## Power -/

/-- POWER_ON from power off (R190): the event, the relay, the flags, the timestamp, the event. -/
def powerUp (s : State) : State :=
  let s1 := (s.emit .beforePowerOn).setPin .relay true
  let s2 : State := { s1 with ctl := { s1.ctl with power := true, initialised := false, powerOnTime := s1.now } }
  s2.emit .afterPowerOn

/-- The pins, events and power flag of POWER_OFF, after the mutes (R195). -/
def powerDown (s : State) : State :=
  let s1 := ((s.setPin .reset false).emit .beforePowerOff).setPin .relay false
  let s2 : State := { s1 with ctl := { s1.ctl with power := false } }
  s2.emit .afterPowerOff

/-- ResetProc on every listed device (R195). -/
def resetAll : List DevIx → State → State
  | [], s => s
  | d :: ds, s => resetAll ds (resetProc d s)

/-- MuteProc on every existing device; the mask holds the failed ones (R195, R232). -/
def muteEach (s : State) : DevMask × State := forEach muteProc' s.devices s
where
  /-- MuteProc, its report alone. -/
  muteProc' (d : DevIx) (s : State) : Report × State := ((muteProc d s).1.rep, (muteProc d s).2)

/-- UnmuteProc on every existing device; the mask holds the failed ones (R206, R234). -/
def unmuteEach (s : State) : DevMask × State := forEach unmuteProc' s.devices s
where
  /-- UnmuteProc, its report alone. -/
  unmuteProc' (d : DevIx) (s : State) : Report × State := ((unmuteProc d s).1.rep, (unmuteProc d s).2)

/-- AttenProc on every existing device; the mask holds the failed ones (R230). -/
def attenEach (v : Byte) (s : State) : DevMask × State := forEach attenProc' s.devices s
where
  /-- AttenProc, its report alone. -/
  attenProc' (d : DevIx) (s : State) : Report × State := ((attenProc d v s).1.rep, (attenProc d v s).2)

/-- InputProc on every existing device; the mask holds the failed ones (R236). -/
def inputEach (sel : Byte) (s : State) : DevMask × State := forEach inputProc' s.devices s
where
  /-- InputProc, its report alone. -/
  inputProc' (d : DevIx) (s : State) : Report × State := ((inputProc d sel s).1.rep, (inputProc d sel s).2)

/-- POWER_OFF after the mutes (R195). -/
def powerOffAfterMutes (s : State) : State :=
  let s1 := resetAll s.devices (powerDown s)
  { s1 with ctl := { s1.ctl with initialised := false, prevLock := lockSentinel } }

/-! ## The initialisation sequence -/

/-- One pass over the listed devices: InitProc on each that is not Initialised (R201). -/
def initPass : List DevIx → State → State
  | [], s => s
  | d :: ds, s => initPass ds (if s.healthy d then s else (initProc d s).2)

/-- At most `n` passes, none once every device is Initialised (R201). -/
def initPasses : Nat → State → State
  | 0, s => s
  | n + 1, s => if s.initSuccess then s else initPasses n (initPass s.devices s)

/-- The existing devices that are not Initialised (R201). -/
def State.unhealthyMask (s : State) : DevMask := s.maskOf fun d => !s.healthy d

/-- The end of the sequence before the unmutes: the flags and the event (R201, R203-R205). -/
def initVerdict (s : State) : State :=
  let s1 : State :=
    { s with ctl := { s.ctl with
        errorInitialising := if s.unhealthyMask ≠ 0#16 then true else s.ctl.errorInitialising
        initialised := true } }
  if s1.initSuccess then s1.emit .initialised else s1.emit .notInitialised

/-- InitSequence() up to the event: the flag cleared, the reset line enabled, two passes, the verdict (R201). -/
def initAttempt (s : State) : State :=
  initPasses 2 (State.setPin { s with ctl := { s.ctl with errorInitialising := false } } .reset true)

/-- InitSequence() (R201): the primary mask holds the devices not Initialised, the secondary one the failed unmutes. -/
def initSequence (s : State) : DevMask × DevMask × State :=
  ((initAttempt s).unhealthyMask, (unmuteEach (initVerdict (initAttempt s))).1,
    (unmuteEach (initVerdict (initAttempt s))).2)

/-! ## Sampling -/

/-- AutomuteAggregate() over the listed devices (R211): every device is read; the mask holds the read errors, the bit is the
AND. -/
def automuteAggregate : List DevIx → State → DevMask × Bool × State
  | [], s => (0#16, true, s)
  | d :: ds, s =>
    ((if (automutedProc d s).1.readErr then devBit d else 0#16) ||| (automuteAggregate ds (automutedProc d s).2).1,
      (automutedProc d s).1.bit && (automuteAggregate ds (automutedProc d s).2).2.1,
      (automuteAggregate ds (automutedProc d s).2).2.2)

/-- AutomuteEdge(agg): a change is stored and fires once (R212, R218). -/
def automuteEdge (agg : Bool) (s : State) : State :=
  if agg = s.ctl.automuted then s
  else State.emit { s with ctl := { s.ctl with automuted := agg } } .automuteChanged

/-- A device's two bits of the lock bitmask: bit d locked, bit d + N_DEV read failed (R214). -/
def lockBits (nDev : Nat) (d : DevIx) (x : StatusResult) : Word :=
  ((BitVec.ofBool x.bit).setWidth 32 <<< d.val) ||| ((BitVec.ofBool x.readErr).setWidth 32 <<< (d.val + nDev))

/-- LockAggregate() over the listed devices (R214): every device is read; the mask holds the read errors. -/
def lockAggregate : List DevIx → State → DevMask × Word × State
  | [], s => (0#16, 0#32, s)
  | d :: ds, s =>
    ((if (lockedProc d s).1.readErr then devBit d else 0#16) ||| (lockAggregate ds (lockedProc d s).2).1,
      lockBits s.nDev d (lockedProc d s).1 ||| (lockAggregate ds (lockedProc d s).2).2.1,
      (lockAggregate ds (lockedProc d s).2).2.2)

/-- The event kind of a changed lock aggregate (R216). The two reference values are computed without overflow. -/
def lockEvent (nDev : Nat) (l : Word) : EventKind :=
  if l.toNat = 2 ^ nDev - 1 then .lock
  else if l.toNat < 2 ^ nDev then .noLock
  else .lockReadError

/-- LockEdge(L): a change is stored and classified (R215, R216, R218). -/
def lockEdge (l : Word) (s : State) : State :=
  if l = s.ctl.prevLock then s
  else State.emit { s with ctl := { s.ctl with prevLock := l } } (lockEvent s.nDev l)

/-- Sample() (R210): the timestamp, the automute pass and its edge, the lock pass and its edge. -/
def sample (s : State) : DevMask × DevMask × State :=
  let s1 : State := { s with ctl := { s.ctl with lastPollTime := s.now } }
  let am := automuteAggregate s1.devices s1
  let s2 := automuteEdge am.2.1 am.2.2
  let lk := lockAggregate s2.devices s2
  (am.1, lk.1, lockEdge lk.2.1 lk.2.2)

/-- (t_now - t) mod 2^32 ≥ d, unsigned (R200, R271). -/
def elapsed (now t d : Word) : Bool := decide (d.toNat ≤ (now - t).toNat)

/-- The commit of POLL (R200). -/
def finishPoll (action : BitVec 2) (x : DevMask × DevMask × State) : State :=
  finish .success { pollAction := action } x.1 x.2.1 x.2.2

/-- The polling step (R200): the initialisation sequence, or a sample, or nothing. -/
def pollStep (s : State) : State :=
  if s.ctl.power = true ∧ s.ctl.initialised = false then
    if elapsed s.now s.ctl.powerOnTime s.cfg.settleDelay then finishPoll 1#2 (initSequence s)
    else finishPoll 0#2 (0#16, 0#16, s)
  else if s.ctl.power = true ∧ s.ctl.initialised = true ∧ s.initSuccess = true then
    if elapsed s.now s.ctl.lastPollTime s.cfg.sampleInterval then finishPoll 2#2 (sample s)
    else finishPoll 0#2 (0#16, 0#16, s)
  else finishPoll 0#2 (0#16, 0#16, s)

/-! ## Commands -/

/-- The commit of a command forwarded to every device: DEV_FAIL where some device failed (R230, R254). -/
def finishAll (x : DevMask × State) : State :=
  if x.1 = 0#16 then finish .success {} 0#16 0#16 x.2
  else raiseCmdError .devFail 0#3 {} x.1 0#16 x.2

/-- POWER_ON (R190): no-op if already powered. -/
def execPowerOn (s : State) : Host.Outcome State Fault Refusal :=
  .next (if s.ctl.power then finish .success {} 0#16 0#16 (beginStep s)
    else finish .success {} 0#16 0#16 (powerUp (beginStep s)))

/-- POWER_OFF (R195): no-op if already off; failed mutes stand in the mask and do not fail the command. -/
def execPowerOff (s : State) : Host.Outcome State Fault Refusal :=
  .next (if s.ctl.power then
      finish .success {} (muteEach (beginStep s)).1 0#16 (powerOffAfterMutes (muteEach (beginStep s)).2)
    else finish .success {} 0#16 0#16 (beginStep s))

/-- POLL (R200). -/
def execPoll (s : State) : Host.Outcome State Fault Refusal := .next (pollStep (beginStep s))

/-- SET_ATTEN_ALL with v = LARG[7:0] (R230). -/
def execSetAttenAll (s : State) : Host.Outcome State Fault Refusal :=
  .next (finishAll (attenEach (operandByte s.engine.larg) (beginStep s)))

/-- MUTE_ALL (R232). -/
def execMuteAll (s : State) : Host.Outcome State Fault Refusal := .next (finishAll (muteEach (beginStep s)))

/-- UNMUTE_ALL (R234). -/
def execUnmuteAll (s : State) : Host.Outcome State Fault Refusal := .next (finishAll (unmuteEach (beginStep s)))

/-- SELECT_INPUT_ALL with s = LARG[7:0] (R236). -/
def execSelectInputAll (s : State) : Host.Outcome State Fault Refusal :=
  .next (finishAll (inputEach (operandByte s.engine.larg) (beginStep s)))

end Sys2Proof.Machine
end

