-- ==== Sys2Proof/Machine/Dispatch.lean ====
section
/-! DEFINITION. The meaning of every command: one arm per constructor of Instr (spec/30_encoding.md R93). -/
namespace Sys2Proof.Machine

/-- One whole Engine step of a decoded command (spec/20_memory.md R66). -/
def exec (i : Instr) (s : State) : Host.Outcome State Fault Refusal :=
  match i with
  | .readReg d r => Sys2Proof.Machine.execReadReg d r s
  | .writeReg d r => Sys2Proof.Machine.execWriteReg d r s
  | .writeBits d r => Sys2Proof.Machine.execWriteBits d r s
  | .devInit d => Sys2Proof.Machine.execDevInit d s
  | .devReset d => Sys2Proof.Machine.execDevReset d s
  | .devLocked d => Sys2Proof.Machine.execDevLocked d s
  | .devAutomuted d => Sys2Proof.Machine.execDevAutomuted d s
  | .devMute d => Sys2Proof.Machine.execDevMute d s
  | .devUnmute d => Sys2Proof.Machine.execDevUnmute d s
  | .devSetAtten d => Sys2Proof.Machine.execDevSetAtten d s
  | .devSelectInput d => Sys2Proof.Machine.execDevSelectInput d s
  | .powerOn => Sys2Proof.Machine.execPowerOn s
  | .powerOff => Sys2Proof.Machine.execPowerOff s
  | .poll => Sys2Proof.Machine.execPoll s
  | .setAttenAll => Sys2Proof.Machine.execSetAttenAll s
  | .muteAll => Sys2Proof.Machine.execMuteAll s
  | .unmuteAll => Sys2Proof.Machine.execUnmuteAll s
  | .selectInputAll => Sys2Proof.Machine.execSelectInputAll s

end Sys2Proof.Machine
end

