-- ==== Sys2Proof/Machine/HostPort.lean ====
section
/-! DEFINITION. The host register space: the sixteen registers, host reads and writes, the launch of a command
(spec/20_memory.md R60-R63, 10_state.md R22-R38, 60_exceptions.md R264), and the assembler's host accesses
(30_encoding.md R105, R106). -/

namespace Sys2Proof.Machine

/-- The registers of the host space (10_state.md R22-R37). -/
inductive HostReg where
  | cmd
  | arg
  | status
  | result
  | ctrlStatus
  | lockAgg
  | eventEnable
  | eventPending
  | now
  | powerOnTime
  | lastPollTime
  | devState
  | devChipType
  | devFailMask
deriving DecidableEq, Repr

/-- The offset of a register (10_state.md R22-R37). -/
def hostOffset : HostReg → Nat
  | .cmd => 0x00
  | .arg => 0x04
  | .status => 0x08
  | .result => 0x0C
  | .ctrlStatus => 0x10
  | .lockAgg => 0x14
  | .eventEnable => 0x18
  | .eventPending => 0x1C
  | .now => 0x20
  | .powerOnTime => 0x24
  | .lastPollTime => 0x28
  | .devState => 0x2C
  | .devChipType => 0x30
  | .devFailMask => 0x34

/-- The register at an offset; none at the reserved ones (R38). -/
def hostRegAt (off : Nat) : Option HostReg :=
  match off with
  | 0x00 => some .cmd
  | 0x04 => some .arg
  | 0x08 => some .status
  | 0x0C => some .result
  | 0x10 => some .ctrlStatus
  | 0x14 => some .lockAgg
  | 0x18 => some .eventEnable
  | 0x1C => some .eventPending
  | 0x20 => some .now
  | 0x24 => some .powerOnTime
  | 0x28 => some .lastPollTime
  | 0x2C => some .devState
  | 0x30 => some .devChipType
  | 0x34 => some .devFailMask
  | _ => none

/-- reg(NAME): the word a register reads as (10_state.md R22-R37). CMD reads as LCMD. DEDUCED (log 27): while BUSY = 1 too, CMD and
the registers a host write changes read as the launch and those writes left them (R22, R23, R63, R77), which the list of R68 leaves
out. -/
def readHostReg (s : State) : HostReg → Word
  | .cmd => s.engine.lcmd
  | .arg => s.host.arg
  | .status => s.statusWord
  | .result => s.host.result
  | .ctrlStatus => s.ctrlStatusWord
  | .lockAgg => s.ctl.prevLock
  | .eventEnable => s.host.eventEnable.setWidth 32
  | .eventPending => s.host.eventPending.setWidth 32
  | .now => s.now
  | .powerOnTime => s.ctl.powerOnTime
  | .lastPollTime => s.ctl.lastPollTime
  | .devState => s.devStateWord
  | .devChipType => s.chipTypeWord
  | .devFailMask => s.host.failMask

/-- The word at an offset of the host space; a reserved offset reads 0 (R61). -/
def hostReadWord (s : State) (off : Nat) : Word :=
  match hostRegAt off with
  | some x => readHostReg s x
  | none => 0#32

/-- The launch of a command (R63): the latches, the status cleared, BUSY set. -/
def launch (w : Word) (s : State) : State :=
  { s with
    engine := { s.engine with lcmd := w, larg := s.host.arg, lpow := s.ctl.power }
    status := { s.status with busy := true, done := false, ok := false, err := .noErr, buscode := 0#3 } }

/-- A host write to CMD (R63): a launch when idle, else the command is dropped and OVERRUN set. -/
def writeCmd (w : Word) (s : State) : State :=
  if s.status.busy then { s with status := { s.status with overrun := true } } else launch w s

/-- reg(NAME) <- v by the host (R62, R63, R264). Writes to read-only registers are ignored (R61). -/
def writeHostReg (x : HostReg) (v : Word) (s : State) : State :=
  match x with
  | .cmd => writeCmd v s
  | .arg => { s with host := { s.host with arg := v } }
  | .status => { s with status := { s.status with overrun := s.status.overrun && !v.getLsbD 3 } }
  | .eventEnable => { s with host := { s.host with eventEnable := v.extractLsb' 0 10 } }
  | .eventPending =>
    { s with host := { s.host with eventPending := s.host.eventPending &&& ~~~(v.extractLsb' 0 10) } }
  | .result | .ctrlStatus | .lockAgg | .now | .powerOnTime | .lastPollTime => s
  | .devState | .devChipType | .devFailMask => s

/-- The effect of a host write at an offset; a reserved offset ignores it (R61). -/
def hostWriteWord (off : Nat) (v : Word) (s : State) : State :=
  match hostRegAt off with
  | some x => writeHostReg x v s
  | none => s

/-- The accesses R60 admits: 4 bytes, 4-aligned; outside the 64 bytes there is no register (log 13). -/
def checkedAccess (width off : Nat) (s : State) : Host.Outcome State Fault Refusal :=
  if width ≠ 4 then .refused .hostAccessWidth
  else if off % 4 ≠ 0 then .refused .hostAccessMisaligned
  else if 0x40 ≤ off then .fault .outsideHostSpace
  else .next s

/-- MemRead(off, width) by the host (R60, R62): no effect on the block; the word stands in `readData` (log 10). -/
def hostReadStep (width off : Nat) (s : State) : Host.Outcome State Fault Refusal :=
  checkedAccess width off { s with env := { s.env with readData := hostReadWord s off } }

/-- MemWrite(off, width, v) by the host (R60, R62). -/
def hostWriteStep (width off : Nat) (v : Word) (s : State) : Host.Outcome State Fault Refusal :=
  checkedAccess width off (hostWriteWord off v s)

/-! ## Assembler -/

/-- WR reg, imm32 (R105), at its offset from BASE (log 14). -/
def asmWr (x : HostReg) (v : Word) : Config.AgentAction := .hostWrite 4 (hostOffset x) v

/-- RD reg (R105), at its offset from BASE (log 14). -/
def asmRd (x : HostReg) : Config.AgentAction := .hostRead 4 (hostOffset x)

/-- pat("s7..s0"): the pattern of an eight-symbol string (R100, R106); none for any other string. -/
def asmPat (str : List Char) : Option Pattern :=
  if str.length = 8 then (str.mapM symbolOfChar).map patOfSymbols else none

/-- The launch of a command: WR CMD with its word (R106). -/
def asmCommand (i : Instr) : List Config.AgentAction := [asmWr .cmd (encode i)]

/-- The launch of a command with an operand: WR ARG, then WR CMD (R106, R301). -/
def asmCommandArg (i : Instr) (v : Word) : List Config.AgentAction := [asmWr .arg v, asmWr .cmd (encode i)]

/-- ENABLE_EVENTS m (R106). -/
def asmEnableEvents (m : Word) : List Config.AgentAction := [asmWr .eventEnable m]

/-- ACK_EVENTS m (R106). -/
def asmAckEvents (m : Word) : List Config.AgentAction := [asmWr .eventPending m]

/-- ACK_OVERRUN (R106). -/
def asmAckOverrun : List Config.AgentAction := [asmWr .status 0x8#32]

/-- WAIT (R106) where the Engine step comes next: the Engine commits and one RD STATUS finds BUSY = 0. -/
def asmWait : List Config.AgentAction := [.engine, asmRd .status]

end Sys2Proof.Machine
end

