-- ==== Sys2Proof/Machine/Agents.lean ====
section
/-! DEFINITION. The steps of the agents (spec/00_scope.md R5): the Engine (20_memory.md R66), the Timer (60_exceptions.md R270),
the Reset agent (70_reset_and_hazards.md R290, R291), the Host; and which of them moves next. -/

namespace Sys2Proof.Machine

/-- Tick (R270): NOW advances by one modulo 2^32. -/
def tick (s : State) : State := { s with now := s.now + 1#32 }

/-- dev[d] at a Reset step (R290): the state, the chip type and every valid bit; an invalid entry's value is kept (log 7). -/
def resetDevice (x : Device) : Device :=
  Device.dropAll { x with phase := .uninitialised, chipType := 0#2 }

/-- The Reset step (R290, R291): every register and device to its reset value; the configuration, the bus and the trace of the
surroundings stay (log 7). -/
def resetStep (s : State) : State :=
  { s with
    status := Status.reset
    engine := EngineRegs.reset
    host := HostRegs.reset
    ctl := Controller.reset
    now := 0#32
    devs := mapVector resetDevice s.devs }

/-- A latched word that is a command runs; any other completes with BAD_CMD (R95). -/
def runWord (w : Word) (s : State) : Host.Outcome State Fault Refusal :=
  match decode w with
  | .ok i => exec i s
  | .error _ => .next (completeBadCmd s)

/-- The Engine step (R66): enabled exactly when BUSY = 1; where it is not enabled nothing happens (log 11). -/
def engineStep (s : State) : Host.Outcome State Fault Refusal :=
  if s.status.busy then runWord s.engine.lcmd s else .next s

/-- One step of the named agent (R5). -/
def agentStep (a : Config.AgentAction) (s : State) : Host.Outcome State Fault Refusal :=
  match a with
  | .hostRead width off => hostReadStep width off s
  | .hostWrite width off v => hostWriteStep width off v s
  | .engine => engineStep s
  | .tick => .next (tick s)
  | .reset => .next (resetStep s)

/-- The n-th free round of agent actions: finitely many free ones, then the Engine's turn. So the Engine's turn always comes again,
which is the weak fairness of R5 and 92_eei_decisions.md D63 (log 1, log 19). -/
def freeTurns (n : Nat) : List Config.AgentAction := Config.freeRound n ++ [.engine]

/-- The next agent action: the next listed one, else the first of a free round (log 1). -/
def nextAction (s : State) : Config.AgentAction :=
  match s.env.schedule with
  | a :: _ => a
  | [] => (freeTurns s.env.turn).headD .engine

/-- The state once the next agent action is taken off the schedule; a free round is listed as it begins (log 1, log 20). -/
def afterAction (s : State) : State :=
  match s.env.schedule with
  | _ :: rest => { s with env := { s.env with schedule := rest } }
  | [] => { s with env := { s.env with schedule := (freeTurns s.env.turn).tail, turn := s.env.turn + 1 } }

/-- The state with the word `w` latched in a busy Engine that moves next (log 12). -/
def placeCommand (w : Word) (s : State) : State :=
  { s with
    status := { s.status with busy := true }
    engine := { s.engine with lcmd := w }
    env := { s.env with schedule := .engine :: s.env.schedule } }

end Sys2Proof.Machine
end

