-- ==== Sys2Proof/Machine/Step.lean ====
section
/-! DEFINITION. One step of the machine: one step of one agent (spec/00_scope.md R5). -/

namespace Sys2Proof.Machine

/-- One step: the agent whose turn it is makes its step. -/
def step (s : State) : Host.Outcome State Fault Refusal := agentStep (nextAction s) (afterAction s)

/-- The state whose next step is the Engine step of the command word in the low `nbits` bits of `w` (log 12). -/
def State.withFetchWord (s : State) (nbits w : Nat) : State := placeCommand (BitVec.ofNat 32 (w % 2 ^ nbits)) s

end Sys2Proof.Machine
end

