-- ==== Sys2Proof/Safety.lean ====
section
/-! DEFINITION. The words claims use: what a completed command leaves, what no command writes, what a trace shows, a faithful chip
(spec/20_memory.md R69), and the invariants of the block (10_state.md R25-R45, 60_exceptions.md R251-R254). -/

namespace Sys2Proof.Machine

/-! ## Completed commands -/

/-- STATUS after a command that succeeded: DONE and OK, no error; OVERRUN kept (R67). -/
def okStatus (s : State) : Status where
  busy := false
  done := true
  ok := true
  overrun := s.status.overrun
  err := .noErr
  buscode := 0#3

/-- STATUS after a command that failed: DONE, the error and its bus code; OVERRUN kept (R67). -/
def errStatus (s : State) (err : CmdErr) (bc : BitVec 3) : Status where
  busy := false
  done := true
  ok := false
  overrun := s.status.overrun
  err := err
  buscode := bc

/-- `s` after a command that changed nothing but STATUS, RESULT, DEV_FAIL_MASK and what the surroundings see. -/
def State.completed (s : State) (st : Status) (result mask : Word) (env : Env) : State :=
  { s with
    status := st
    engine := { s.engine with fired := 0#10 }
    host := { s.host with result := result, failMask := mask }
    env := env }

/-- The surroundings after a command with this trace that used up the listed answers down to these. -/
def Env.after (e : Env) (reads : List Config.ReadAnswer) (writes : List Config.WriteAnswer) (trace : List Action) : Env :=
  { e with reads := reads, writes := writes, trace := trace }

/-- The device exists and is Initialised, and it is on the bus. -/
def State.onBus (s : State) (d : DevIx) : Prop :=
  d.val < s.nDev ∧ (s.devCfg d).noI2C = false ∧ s.healthy d = true

/-- The PRIMARY bit of device d alone. -/
def primaryBit (d : DevIx) : Word := 1#32 <<< d.val

/-- What no command writes: the configuration, NOW, ARG, EVENT_ENABLE, OVERRUN, the latches, and of the surroundings the
schedule, the turn and the last word read (R6, R47, R62). -/
structure CommandFrame (s t : State) : Prop where
  board : t.board = s.board
  now : t.now = s.now
  arg : t.host.arg = s.host.arg
  eventEnable : t.host.eventEnable = s.host.eventEnable
  overrun : t.status.overrun = s.status.overrun
  lcmd : t.engine.lcmd = s.engine.lcmd
  larg : t.engine.larg = s.engine.larg
  lpow : t.engine.lpow = s.engine.lpow
  schedule : t.env.schedule = s.env.schedule
  turn : t.env.turn = s.env.turn
  readData : t.env.readData = s.env.readData

/-- The state after `n` steps of the machine, or what stopped it before. -/
def runSteps : Nat → State → Host.Outcome State Fault Refusal
  | 0, s => .next s
  | n + 1, s =>
    match step s with
    | .next t => runSteps n t
    | .fault r => .fault r
    | .refused r => .refused r

/-! ## Traces -/

/-- A two-wire transaction. -/
def Action.isBus : Action → Bool
  | .busRd _ _ _ => true
  | .busWr _ _ _ _ => true
  | .pin _ _ => false
  | .ev _ _ => false

/-- A BusWrite. -/
def Action.isBusWrite : Action → Bool
  | .busRd _ _ _ => false
  | .busWr _ _ _ _ => true
  | .pin _ _ => false
  | .ev _ _ => false

/-- An event. -/
def Action.isEvent : Action → Bool
  | .busRd _ _ _ => false
  | .busWr _ _ _ _ => false
  | .pin _ _ => false
  | .ev _ _ => true

/-- The bits of the events a trace shows as delivered (R260). -/
def deliveredBits : List Action → EventSet
  | [] => 0#10
  | .ev k true :: l => eventBit k ||| deliveredBits l
  | .ev _ false :: l => deliveredBits l
  | .busRd _ _ _ :: l => deliveredBits l
  | .busWr _ _ _ _ :: l => deliveredBits l
  | .pin _ _ :: l => deliveredBits l

/-- The contents of the chips on the bus, as the faithful-chip premise has them (R69). -/
abbrev ChipContents := BusAddr → RegAddr → Byte

/-- The contents after a write of `v` to register `r` of the device at `a`. -/
def ChipContents.store (c : ChipContents) (a : BusAddr) (r : RegAddr) (v : Byte) : ChipContents :=
  fun a' r' => if a' = a ∧ r' = r then v else c a' r'

/-- The largest number of bus transactions of a command on N devices, as R313's table has it. -/
def maxTransactions (n : Nat) : Instr → Nat
  | .readReg _ _ => 1
  | .writeReg _ _ => 3
  | .writeBits _ _ => 3
  | .devInit _ => 7
  | .devReset _ => 0
  | .devLocked _ => 1
  | .devAutomuted _ => 1
  | .devMute _ => 3
  | .devUnmute _ => 3
  | .devSetAtten _ => 3
  | .devSelectInput _ => 3
  | .powerOn => 0
  | .powerOff => 3 * n
  | .poll => 17 * n
  | .setAttenAll => 3 * n
  | .muteAll => 3 * n
  | .unmuteAll => 3 * n
  | .selectInputAll => 3 * n

/-- The one chip register a register-level command on a single device addresses, by the family's layout (R130-R176); none for the
other commands. -/
def targetReg (s : State) : Instr → Option (DevIx × RegAddr)
  | .readReg d r => some (d, r)
  | .writeReg d r => some (d, r)
  | .writeBits d r => some (d, r)
  | .devLocked d => some (d, (s.layout d).statusReg)
  | .devAutomuted d => some (d, (s.layout d).automuteReg)
  | .devMute d => some (d, (s.layout d).muteReg)
  | .devUnmute d => some (d, (s.layout d).muteReg)
  | .devSetAtten d => some (d, (s.layout d).attenReg)
  | .devSelectInput d => some (d, (s.layout d).inputReg)
  | .devInit _ => none
  | .devReset _ => none
  | .powerOn => none
  | .powerOff => none
  | .poll => none
  | .setAttenAll => none
  | .muteAll => none
  | .unmuteAll => none
  | .selectInputAll => none

/-- The commands that only read a chip register (R130, R161, R166). -/
def onlyReads : Instr → Bool
  | .readReg _ _ => true
  | .devLocked _ => true
  | .devAutomuted _ => true
  | .writeReg _ _ => false
  | .writeBits _ _ => false
  | .devInit _ => false
  | .devReset _ => false
  | .devMute _ => false
  | .devUnmute _ => false
  | .devSetAtten _ => false
  | .devSelectInput _ => false
  | .powerOn => false
  | .powerOff => false
  | .poll => false
  | .setAttenAll => false
  | .muteAll => false
  | .unmuteAll => false
  | .selectInputAll => false

/-- A command forwarded to every device (R230-R236). -/
def isBroadcast : Instr → Bool
  | .setAttenAll => true
  | .muteAll => true
  | .unmuteAll => true
  | .selectInputAll => true
  | .readReg _ _ => false
  | .writeReg _ _ => false
  | .writeBits _ _ => false
  | .devInit _ => false
  | .devReset _ => false
  | .devLocked _ => false
  | .devAutomuted _ => false
  | .devMute _ => false
  | .devUnmute _ => false
  | .devSetAtten _ => false
  | .devSelectInput _ => false
  | .powerOn => false
  | .powerOff => false
  | .poll => false

/-- The faithful-chip premise (R69) on a trace: every read answered the chip's content, every write was answered 0 and stored.
The contents afterwards; none where the trace is not faithful. -/
def chipAfter : List Action → ChipContents → Option ChipContents
  | [], c => some c
  | .busRd a r res :: l, c => if res = .data (c a r) then chipAfter l c else none
  | .busWr a r v code :: l, c => if code = .success then chipAfter l (c.store a r v) else none
  | .pin _ _ :: l, c => chipAfter l c
  | .ev _ _ :: l, c => chipAfter l c

/-! ## The ends of a register-level write -/

/-- How a read transaction fails (R64, R120). -/
inductive ReadFault where
  /-- The address phase returned a non-success code: BUS with that code. -/
  | addrErr (c : Config.BusError)
  /-- No data within the bound: TIMEOUT. -/
  | timeout
deriving DecidableEq, Repr

/-- The bus answer of a failed read (R64). -/
def ReadFault.answer : ReadFault → Config.ReadAnswer
  | .addrErr c => .addrErr c
  | .timeout => .timeout

/-- The error a failed read reports (R120). -/
def ReadFault.err : ReadFault → CmdErr
  | .addrErr _ => .bus
  | .timeout => .timeout

/-- The bus code a failed read reports (R120). -/
def ReadFault.code : ReadFault → BitVec 3
  | .addrErr c => busErrorCode c
  | .timeout => 0#3

/-- What a register-level write asks of one chip register. -/
inductive Request where
  /-- The whole byte, with shadow coalescing (R124): WRITE_REG, DEV_SET_ATTEN. -/
  | byte (v : Byte)
  /-- A patch (R125): WRITE_BITS, DEV_MUTE, DEV_UNMUTE, DEV_SELECT_INPUT, the mode and phase of DEV_INIT. -/
  | patch (p : Pattern)
  /-- A selector the family does not have (R175). -/
  | noInput
deriving DecidableEq, Repr

/-- The byte the register shall hold, where it holds `cur` (R101, R124). -/
def Request.goal (cur : Byte) : Request → Byte
  | .byte v => v
  | .patch p => overlay cur p
  | .noInput => cur

/-- A request that finds its byte there makes it known, but for a patch that touches no bit (R124, R125). -/
def Request.touches : Request → Bool
  | .byte _ => true
  | .patch p => patTouch p != 0#8
  | .noInput => false

/-- The shadow entry holds the whole byte asked for (R124); a patch does not look (R125). -/
def Request.heldBy (x : ShadowEntry) : Request → Prop
  | .byte v => x = { val := v, valid := true }
  | .patch _ => False
  | .noInput => False

/-- The ways a register-level write can end: the checks of R122 in their order, then the paths of R126's table, each with the
bytes and the errors the bus answered. `cur` is the byte of the first read, `rb` the read-back. -/
inductive WriteEnd where
  /-- The selector is out of range: BAD_ARG (R175). -/
  | rejected
  /-- A noI2C device: success without the bus (R122). -/
  | bypassed
  /-- A bus device that is not Initialised: NOT_INIT (R122). -/
  | gated
  /-- The shadow holds the byte (R124). -/
  | coalesced
  /-- The first read fails (R124, R125). -/
  | unread (f : ReadFault)
  /-- The chip holds the byte (R124, R125). -/
  | elided (cur : Byte)
  /-- The write is answered with an error (R123). -/
  | unwritten (cur : Byte) (c : Config.BusError)
  /-- The verify read fails (R123). -/
  | unverified (cur : Byte) (f : ReadFault)
  /-- The verify read returns another byte (R123). -/
  | mismatched (cur rb : Byte)
  /-- Written and verified (R123). -/
  | written (cur : Byte)
deriving DecidableEq, Repr

/-- The request goes to the bus (R122, R124): in range, a bus device, Initialised, not held by the shadow. -/
def Request.reachesBus (s : State) (d : DevIx) (r : RegAddr) (q : Request) : Prop :=
  q ≠ .noInput ∧ (s.devCfg d).noI2C = false ∧ s.healthy d = true ∧ ¬q.heldBy (s.entry d r)

/-- The state, the request and the bytes are those of this end (R122-R125). -/
def WriteEnd.fits (s : State) (d : DevIx) (r : RegAddr) (q : Request) : WriteEnd → Prop
  | .rejected => q = .noInput
  | .bypassed => q ≠ .noInput ∧ (s.devCfg d).noI2C = true
  | .gated => q ≠ .noInput ∧ (s.devCfg d).noI2C = false ∧ s.healthy d = false
  | .coalesced => (s.devCfg d).noI2C = false ∧ s.healthy d = true ∧ q.heldBy (s.entry d r)
  | .unread _ => q.reachesBus s d r
  | .elided cur => q.reachesBus s d r ∧ q.goal cur = cur
  | .unwritten cur _ => q.reachesBus s d r ∧ q.goal cur ≠ cur
  | .unverified cur _ => q.reachesBus s d r ∧ q.goal cur ≠ cur
  | .mismatched cur rb => q.reachesBus s d r ∧ q.goal cur ≠ cur ∧ rb ≠ q.goal cur
  | .written cur => q.reachesBus s d r ∧ q.goal cur ≠ cur

/-- The answers its reads take (R123-R125). -/
def WriteEnd.reads (q : Request) : WriteEnd → List Config.ReadAnswer
  | .rejected => []
  | .bypassed => []
  | .gated => []
  | .coalesced => []
  | .unread f => [f.answer]
  | .elided cur => [.data cur]
  | .unwritten cur _ => [.data cur]
  | .unverified cur f => [.data cur, f.answer]
  | .mismatched cur rb => [.data cur, .data rb]
  | .written cur => [.data cur, .data (q.goal cur)]

/-- The answers its writes take (R123). -/
def WriteEnd.writes : WriteEnd → List Config.WriteAnswer
  | .rejected => []
  | .bypassed => []
  | .gated => []
  | .coalesced => []
  | .unread _ => []
  | .elided _ => []
  | .unwritten _ c => [.error c]
  | .unverified _ _ => [.success]
  | .mismatched _ _ => [.success]
  | .written _ => [.success]

/-- Its transactions at bus address `a` (R126). -/
def WriteEnd.trace (a : BusAddr) (r : RegAddr) (q : Request) : WriteEnd → List Action
  | .rejected => []
  | .bypassed => []
  | .gated => []
  | .coalesced => []
  | .unread f => [.busRd a r f.answer]
  | .elided cur => [.busRd a r (.data cur)]
  | .unwritten cur c => [.busRd a r (.data cur), .busWr a r (q.goal cur) (.error c)]
  | .unverified cur f => [.busRd a r (.data cur), .busWr a r (q.goal cur) .success, .busRd a r f.answer]
  | .mismatched cur rb => [.busRd a r (.data cur), .busWr a r (q.goal cur) .success, .busRd a r (.data rb)]
  | .written cur => [.busRd a r (.data cur), .busWr a r (q.goal cur) .success, .busRd a r (.data (q.goal cur))]

/-- Success, or its error and bus code (R123-R125, R251). -/
def WriteEnd.report : WriteEnd → Report
  | .rejected => .failure .badArg 0#3
  | .bypassed => .success
  | .gated => .failure .notInit 0#3
  | .coalesced => .success
  | .unread f => .failure f.err f.code
  | .elided _ => .success
  | .unwritten _ c => .failure .bus (busErrorCode c)
  | .unverified _ f => .failure f.err f.code
  | .mismatched _ _ => .failure .verify 0#3
  | .written _ => .success

/-- The DATA of its result (R123-R125, R253): the byte now in the register, the read-back of a mismatch, else 0. -/
def WriteEnd.data (q : Request) : WriteEnd → Byte
  | .rejected => 0#8
  | .bypassed => 0#8
  | .gated => 0#8
  | .coalesced => q.goal 0#8
  | .unread _ => 0#8
  | .elided cur => cur
  | .unwritten _ _ => 0#8
  | .unverified _ _ => 0#8
  | .mismatched _ rb => rb
  | .written cur => q.goal cur

/-- ELIDED of its result: success without a bus write (R253). -/
def WriteEnd.isElided : WriteEnd → Bool
  | .rejected => false
  | .bypassed => true
  | .gated => false
  | .coalesced => true
  | .unread _ => false
  | .elided _ => true
  | .unwritten _ _ => false
  | .unverified _ _ => false
  | .mismatched _ _ => false
  | .written _ => false

/-- What it leaves of shadow[d][r], the one thing it changes beside the answers and the trace (R123-R125). -/
def WriteEnd.leave (d : DevIx) (r : RegAddr) (q : Request) (s : State) : WriteEnd → State
  | .rejected => s
  | .bypassed => s
  | .gated => s
  | .coalesced => s
  | .unread _ => s
  | .elided cur => if q.touches then s.setShadow d r cur else s
  | .unwritten _ _ => s.dropShadow d r
  | .unverified _ _ => s.dropShadow d r
  | .mismatched _ _ => s.dropShadow d r
  | .written cur => s.setShadow d r (q.goal cur)

/-- STATUS after a command that completes with a report; OVERRUN kept (R67). -/
def Report.status (s : State) (x : Report) : Status where
  busy := false
  done := true
  ok := x.ok
  overrun := s.status.overrun
  err := x.err
  buscode := x.bc

/-- `s` after a command on device d that ended so, with this DATA (R132, R253, R254). -/
def WriteEnd.finished (s : State) (d : DevIx) (r : RegAddr) (q : Request) (data : Byte) (rest : List Config.ReadAnswer)
    (wrest : List Config.WriteAnswer) (e : WriteEnd) : State :=
  (e.leave d r q s).completed (e.report.status s) ((if e.isElided then 0x800#32 else 0#32) ||| data.setWidth 32)
    (if e.report.ok then 0#32 else primaryBit d) (s.env.after rest wrest (e.trace (s.devCfg d).addr r q))

/-- The request of an input selector on device d (R175). -/
def State.inputRequest (s : State) (d : DevIx) (sel : Byte) : Request :=
  match (s.layout d).inputPats[sel.toNat]? with
  | some p => .patch p
  | none => .noInput

/-- `t` is what a request on every existing device, in index order, leaves, for every way each can end: the mask holds exactly the
devices whose request failed, the trace is theirs one after the other, and each device is left as its own end leaves it (R230,
R241). -/
def State.Broadcasts (s : State) (reg : DevIx → RegAddr) (q : DevIx → Request) (t : State) : Prop :=
  ∀ (e : DevIx → WriteEnd) (rest : List Config.ReadAnswer) (wrest : List Config.WriteAnswer),
    (∀ d : DevIx, d.val < s.nDev → (e d).fits s d (reg d) (q d)) →
    s.env.reads = (s.devices.flatMap fun d => (e d).reads (q d)) ++ rest →
    s.env.writes = (s.devices.flatMap fun d => (e d).writes) ++ wrest →
    (∀ d : DevIx, t.host.failMask.getLsbD d.val = (decide (d.val < s.nDev) && !(e d).report.ok)) ∧
      t.env = s.env.after rest wrest
        (s.devices.flatMap fun d => (e d).trace (s.devCfg d).addr (reg d) (q d)) ∧
      ∀ d : DevIx, d.val < s.nDev → t.dev d = ((e d).leave d (reg d) (q d) s).dev d

/-! ## Passes of commands -/

/-- DEV_INIT, as a command of its own, on each listed device that is not Initialised: the state after the last one, and the traces
one after the other (R201). -/
def initEach : List DevIx → State → State × List Action
  | [], s => (s, [])
  | d :: ds, s =>
    if s.healthy d then initEach ds s
    else
      match exec (.devInit d) s with
      | .next t => ((initEach ds t).1, t.env.trace ++ (initEach ds t).2)
      | .fault _ => (s, [])
      | .refused _ => (s, [])

/-- A BusRead of register `r` at bus address `a`. -/
def Action.isReadOf (a : BusAddr) (r : RegAddr) : Action → Bool
  | .busRd a' r' _ => a' == a && r' == r
  | .busWr _ _ _ _ => false
  | .pin _ _ => false
  | .ev _ _ => false

/-- The byte a status read of device d gives (R121): the sentinel of a noI2C device, else the byte of the answer; none where the read
fails. -/
def State.statusByte (s : State) (d : DevIx) (a : Config.ReadAnswer) : Option Byte :=
  if (s.devCfg d).noI2C then some s.cfg.noI2CReadValue
  else
    match a with
    | .data b => some b
    | .addrErr _ => none
    | .timeout => none

/-! ## Invariants -/

/-- Between steps no device is Initialising (R41). -/
def State.PhasesSettled (s : State) : Prop := ∀ d, (s.dev d).phase ≠ .initialising

/-- A valid shadow entry belongs to an Initialised bus device (R40, R80, R124). -/
def State.ShadowsBacked (s : State) : Prop :=
  ∀ d r, (s.entry d r).valid = true → s.healthy d = true ∧ (s.devCfg d).noI2C = false

/-- No chip type is 3 (R42). -/
def State.ChipTypesKnown (s : State) : Prop := ∀ d, (s.dev d).chipType ≠ 3#2

/-- A slot past N_DEV stays as reset left it (R34, R36). -/
def State.AbsentQuiet (s : State) : Prop :=
  ∀ d : DevIx, s.nDev ≤ d.val → (s.dev d).phase = .uninitialised ∧ (s.dev d).chipType = 0#2

/-- The controller's flags agree: not initialised while off (R45), the relay follows power, the reset line is released only
while powered (R190, R195, R201, R275). -/
def State.PowerConsistent (s : State) : Prop :=
  (s.ctl.power = false → s.ctl.initialised = false) ∧ s.ctl.relayOut = s.ctl.power ∧
    (s.ctl.resetOut = true → s.ctl.power = true)

/-- STATUS is consistent: nothing reported while busy (R63); OK exactly when done without error, an error only when done
(R67, R251); a bus code exactly with BUS, and never 5-7 (R251, R65). -/
def State.StatusConsistent (s : State) : Prop :=
  (s.status.busy = true → s.status.done = false) ∧
    (s.status.ok = true ↔ s.status.done = true ∧ s.status.err = .noErr) ∧
    (s.status.err ≠ .noErr → s.status.done = true) ∧
    (s.status.buscode ≠ 0#3 ↔ s.status.err = .bus) ∧ s.status.buscode.toNat ≤ 4

/-- DEV_FAIL_MASK names existing devices only (R254). -/
def State.MaskBounded (s : State) : Prop :=
  ∀ i, i < 32 → s.host.failMask.getLsbD i = true → i % 16 < s.nDev

/-- LOCK_AGG is the sentinel, or it has no bit at or above 2 N_DEV and no device has both of its bits (R27, R35). -/
def State.LockAggShaped (s : State) : Prop :=
  s.ctl.prevLock = lockSentinel ∨
    ((∀ i, 2 * s.nDev ≤ i → s.ctl.prevLock.getLsbD i = false) ∧
      ∀ i, i < s.nDev → (s.ctl.prevLock.getLsbD i && s.ctl.prevLock.getLsbD (i + s.nDev)) = false)

/-- RESULT's reserved bits are 0, POLL_ACTION and CHIPTYPE are not 3 (R25, R42). -/
def State.ResultShaped (s : State) : Prop :=
  s.host.result.extractLsb' 18 14 = 0#14 ∧ s.host.result.extractLsb' 14 2 = 0#2 ∧
    s.host.result.extractLsb' 16 2 ≠ 3#2 ∧ s.host.result.extractLsb' 12 2 ≠ 3#2

/-- The event set of an Engine step is empty between steps (R260). -/
def State.NothingFired (s : State) : Prop := s.engine.fired = 0#10

/-- The invariant of the block between steps. -/
structure State.Inv (s : State) : Prop where
  phases : s.PhasesSettled
  shadows : s.ShadowsBacked
  chipTypes : s.ChipTypesKnown
  absent : s.AbsentQuiet
  power : s.PowerConsistent
  status : s.StatusConsistent
  mask : s.MaskBounded
  lockAgg : s.LockAggShaped
  result : s.ResultShaped
  fired : s.NothingFired

end Sys2Proof.Machine
end

