-- ==== Sys2Proof/Certificates/Slice0/Obligations.lean ====
section
/-! DEFINITION. The statements for the provers, rule by rule of spec/. -/

open Sys2Proof Sys2Proof.Machine Sys2Proof.Config

/-! ## Encoding -/

/-- The decoder undoes the encoder on every command, with every device and register (R90, R93, R98). -/
def Obligations.DecodeUndoesEncode : Prop := ∀ i : Instr, decode (encode i) = .ok i

/-- Every word has one meaning: a word that decodes is the encoding of what it decodes to (R90, R91, R106). -/
def Obligations.EncodeUndoesDecode : Prop := ∀ (w : Word) (i : Instr), decode w = .ok i → encode i = w

/-- Words of R106 and R130-R236 decode to the commands they stand for. -/
def Obligations.DecodesWrittenWords : Prop :=
  decodeTableWord 32 0x00010001 = some (.readReg 0 0x10#7) ∧ decodeTableWord 32 0x0000B002 = some (.writeReg 0 0x0B#7) ∧
    decodeTableWord 32 0x0000A003 = some (.writeBits 0 0x0A#7) ∧ decodeTableWord 32 0x00000109 = some (.devReset 1) ∧
    decodeTableWord 32 0x0000000E = some (.devSetAtten 0) ∧ decodeTableWord 32 0x00000012 = some .poll

/-! ## The step -/

/-- A step is the step of the agent the schedule names, which it takes off the schedule; and when that is the Engine, it is busy and
its latched word decodes, the step is the command's meaning (R5, R66, R95). While it is not busy its step changes nothing, so nothing
runs until the host writes CMD (R66, R292; that the turn then passes is log 11). The schedule is the model's own (log 1). -/
def Obligations.StepRunsDecodedCommand : Prop :=
  (∀ (s : State) (a : AgentAction) (rest : List AgentAction), s.env.schedule = a :: rest →
    step s = agentStep a { s with env := { s.env with schedule := rest } }) ∧
  (∀ (s : State) (rest : List AgentAction) (i : Instr), s.env.schedule = .engine :: rest → s.status.busy = true →
    decode s.engine.lcmd = .ok i → step s = exec i { s with env := { s.env with schedule := rest } }) ∧
  ∀ s : State, s.status.busy = false → agentStep .engine s = .next s

/-- A latched word that is not well-formed completes with BAD_CMD, RESULT and DEV_FAIL_MASK 0, no transaction, no event and no
other change (R94). -/
def Obligations.MalformedWordCompletesBadCmd : Prop :=
  ∀ s : State, s.status.busy = true → commandWordWf s.engine.lcmd = false →
    agentStep .engine s = .next (s.completed (errStatus s .badCmd 0#3) 0#32 0#32 { s.env with trace := [] })

/-- The step of a busy Engine commits its command: BUSY is 0 and DONE is 1 afterwards, whatever the latched word and whatever the bus
answers (R66, R67). And from every busy state, whatever is scheduled, that step comes (the weak fairness of R5 and D63, log 19): after
some number of steps, with the command still latched, the Engine's turn has come and the command commits, or a Reset step has come,
which discards it, or a host access that is not admitted has stopped the run. -/
def Obligations.BusyEngineCommits : Prop :=
  ∀ s : State, s.status.busy = true →
    (∃ t, agentStep .engine s = .next t ∧ t.status.busy = false ∧ t.status.done = true ∧
      t.status.overrun = s.status.overrun ∧ t.engine.lcmd = s.engine.lcmd) ∧
    ∃ n, (∃ u t, runSteps n s = .next u ∧ u.status.busy = true ∧ u.engine = s.engine ∧ step u = .next t ∧
        t.status.busy = false ∧ (nextAction u = .engine ∧ t.status.done = true ∨ nextAction u = .reset)) ∨
      (∃ r, runSteps n s = .refused r) ∨ ∃ r, runSteps n s = .fault r

/-! ## Every command -/

/-- A transport or device command on a device that does not exist completes with BAD_DEV and nothing else (R95, R251). -/
def Obligations.AbsentDeviceCompletesBadDev : Prop :=
  ∀ (i : Instr) (d : DevIx) (s : State), i.device? = some d → s.nDev ≤ d.val →
    exec i s = .next (s.completed (errStatus s .badDev 0#3) 0#32 0#32 { s.env with trace := [] })

/-- What a commit reports (R67, R251): not busy, done, OK exactly with NONE, a bus code exactly with BUS and never 5-7. -/
def Obligations.CommitReportsConsistently : Prop :=
  ∀ (i : Instr) (s t : State), exec i s = .next t →
    t.status.busy = false ∧ t.status.done = true ∧ (t.status.ok = true ↔ t.status.err = .noErr) ∧
      (t.status.buscode ≠ 0#3 ↔ t.status.err = .bus) ∧ t.status.buscode.toNat ≤ 4

/-- What no command writes: the configuration, NOW, ARG, EVENT_ENABLE, OVERRUN, the latches (R6, R47, R62, R270). -/
def Obligations.NoCommandWritesHostSide : Prop :=
  ∀ (i : Instr) (s t : State), exec i s = .next t → CommandFrame s t

/-- At the commit the events that fired become pending where they are enabled, and the trace shows each with its EVENT_ENABLE bit
(R67, R260). -/
def Obligations.EventsBecomePendingAtCommit : Prop :=
  ∀ (i : Instr) (s t : State), exec i s = .next t →
    t.host.eventPending = s.host.eventPending ||| deliveredBits t.env.trace ∧
      ∀ k b, Action.ev k b ∈ t.env.trace → b = s.host.eventEnable.getLsbD (eventNumber k)

/-- Who writes the controller's fields (R47, R190, R195, R210-R215): a transport, device or broadcast command writes none;
POWER_ON, POWER_OFF and POLL each write only theirs. -/
def Obligations.ControllerFieldsHaveTheirWriters : Prop :=
  (∀ (i : Instr) (s t : State), i ≠ .powerOn → i ≠ .powerOff → i ≠ .poll → exec i s = .next t →
    t.ctl = s.ctl ∧ t.host.eventPending = s.host.eventPending) ∧
  (∀ s t : State, exec .powerOn s = .next t →
    t.ctl = { s.ctl with
      power := t.ctl.power, initialised := t.ctl.initialised, powerOnTime := t.ctl.powerOnTime,
      relayOut := t.ctl.relayOut } ∧ t.devs = s.devs) ∧
  (∀ s t : State, exec .powerOff s = .next t →
    t.ctl = { s.ctl with
      power := t.ctl.power, initialised := t.ctl.initialised, prevLock := t.ctl.prevLock, relayOut := t.ctl.relayOut,
      resetOut := t.ctl.resetOut }) ∧
  (∀ s t : State, exec .poll s = .next t →
    t.ctl = { s.ctl with
      initialised := t.ctl.initialised, errorInitialising := t.ctl.errorInitialising, automuted := t.ctl.automuted,
      lastPollTime := t.ctl.lastPollTime, prevLock := t.ctl.prevLock, resetOut := t.ctl.resetOut })

/-- Only identification writes a chip type (R42), and only DEV_INIT, DEV_RESET, POWER_OFF and POLL write a device state (R179).
A command on one device leaves every other device as it is. -/
def Obligations.DeviceStateHasItsWriters : Prop :=
  (∀ (i : Instr) (s t : State) (e : DevIx), (∀ d, i ≠ .devInit d) → i ≠ .poll → exec i s = .next t →
    (t.dev e).chipType = (s.dev e).chipType) ∧
  (∀ (i : Instr) (s t : State) (e : DevIx), (∀ d, i ≠ .devInit d) → (∀ d, i ≠ .devReset d) → i ≠ .powerOff → i ≠ .poll →
    exec i s = .next t → (t.dev e).phase = (s.dev e).phase) ∧
  (∀ (i : Instr) (s t : State) (d e : DevIx), i.device? = some d → e ≠ d → exec i s = .next t → t.dev e = s.dev e)

/-- The frame of the register-level commands: on device d they leave the state, the chip type and every shadow entry but that of
the register they address; the three that only read leave every device as it is (R121, R123-R125, R130-R176). -/
def Obligations.RegisterCommandFrame : Prop :=
  ∀ (i : Instr) (s t : State) (d : DevIx) (r : RegAddr), targetReg s i = some (d, r) → exec i s = .next t →
    CommandFrame s t ∧ t.ctl = s.ctl ∧ t.host.eventPending = s.host.eventPending ∧
      (∀ e, e ≠ d → t.dev e = s.dev e) ∧ (t.dev d).phase = (s.dev d).phase ∧
      (t.dev d).chipType = (s.dev d).chipType ∧ (∀ q, q ≠ r → t.entry d q = s.entry d q) ∧
      (onlyReads i = true → t.devs = s.devs)

/-- No command issues more bus transactions than R313's table gives it; a POLL that samples issues at most two for each device. -/
def Obligations.TransactionsAreBounded : Prop :=
  ∀ (i : Instr) (s t : State), exec i s = .next t →
    (t.env.trace.filter Action.isBus).length ≤ maxTransactions s.nDev i ∧
      (i = .poll → t.host.result.extractLsb' 16 2 = 2#2 → (t.env.trace.filter Action.isBus).length ≤ 2 * s.nDev)

/-! ## The gates -/

/-- A register command on an existing bus device that is not Initialised completes with NOT_INIT, no transaction and no change of a
device (R121, R122, R124, R125, R160, R165, R173). -/
def Obligations.UninitialisedDeviceGivesNotInit : Prop :=
  ∀ (s : State) (d : DevIx) (r : RegAddr), d.val < s.nDev → (s.devCfg d).noI2C = false → s.healthy d = false →
    let done (result : Word) : Host.Outcome State Fault Refusal :=
      .next (s.completed (errStatus s .notInit 0#3) result (primaryBit d) { s.env with trace := [] })
    exec (.readReg d r) s = done 0#32 ∧ exec (.writeReg d r) s = done 0#32 ∧
      (patValid (operandPattern s.engine.larg) = true → exec (.writeBits d r) s = done 0#32) ∧
      exec (.devLocked d) s = done 0x200#32 ∧ exec (.devAutomuted d) s = done 0x200#32 ∧
      exec (.devMute d) s = done 0#32 ∧ exec (.devUnmute d) s = done 0#32 ∧
      exec (.devSetAtten d) s =
        done ((clampAtten (operandByte s.engine.larg) (s.layout d).attenMax).setWidth 32) ∧
      ((operandByte s.engine.larg).toNat < (s.layout d).inputPats.length → exec (.devSelectInput d) s = done 0#32)

/-- A command on an existing noI2C device never touches the bus and never fails but for its argument, in every device state: reads
answer NOI2C_READ_VALUE, writes are ELIDED and change no shadow, DEV_INIT succeeds (R121, R122, R124, R125, R150, R280). DATA of a
write is 0, but for DEV_SET_ATTEN, where it is the clamped value as R25, R172, R173 and R253's table say; that these hold against the
last sentence of R253 is the model's reading (log 26). -/
def Obligations.NoI2CDeviceBypassesTheBus : Prop :=
  ∀ (s : State) (d : DevIx) (r : RegAddr), d.val < s.nDev → (s.devCfg d).noI2C = true →
    let done (result : Word) : Host.Outcome State Fault Refusal :=
      .next (s.completed (okStatus s) result 0#32 { s.env with trace := [] })
    let v := s.cfg.noI2CReadValue
    exec (.readReg d r) s = done (v.setWidth 32) ∧ exec (.writeReg d r) s = done 0x800#32 ∧
      (patValid (operandPattern s.engine.larg) = true → exec (.writeBits d r) s = done 0x800#32) ∧
      exec (.devLocked d) s = done (v.setWidth 32 ||| (if v.getLsbD 0 then 0x100#32 else 0#32)) ∧
      exec (.devAutomuted d) s =
        done (v.setWidth 32 ||| (if v.getLsbD (s.layout d).automuteBit.val then 0x400#32 else 0#32)) ∧
      exec (.devMute d) s = done 0x800#32 ∧ exec (.devUnmute d) s = done 0x800#32 ∧
      exec (.devSetAtten d) s =
        done (0x800#32 ||| (clampAtten (operandByte s.engine.larg) (s.layout d).attenMax).setWidth 32) ∧
      ((operandByte s.engine.larg).toNat < (s.layout d).inputPats.length → exec (.devSelectInput d) s = done 0x800#32) ∧
      ∃ t, exec (.devInit d) s = .next t ∧ t.status = okStatus s ∧
        t.host.result = s.cfg.noI2CChipType.setWidth 32 <<< 12 ∧ t.host.failMask = 0#32 ∧ t.env.trace = [] ∧
        (t.dev d).phase = .initialised ∧ (t.dev d).chipType = s.cfg.noI2CChipType ∧
        (∀ q, (t.entry d q).valid = false) ∧ ∀ e, e ≠ d → t.dev e = s.dev e

/-! ## Transport commands -/

/-- READ_REG of an Initialised bus device: one BusRd. A byte that arrives stands in DATA; a failed address phase gives BUS and the
transaction code, a timeout TIMEOUT, both with DATA 0 and the device's mask bit; nothing else changes (R120, R121, R130). -/
def Obligations.ReadRegReportsItsAnswer : Prop :=
  ∀ (s : State) (d : DevIx) (r : RegAddr) (a : ReadAnswer) (rest : List ReadAnswer), s.onBus d → s.env.reads = a :: rest →
    let env := s.env.after rest s.env.writes [.busRd (s.devCfg d).addr r a]
    (∀ b : Byte, a = .data b → exec (.readReg d r) s = .next (s.completed (okStatus s) (b.setWidth 32) 0#32 env)) ∧
    (∀ c : BusError, a = .addrErr c →
      exec (.readReg d r) s = .next (s.completed (errStatus s .bus (busErrorCode c)) 0#32 (primaryBit d) env)) ∧
    (a = .timeout → exec (.readReg d r) s = .next (s.completed (errStatus s .timeout 0#3) 0#32 (primaryBit d) env))

/-- WRITE_REG of a value that is there already succeeds with ELIDED and no BusWr: without any transaction where the valid shadow
entry holds it, after one BusRd that sets the shadow entry where only the chip does; nothing else changes (R124, R132). -/
def Obligations.WriteRegElidesKnownValue : Prop :=
  ∀ (s : State) (d : DevIx) (r : RegAddr) (v : Byte), s.onBus d → operandByte s.engine.larg = v →
    (s.entry d r = { val := v, valid := true } →
      exec (.writeReg d r) s =
        .next (s.completed (okStatus s) (0x800#32 ||| v.setWidth 32) 0#32 { s.env with trace := [] })) ∧
    (∀ rest : List ReadAnswer, ¬((s.entry d r).valid = true ∧ (s.entry d r).val = v) → s.env.reads = .data v :: rest →
      exec (.writeReg d r) s = .next ((s.setShadow d r v).completed (okStatus s) (0x800#32 ||| v.setWidth 32) 0#32
        (s.env.after rest s.env.writes [.busRd (s.devCfg d).addr r (.data v)])))

/-- WRITE_REG of another value: read, write, verify read; DATA is the value, the shadow entry is set, nothing else changes (R123,
R124, R132). -/
def Obligations.WriteRegWritesAndVerifies : Prop :=
  ∀ (s : State) (d : DevIx) (r : RegAddr) (v cur : Byte) (rest : List ReadAnswer) (wrest : List WriteAnswer), s.onBus d →
    operandByte s.engine.larg = v → s.entry d r ≠ { val := v, valid := true } → cur ≠ v →
    s.env.reads = .data cur :: .data v :: rest → s.env.writes = .success :: wrest →
    exec (.writeReg d r) s = .next ((s.setShadow d r v).completed (okStatus s) (v.setWidth 32) 0#32
      (s.env.after rest wrest
        [.busRd (s.devCfg d).addr r (.data cur), .busWr (s.devCfg d).addr r v .success,
          .busRd (s.devCfg d).addr r (.data v)]))

/-- WRITE_REG that fails, in every way. A failed first read gives its own error and leaves the shadow entry (R124). After it, a failed
write gives BUS and its code, a read-back that differs gives VERIFY and the read-back, a failed verify read its own error, BUS with
its code or TIMEOUT; each of these makes the shadow entry invalid (R123, R132). -/
def Obligations.WriteRegFailureInvalidatesShadow : Prop :=
  ∀ (s : State) (d : DevIx) (r : RegAddr) (v cur : Byte) (rest : List ReadAnswer) (wrest : List WriteAnswer), s.onBus d →
    operandByte s.engine.larg = v → s.entry d r ≠ { val := v, valid := true } → cur ≠ v →
    (∀ f : ReadFault, s.env.reads = f.answer :: rest →
      exec (.writeReg d r) s = .next (s.completed (errStatus s f.err f.code) 0#32 (primaryBit d)
        (s.env.after rest s.env.writes [.busRd (s.devCfg d).addr r f.answer]))) ∧
    (∀ c : BusError, s.env.reads = .data cur :: rest → s.env.writes = .error c :: wrest →
      exec (.writeReg d r) s = .next ((s.dropShadow d r).completed (errStatus s .bus (busErrorCode c)) 0#32 (primaryBit d)
        (s.env.after rest wrest
          [.busRd (s.devCfg d).addr r (.data cur), .busWr (s.devCfg d).addr r v (.error c)]))) ∧
    (∀ rb : Byte, rb ≠ v → s.env.reads = .data cur :: .data rb :: rest → s.env.writes = .success :: wrest →
      exec (.writeReg d r) s = .next ((s.dropShadow d r).completed (errStatus s .verify 0#3) (rb.setWidth 32) (primaryBit d)
        (s.env.after rest wrest
          [.busRd (s.devCfg d).addr r (.data cur), .busWr (s.devCfg d).addr r v .success,
            .busRd (s.devCfg d).addr r (.data rb)]))) ∧
    (∀ f : ReadFault, s.env.reads = .data cur :: f.answer :: rest → s.env.writes = .success :: wrest →
      exec (.writeReg d r) s = .next ((s.dropShadow d r).completed (errStatus s f.err f.code) 0#32 (primaryBit d)
        (s.env.after rest wrest
          [.busRd (s.devCfg d).addr r (.data cur), .busWr (s.devCfg d).addr r v .success,
            .busRd (s.devCfg d).addr r f.answer])))

/-- Overlay, bit by bit (R100, R101): symbol 0 clears, symbol 1 sets, any other code with the high bit set leaves the bit. -/
def Obligations.OverlayPatchesBitByBit : Prop :=
  ∀ (cur : Byte) (p : Pattern) (i : Nat), i < 8 →
    (overlay cur p).getLsbD i = if p.getLsbD (2 * i + 1) then cur.getLsbD i else p.getLsbD (2 * i)

/-- WRITE_BITS of a valid pattern on an existing device, for every way it can end (`WriteEnd`): bypassed, gated, a failed read, elided
(the shadow entry set where the pattern touches a bit), a failed write, a failed verify read, a mismatch, written and verified. The
status, DATA, ELIDED, the mask, the shadow entry and the trace are that end's, and nothing else changes; the shadow is never
consulted (R122, R123, R125, R134). -/
def Obligations.WriteBitsPatchesOrElides : Prop :=
  ∀ (s : State) (d : DevIx) (r : RegAddr) (e : WriteEnd) (rest : List ReadAnswer) (wrest : List WriteAnswer),
    d.val < s.nDev → patValid (operandPattern s.engine.larg) = true →
    let q := Request.patch (operandPattern s.engine.larg)
    e.fits s d r q → s.env.reads = e.reads q ++ rest → s.env.writes = e.writes ++ wrest →
    exec (.writeBits d r) s = .next (e.finished s d r q (e.data q) rest wrest)

/-- WRITE_BITS with a symbol coded 11 fails with BAD_PATTERN on every existing device, in every state and with noI2C, without a
transaction (R122, R134). -/
def Obligations.InvalidPatternIsBadPattern : Prop :=
  ∀ (s : State) (d : DevIx) (r : RegAddr) (i : Nat), d.val < s.nDev → i < 8 →
    s.engine.larg.getLsbD (2 * i) = true → s.engine.larg.getLsbD (2 * i + 1) = true →
    exec (.writeBits d r) s =
      .next (s.completed (errStatus s .badPattern 0#3) 0#32 (primaryBit d) { s.env with trace := [] })

/-- The all-`*` property (R137): with P = 0xAAAA no BusWr is issued, for every device state and every answer of the bus. -/
def Obligations.AllKeepPatternNeverWrites : Prop :=
  ∀ (s t : State) (d : DevIx) (r : RegAddr), operandPattern s.engine.larg = 0xAAAA#16 →
    exec (.writeBits d r) s = .next t → ∀ a ∈ t.env.trace, a.isBusWrite = false

/-- The round trip (R136): on an Initialised bus device whose chip is faithful (R69) and agrees with the valid shadow entry (R40's
invariant, which is an obligation on the chip), a WRITE_REG that succeeds, followed by READ_REG of the same register, succeeds and
returns the value written. -/
def Obligations.WriteThenReadRoundTrip : Prop :=
  ∀ (s t u : State) (d : DevIx) (r : RegAddr) (c c' c'' : ChipContents), s.onBus d →
    ((s.entry d r).valid = true → (s.entry d r).val = c (s.devCfg d).addr r) →
    exec (.writeReg d r) s = .next t → t.status.ok = true → chipAfter t.env.trace c = some c' →
    exec (.readReg d r) t = .next u → chipAfter u.env.trace c' = some c'' →
    u.status.ok = true ∧ u.host.result = (operandByte s.engine.larg).setWidth 32

/-! ## Device commands -/

/-- DEV_INIT of a bus device whose identification is recognised, for every way the mode patch and then the phase patch can end
(`WriteEnd`): the first failure is the command's error, and a failed mode patch means no phase patch. DATA is the identification
byte, CHIPTYPE and the recorded type are ID_MAP's. On success the device is Initialised and its shadow is known only where the patches
left it so; on a failure it is rolled back, Uninitialised with an invalid shadow (R150, R151). -/
def Obligations.DevInitRecognises : Prop :=
  ∀ (s : State) (d : DevIx) (id : Byte) (m p : WriteEnd) (rest : List ReadAnswer) (wrest : List WriteAnswer),
    d.val < s.nDev → (s.devCfg d).noI2C = false →
    let ct := idChipType (s.layout d).idMap id
    let mode := Request.patch (s.modePattern d)
    let phase := Request.patch (s.phasePattern d)
    let s1 := ((s.dropShadowAll d).setChipType d ct).setPhase d .initialised
    ct ≠ 0#2 → m.fits s1 d (s.layout d).modeReg mode → p.fits s1 d (s.layout d).phaseReg phase →
    s.env.reads = .data id :: (m.reads mode ++ ((if m.report.ok then p.reads phase else []) ++ rest)) →
    s.env.writes = m.writes ++ ((if m.report.ok then p.writes else []) ++ wrest) →
    let rep := if m.report.ok then p.report else m.report
    ∃ t, exec (.devInit d) s = .next t ∧ t.status = rep.status s ∧
      t.host = { s.host with
        result := id.setWidth 32 ||| ct.setWidth 32 <<< 12, failMask := if rep.ok then 0#32 else primaryBit d } ∧
      t.ctl = s.ctl ∧ CommandFrame s t ∧
      t.env = s.env.after rest wrest
        (.busRd (s.devCfg d).addr (s.layout d).idReg (.data id) ::
          (m.trace (s.devCfg d).addr (s.layout d).modeReg mode ++
            if m.report.ok then p.trace (s.devCfg d).addr (s.layout d).phaseReg phase else [])) ∧
      (t.dev d).chipType = ct ∧
      (rep.ok = true → (t.dev d).phase = .initialised ∧
        ∀ q, t.entry d q = (p.leave d (s.layout d).phaseReg phase (m.leave d (s.layout d).modeReg mode s1)).entry d q) ∧
      (rep.ok = false → (t.dev d).phase = .uninitialised ∧ ∀ q, (t.entry d q).valid = false) ∧
      ∀ e, e ≠ d → t.dev e = s.dev e

/-- DEV_INIT of a bus device that cannot be identified: one BusRd and no write, the device Uninitialised with an invalid shadow. An
identification byte that maps to no variant gives ID_UNKNOWN, DATA the byte, CHIPTYPE and the recorded type 0; a failed identification
read gives its own error, DATA 0, and keeps the recorded chip type, which stands in CHIPTYPE (R150, R151). -/
def Obligations.DevInitFailsFastOnUnknownId : Prop :=
  ∀ (s : State) (d : DevIx) (rest : List ReadAnswer), d.val < s.nDev → (s.devCfg d).noI2C = false →
    let failsFast (answer : ReadAnswer) (st : Status) (result : Word) (ct : BitVec 2) : Prop :=
      ∃ t, exec (.devInit d) s = .next t ∧ t.status = st ∧
        t.host = { s.host with result := result, failMask := primaryBit d } ∧ t.ctl = s.ctl ∧ CommandFrame s t ∧
        t.env = s.env.after rest s.env.writes [.busRd (s.devCfg d).addr (s.layout d).idReg answer] ∧
        (t.dev d).phase = .uninitialised ∧ (t.dev d).chipType = ct ∧ (∀ q, (t.entry d q).valid = false) ∧
        ∀ e, e ≠ d → t.dev e = s.dev e
    (∀ id : Byte, idChipType (s.layout d).idMap id = 0#2 → s.env.reads = .data id :: rest →
      failsFast (.data id) (errStatus s .idUnknown 0#3) (id.setWidth 32) 0#2) ∧
    (∀ f : ReadFault, s.env.reads = f.answer :: rest →
      failsFast f.answer (errStatus s f.err f.code) ((s.dev d).chipType.setWidth 32 <<< 12) (s.dev d).chipType)

/-- DEV_INIT of an existing device ends in one of two ways, whatever the bus answers: success with the device Initialised, or failure
with it Uninitialised and its whole shadow invalid (R150: any failure rolls the device back). -/
def Obligations.DevInitSucceedsOrRollsBack : Prop :=
  ∀ (s t : State) (d : DevIx), d.val < s.nDev → exec (.devInit d) s = .next t →
    (t.status.ok = true ∧ (t.dev d).phase = .initialised ∧ t.host.failMask = 0#32) ∨
    (t.status.ok = false ∧ (t.dev d).phase = .uninitialised ∧ (∀ q, (t.entry d q).valid = false) ∧
      t.host.failMask = primaryBit d)

/-- DEV_RESET of an existing device: Uninitialised, its shadow invalid, the chip type kept, no transaction, nothing else (R155,
R156). -/
def Obligations.DevResetForcesUninitialised : Prop :=
  ∀ (s : State) (d : DevIx), d.val < s.nDev →
    ∃ t, exec (.devReset d) s = .next t ∧ t.status = okStatus s ∧
      t.host = { s.host with result := 0#32, failMask := 0#32 } ∧ t.ctl = s.ctl ∧ CommandFrame s t ∧
      t.env = { s.env with trace := [] } ∧ (t.dev d).phase = .uninitialised ∧
      (t.dev d).chipType = (s.dev d).chipType ∧ (∀ q, (t.entry d q).valid = false) ∧ ∀ e, e ≠ d → t.dev e = s.dev e

/-- DEV_LOCKED and DEV_AUTOMUTED of an Initialised bus device: one BusRd and no other change. Where the byte arrives, it stands in
DATA, its bit 0 in LOCKED or its configured bit in AUTOMUTED, READERR 0. Where it does not, READERR is 1 and the status bit 0, so that
unreadable and unlocked differ (R160, R161, R165, R166). -/
def Obligations.StatusReadsReportTheirBit : Prop :=
  ∀ (s : State) (d : DevIx) (a : ReadAnswer) (rest : List ReadAnswer), s.onBus d → s.env.reads = a :: rest →
    let lockEnv := s.env.after rest s.env.writes [.busRd (s.devCfg d).addr (s.layout d).statusReg a]
    let autoEnv := s.env.after rest s.env.writes [.busRd (s.devCfg d).addr (s.layout d).automuteReg a]
    (∀ b : Byte, a = .data b →
      exec (.devLocked d) s = .next (s.completed (okStatus s)
        (b.setWidth 32 ||| (if b.getLsbD 0 then 0x100#32 else 0#32)) 0#32 lockEnv) ∧
      exec (.devAutomuted d) s = .next (s.completed (okStatus s)
        (b.setWidth 32 ||| (if b.getLsbD (s.layout d).automuteBit.val then 0x400#32 else 0#32)) 0#32 autoEnv)) ∧
    (∀ c : BusError, a = .addrErr c →
      exec (.devLocked d) s =
        .next (s.completed (errStatus s .bus (busErrorCode c)) 0x200#32 (primaryBit d) lockEnv) ∧
      exec (.devAutomuted d) s =
        .next (s.completed (errStatus s .bus (busErrorCode c)) 0x200#32 (primaryBit d) autoEnv)) ∧
    (a = .timeout →
      exec (.devLocked d) s = .next (s.completed (errStatus s .timeout 0#3) 0x200#32 (primaryBit d) lockEnv) ∧
      exec (.devAutomuted d) s = .next (s.completed (errStatus s .timeout 0#3) 0x200#32 (primaryBit d) autoEnv))

/-- DEV_MUTE and DEV_UNMUTE of an existing device patch MUTE_REG[f] with MUTE_PAT[f] and UNMUTE_PAT[f], for every way the patch can end
(`WriteEnd`): the status, DATA, ELIDED, the mask, the shadow entry and the trace are that end's, and nothing else changes (R122, R123,
R125, R168-R171). -/
def Obligations.MuteAndUnmutePatchMuteReg : Prop :=
  ∀ (s : State) (d : DevIx) (e : WriteEnd) (rest : List ReadAnswer) (wrest : List WriteAnswer), d.val < s.nDev →
    s.env.writes = e.writes ++ wrest →
    let r := (s.layout d).muteReg
    let mute := Request.patch (s.layout d).mutePat
    let unmute := Request.patch (s.layout d).unmutePat
    (e.fits s d r mute → s.env.reads = e.reads mute ++ rest →
      exec (.devMute d) s = .next (e.finished s d r mute (e.data mute) rest wrest)) ∧
    (e.fits s d r unmute → s.env.reads = e.reads unmute ++ rest →
      exec (.devUnmute d) s = .next (e.finished s d r unmute (e.data unmute) rest wrest))

/-- DEV_SET_ATTEN of an existing device asks for the clamped value in ATTEN_REG[f], for every way the write can end (`WriteEnd`),
coalesced with the shadow too: the status, ELIDED, the mask, the shadow entry and the trace are that end's, DATA is the clamped value at
every end, and nothing else changes (R122-R124, R172, R173); that this holds on a noI2C device too is the model's reading (log 26). -/
def Obligations.SetAttenWritesClampedValue : Prop :=
  ∀ (s : State) (d : DevIx) (e : WriteEnd) (rest : List ReadAnswer) (wrest : List WriteAnswer), d.val < s.nDev →
    let r := (s.layout d).attenReg
    let vc := clampAtten (operandByte s.engine.larg) (s.layout d).attenMax
    e.fits s d r (.byte vc) → s.env.reads = e.reads (.byte vc) ++ rest → s.env.writes = e.writes ++ wrest →
    exec (.devSetAtten d) s = .next (e.finished s d r (.byte vc) vc rest wrest)

/-- DEV_SET_ATTEN of an existing device reports the clamped value in DATA whether or not the write succeeded, and the clamp is the
unsigned minimum (R172, R173); that this holds on a noI2C device too is the model's reading (log 26). -/
def Obligations.AttenDataIsTheMinimum : Prop :=
  ∀ (s t : State) (d : DevIx), d.val < s.nDev → exec (.devSetAtten d) s = .next t →
    (t.host.result.extractLsb' 0 8).toNat = min (s.engine.larg.toNat % 256) (s.layout d).attenMax.toNat

/-- DEV_SELECT_INPUT of an existing device patches INPUT_REG[f] with INPUT_PAT[f](s), for every way the patch can end (`WriteEnd`), a
selector out of range among them: the status, DATA, ELIDED, the mask, the shadow entry and the trace are that end's, and nothing else
changes (R122, R123, R125, R175, R176). -/
def Obligations.SelectInputPatchesInputReg : Prop :=
  ∀ (s : State) (d : DevIx) (e : WriteEnd) (rest : List ReadAnswer) (wrest : List WriteAnswer), d.val < s.nDev →
    let r := (s.layout d).inputReg
    let q := s.inputRequest d (operandByte s.engine.larg)
    e.fits s d r q → s.env.reads = e.reads q ++ rest → s.env.writes = e.writes ++ wrest →
    exec (.devSelectInput d) s = .next (e.finished s d r q (e.data q) rest wrest)

/-- DEV_SELECT_INPUT with a selector of INPUT_COUNT[f] or more fails with BAD_ARG on every existing device, in every state and with
noI2C, without a transaction (R122, R175, R176). -/
def Obligations.SelectorOutOfRangeIsBadArg : Prop :=
  ∀ (s : State) (d : DevIx), d.val < s.nDev →
    (s.layout d).inputPats.length ≤ (operandByte s.engine.larg).toNat →
    exec (.devSelectInput d) s =
      .next (s.completed (errStatus s .badArg 0#3) 0#32 (primaryBit d) { s.env with trace := [] })

/-! ## Controller commands -/

/-- POWER_ON, in full. From power off: the relay asserted, POWER set, INITIALISED cleared, the timestamp, the two events around the
relay's pin action (none for pin number 255), nothing else. While powered: nothing but the completion (R190, R260, R275). -/
def Obligations.PowerOnPowersUp : Prop :=
  ∀ s : State, (s.ctl.power = true →
      exec .powerOn s = .next (s.completed (okStatus s) 0#32 0#32 { s.env with trace := [] })) ∧ (s.ctl.power = false →
    exec .powerOn s = .next { s with
      status := okStatus s
      engine := { s.engine with fired := 0#10 }
      host := { s.host with
        result := 0#32
        failMask := 0#32
        eventPending := s.host.eventPending ||| (0x003#10 &&& s.host.eventEnable) }
      ctl := { s.ctl with power := true, initialised := false, powerOnTime := s.now, relayOut := true }
      env := { s.env with
        trace := [.ev .beforePowerOn (s.host.eventEnable.getLsbD 0)] ++
          (if s.cfg.relayPin = 255#8 then [] else [.pin .relay true]) ++
          [.ev .afterPowerOn (s.host.eventEnable.getLsbD 1)] } })

/-- POWER_OFF, in full. While off it does nothing but complete. While powered, whatever the bus answers, it first mutes every existing
device as MUTE_ALL does in the same state: its mask is that command's, the devices whose mute failed, and its trace begins with that
command's. Then the reset line, BEFORE, the relay, AFTER; power, relay, reset line and INITIALISED low, LOCK_AGG the sentinel, every
existing device Uninitialised with its shadow invalid; the chip types, AUTOMUTED, ERROR_INITIALISING and both timestamps kept; it
succeeds (R195, R254, R281). -/
def Obligations.PowerOffShutsDown : Prop :=
  ∀ s : State, (s.ctl.power = false →
      exec .powerOff s = .next (s.completed (okStatus s) 0#32 0#32 { s.env with trace := [] })) ∧ (s.ctl.power = true →
    ∃ t m, exec .powerOff s = .next t ∧ exec .muteAll s = .next m ∧ t.status = okStatus s ∧ t.host.result = 0#32 ∧
      t.host.failMask = m.host.failMask ∧ t.host.failMask.extractLsb' 16 16 = 0#16 ∧
      t.host.eventPending = s.host.eventPending ||| (0x00C#10 &&& s.host.eventEnable) ∧
      t.ctl = { s.ctl with
        power := false, initialised := false, prevLock := lockSentinel, relayOut := false, resetOut := false } ∧
      (∀ d : DevIx, d.val < s.nDev → (t.dev d).phase = .uninitialised ∧
        (t.dev d).chipType = (s.dev d).chipType ∧ ∀ q, (t.entry d q).valid = false) ∧
      (∀ d : DevIx, s.nDev ≤ d.val → t.dev d = s.dev d) ∧ CommandFrame s t ∧
      t.env = { m.env with
        trace := m.env.trace ++
          ((if s.cfg.resetPin = 255#8 then [] else [.pin .reset false]) ++
            [.ev .beforePowerOff (s.host.eventEnable.getLsbD 2)] ++
            (if s.cfg.relayPin = 255#8 then [] else [.pin .relay false]) ++
            [.ev .afterPowerOff (s.host.eventEnable.getLsbD 3)]) })

/-- POLL changes nothing but the completion, with POLL_ACTION 0, while the power is off, before the settle delay has elapsed, while a
device is unhealthy after the sequence, and before the sampling interval has elapsed (R200, R271, R304). -/
def Obligations.PollWaits : Prop :=
  ∀ s : State,
    (s.ctl.power = false ∨
      (s.ctl.power = true ∧ s.ctl.initialised = false ∧ (s.now - s.ctl.powerOnTime).toNat < s.cfg.settleDelay.toNat) ∨
      (s.ctl.initialised = true ∧ ∃ d : DevIx, d.val < s.nDev ∧ s.healthy d = false) ∨
      (s.ctl.initialised = true ∧ (s.now - s.ctl.lastPollTime).toNat < s.cfg.sampleInterval.toNat)) →
    exec .poll s = .next (s.completed (okStatus s) 0#32 0#32 { s.env with trace := [] })

/-- POLL at or after the settle delay runs the initialisation sequence, whatever the bus answers: POLL_ACTION 1, INITIALISED set even
when a device failed, the reset line released, ERROR_INITIALISING and PRIMARY exactly the devices left not Initialised, and one of
the two events (R200, R201, R203-R205). The devices, the answers used up and the trace are those of DEV_INIT on every device that is
not Initialised, of DEV_INIT once more on those still not Initialised, and, after the event, of UNMUTE_ALL: its trace is the reset
line, the first attempts, the second attempts, the event, the unmutes, and SECONDARY is the mask of UNMUTE_ALL (R201, R204, R206,
R254). So an existing noI2C device ends Initialised, with NOI2C_CHIP_TYPE where it was not before, and a bus device left not
Initialised had its identification register read at least twice. A device that was Initialised stays so, and only its MUTE_REG entry
can change. -/
def Obligations.PollRunsInitSequence : Prop :=
  ∀ s : State, s.ctl.power = true → s.ctl.initialised = false →
    s.cfg.settleDelay.toNat ≤ (s.now - s.ctl.powerOnTime).toNat →
    let first := initEach s.devices s
    let second := initEach s.devices first.1
    ∃ t u, exec .poll s = .next t ∧ exec .unmuteAll second.1 = .next u ∧ t.status = okStatus s ∧
      t.host.result = 0x00010000#32 ∧
      t.ctl = { s.ctl with
        initialised := true, errorInitialising := !t.initSuccess, resetOut := true } ∧
      (∀ d : DevIx, t.host.failMask.getLsbD d.val = (decide (d.val < s.nDev) && !t.healthy d)) ∧
      (∀ d : DevIx, t.host.failMask.getLsbD (16 + d.val) = u.host.failMask.getLsbD d.val) ∧
      t.devs = u.devs ∧ CommandFrame s t ∧
      t.env = { u.env with
        trace := (if s.cfg.resetPin = 255#8 then [] else [.pin .reset true]) ++ first.2 ++ second.2 ++
          [if t.initSuccess then .ev .initialised (s.host.eventEnable.getLsbD 7)
            else .ev .notInitialised (s.host.eventEnable.getLsbD 8)] ++ u.env.trace } ∧
      t.host.eventPending = s.host.eventPending |||
        ((if t.initSuccess then 0x080#10 else 0x100#10) &&& s.host.eventEnable) ∧
      (t.env.trace.filter Action.isEvent).length = 1 ∧
      (∀ d : DevIx, s.healthy d = true → t.healthy d = true ∧ (t.dev d).chipType = (s.dev d).chipType ∧
        ∀ q, q ≠ (s.layout d).muteReg → t.entry d q = s.entry d q) ∧
      (∀ d : DevIx, s.nDev ≤ d.val → t.dev d = s.dev d) ∧
      (∀ d : DevIx, d.val < s.nDev → (s.devCfg d).noI2C = true → t.healthy d = true ∧
        (s.healthy d = false → (t.dev d).chipType = s.cfg.noI2CChipType)) ∧
      ∀ d : DevIx, d.val < s.nDev → (s.devCfg d).noI2C = false →
        (t.healthy d = false → t.host.failMask.getLsbD (16 + d.val) = true ∧
          2 ≤ (t.env.trace.filter (Action.isReadOf (s.devCfg d).addr (s.layout d).idReg)).length) ∧
        (t.host.failMask.getLsbD (16 + d.val) = false → patTouch (s.layout d).unmutePat ≠ 0#8 →
          (t.entry d (s.layout d).muteReg).valid = true ∧
            overlay (t.entry d (s.layout d).muteReg).val (s.layout d).unmutePat =
              (t.entry d (s.layout d).muteReg).val)

/-- POLL with a sample due, every existing device Initialised, with the answers of the automute reads and then of the lock reads of the
bus devices listed: POLL_ACTION 2, the timestamp, AUTOMUTED the AND of the automute bits, LOCK_AGG the bitmask of the lock bits and the
failed reads, PRIMARY and SECONDARY the failed reads of the two passes; a noI2C device gives NOI2C_READ_VALUE without the bus. The trace
is the reads of AUTOMUTE_REG[f] in index order, the automute event where AUTOMUTED changes, the reads of STATUS_REG[f] in index order,
the lock event where LOCK_AGG changes (R121, R200, R210, R211, R212, R214, R215, R254). -/
def Obligations.PollSamplesEveryDevice : Prop :=
  ∀ (s : State) (am lk : DevIx → ReadAnswer) (rest : List ReadAnswer), s.ctl.power = true → s.ctl.initialised = true →
    (∀ d : DevIx, d.val < s.nDev → s.healthy d = true) →
    s.cfg.sampleInterval.toNat ≤ (s.now - s.ctl.lastPollTime).toNat →
    let onBus := s.devices.filter fun d => !(s.devCfg d).noI2C
    s.env.reads = onBus.map am ++ (onBus.map lk ++ rest) →
    ∃ t, exec .poll s = .next t ∧ t.status = okStatus s ∧ t.host.result = 0x00020000#32 ∧
      t.ctl = { s.ctl with lastPollTime := s.now, automuted := t.ctl.automuted, prevLock := t.ctl.prevLock } ∧
      t.devs = s.devs ∧ CommandFrame s t ∧
      t.env = s.env.after rest s.env.writes
        ((onBus.map fun d => .busRd (s.devCfg d).addr (s.layout d).automuteReg (am d)) ++
          (if t.ctl.automuted = s.ctl.automuted then []
            else [.ev .automuteChanged (s.host.eventEnable.getLsbD 9)]) ++
          (onBus.map fun d => .busRd (s.devCfg d).addr (s.layout d).statusReg (lk d)) ++
          (if t.ctl.prevLock = s.ctl.prevLock then []
            else [.ev (lockEvent s.nDev t.ctl.prevLock)
              (s.host.eventEnable.getLsbD (eventNumber (lockEvent s.nDev t.ctl.prevLock)))])) ∧
      (t.ctl.automuted = true ↔ ∀ d : DevIx, d.val < s.nDev →
        ∃ b, s.statusByte d (am d) = some b ∧ b.getLsbD (s.layout d).automuteBit.val = true) ∧
      (∀ i, 2 * s.nDev ≤ i → t.ctl.prevLock.getLsbD i = false) ∧
      ∀ d : DevIx, d.val < s.nDev →
        (t.ctl.prevLock.getLsbD d.val = true ↔ ∃ b, s.statusByte d (lk d) = some b ∧ b.getLsbD 0 = true) ∧
        (t.ctl.prevLock.getLsbD (d.val + s.nDev) = true ↔ s.statusByte d (lk d) = none) ∧
        (t.host.failMask.getLsbD d.val = true ↔ s.statusByte d (am d) = none) ∧
        (t.host.failMask.getLsbD (16 + d.val) = true ↔ s.statusByte d (lk d) = none)

/-- The edge detectors (R212, R215, R216, R219): a sampling POLL fires AUTOMUTE_CHANGED exactly when AUTOMUTED changes and, when
LOCK_AGG changes, the one lock-class event of its new value; it fires no other event. The kinds have the numbers of R261. -/
def Obligations.SampleFiresOnChangeOnly : Prop :=
  ([.beforePowerOn, .afterPowerOn, .beforePowerOff, .afterPowerOff, .lock, .noLock, .lockReadError, .initialised,
    .notInitialised, .automuteChanged] : List EventKind).map eventNumber = [0, 1, 2, 3, 4, 5, 6, 7, 8, 9] ∧
  ∀ s t : State, s.ctl.power = true → s.ctl.initialised = true → s.initSuccess = true →
    s.cfg.sampleInterval.toNat ≤ (s.now - s.ctl.lastPollTime).toNat → exec .poll s = .next t →
    t.env.trace.filter Action.isEvent =
      (if t.ctl.automuted = s.ctl.automuted then []
        else [.ev .automuteChanged (s.host.eventEnable.getLsbD 9)]) ++
      (if t.ctl.prevLock = s.ctl.prevLock then []
        else [.ev (lockEvent s.nDev t.ctl.prevLock)
          (s.host.eventEnable.getLsbD (eventNumber (lockEvent s.nDev t.ctl.prevLock)))])

/-- The three lock classes (R216): for a bitmask of n ≤ 16 devices with nothing above its 2n bits and never both bits of a device,
LOCK says every device locked, NO_LOCK no failed read but some device unlocked, LOCK_READ_ERROR some failed read. -/
def Obligations.LockClassesPartition : Prop :=
  ∀ (n : Nat) (l : Word), 1 ≤ n → n ≤ 16 → (∀ i, 2 * n ≤ i → l.getLsbD i = false) →
    (∀ i, i < n → (l.getLsbD i && l.getLsbD (i + n)) = false) →
    (lockEvent n l = .lock ↔ ∀ i, i < n → l.getLsbD i = true) ∧
    (lockEvent n l = .noLock ↔ (∀ i, i < n → l.getLsbD (i + n) = false) ∧ ∃ i, i < n ∧ l.getLsbD i = false) ∧
    (lockEvent n l = .lockReadError ↔ ∃ i, i < n ∧ l.getLsbD (i + n) = true)

/-- No computed lock aggregate is the sentinel: no device has both of its bits, bit i and bit i + N_DEV, so bit 0 and bit N_DEV are
never both 1 (R35, R214). -/
def Obligations.LockAggregateIsNeverSentinel : Prop :=
  ∀ s : State, (lockAggregate s.devices s).2.1 ≠ lockSentinel ∧
    ∀ i, i < s.nDev → ((lockAggregate s.devices s).2.1.getLsbD i &&
      (lockAggregate s.devices s).2.1.getLsbD (i + s.nDev)) = false

/-- POWER_ON, POWER_OFF, POWER_ON leaves INITIALISED 0 and STATE 2, whatever came before and whatever the bus answers (R240). -/
def Obligations.PowerCycleReentersInitialising : Prop :=
  ∀ s a b c : State, exec .powerOn s = .next a → exec .powerOff a = .next b → exec .powerOn b = .next c →
    c.ctl.initialised = false ∧ c.stateCode = 2#3 ∧ c.ctl.powerOnTime = s.now

/-- A broadcast command completes with OK when its fail mask is 0 and with DEV_FAIL otherwise, RESULT 0, in the mask PRIMARY bits of
existing devices alone, never a noI2C device's but for a selector out of range; the controller, the events, every device state, every
chip type and every slot past N_DEV stay (R122, R230, R232, R234, R236, R253, R254). -/
def Obligations.BroadcastReportsFailedDevices : Prop :=
  ∀ (i : Instr) (s : State), isBroadcast i = true →
    ∃ t, exec i s = .next t ∧ CommandFrame s t ∧ t.host.result = 0#32 ∧
      t.status = (if t.host.failMask = 0#32 then okStatus s else errStatus s .devFail 0#3) ∧
      (∀ n, s.nDev ≤ n → t.host.failMask.getLsbD n = false) ∧
      (∀ d : DevIx, (s.devCfg d).noI2C = true →
        (i = .selectInputAll → (operandByte s.engine.larg).toNat < (s.layout d).inputPats.length) →
        t.host.failMask.getLsbD d.val = false) ∧ t.ctl = s.ctl ∧
      t.host.eventPending = s.host.eventPending ∧ (∀ a ∈ t.env.trace, a.isBus = true) ∧
      ∀ d : DevIx, (t.dev d).phase = (s.dev d).phase ∧ (t.dev d).chipType = (s.dev d).chipType ∧
        (s.nDev ≤ d.val → t.dev d = s.dev d)

/-- SET_ATTEN_ALL asks for the clamped value of its own family in ATTEN_REG[f] of every existing device (`Broadcasts`: for every way each
write can end, the marked devices are exactly the failed ones). Whatever the bus answers, a bus device that is not Initialised is marked
failed, and in one that is not marked the value is known to stand there; no other shadow entry changes (R230, R241). -/
def Obligations.SetAttenAllReachesEveryDevice : Prop :=
  ∀ s : State, ∃ t, exec .setAttenAll s = .next t ∧
    s.Broadcasts (fun d => (s.layout d).attenReg)
      (fun d => .byte (clampAtten (operandByte s.engine.larg) (s.layout d).attenMax)) t ∧
    (∀ (d : DevIx) (q : RegAddr), q ≠ (s.layout d).attenReg → t.entry d q = s.entry d q) ∧
    ∀ d : DevIx, d.val < s.nDev → (s.devCfg d).noI2C = false →
    (s.healthy d = false → t.host.failMask.getLsbD d.val = true) ∧
    (t.host.failMask.getLsbD d.val = false → t.entry d (s.layout d).attenReg =
      { val := clampAtten (operandByte s.engine.larg) (s.layout d).attenMax, valid := true })

/-- MUTE_ALL and UNMUTE_ALL patch MUTE_REG[f] of every existing device (`Broadcasts`: for every way each patch can end, the marked
devices are exactly the failed ones). Whatever the bus answers, a bus device that is not Initialised is marked failed, and in one that is
not marked MUTE_REG[f] is known to hold a byte that has the pattern's bits; no other shadow entry changes (R232, R234, R241). -/
def Obligations.MuteAllReachesEveryDevice : Prop :=
  ∀ s : State,
    (∃ t, exec .muteAll s = .next t ∧
      s.Broadcasts (fun d => (s.layout d).muteReg) (fun d => .patch (s.layout d).mutePat) t ∧
      (∀ (d : DevIx) (q : RegAddr), q ≠ (s.layout d).muteReg → t.entry d q = s.entry d q) ∧
      ∀ d : DevIx, d.val < s.nDev → (s.devCfg d).noI2C = false →
      (s.healthy d = false → t.host.failMask.getLsbD d.val = true) ∧
      (t.host.failMask.getLsbD d.val = false → patTouch (s.layout d).mutePat ≠ 0#8 →
        (t.entry d (s.layout d).muteReg).valid = true ∧
          overlay (t.entry d (s.layout d).muteReg).val (s.layout d).mutePat = (t.entry d (s.layout d).muteReg).val)) ∧
    (∃ t, exec .unmuteAll s = .next t ∧
      s.Broadcasts (fun d => (s.layout d).muteReg) (fun d => .patch (s.layout d).unmutePat) t ∧
      (∀ (d : DevIx) (q : RegAddr), q ≠ (s.layout d).muteReg → t.entry d q = s.entry d q) ∧
      ∀ d : DevIx, d.val < s.nDev → (s.devCfg d).noI2C = false →
      (s.healthy d = false → t.host.failMask.getLsbD d.val = true) ∧
      (t.host.failMask.getLsbD d.val = false → patTouch (s.layout d).unmutePat ≠ 0#8 →
        (t.entry d (s.layout d).muteReg).valid = true ∧
          overlay (t.entry d (s.layout d).muteReg).val (s.layout d).unmutePat = (t.entry d (s.layout d).muteReg).val))

/-- SELECT_INPUT_ALL patches INPUT_REG[f] of every existing device with its own family's pattern (`Broadcasts`: for every way each patch
can end, the marked devices are exactly the failed ones). Whatever the bus answers, a device whose family lacks the selector is marked
failed, a bus device that is not Initialised too, and in a bus device that is not marked INPUT_REG[f] is known to hold a byte that has
the pattern's bits; no other shadow entry changes (R236, R241). -/
def Obligations.SelectInputAllReachesEveryDevice : Prop :=
  ∀ s : State, ∃ t, exec .selectInputAll s = .next t ∧
    s.Broadcasts (fun d => (s.layout d).inputReg) (fun d => s.inputRequest d (operandByte s.engine.larg)) t ∧
    (∀ (d : DevIx) (q : RegAddr), q ≠ (s.layout d).inputReg → t.entry d q = s.entry d q) ∧
    ∀ d : DevIx, d.val < s.nDev →
    ((s.layout d).inputPats.length ≤ (operandByte s.engine.larg).toNat → t.host.failMask.getLsbD d.val = true) ∧
    ((s.devCfg d).noI2C = false → s.healthy d = false → t.host.failMask.getLsbD d.val = true) ∧
    ∀ p : Pattern, (s.layout d).inputPats[(operandByte s.engine.larg).toNat]? = some p →
      (s.devCfg d).noI2C = false → t.host.failMask.getLsbD d.val = false → patTouch p ≠ 0#8 →
      (t.entry d (s.layout d).inputReg).valid = true ∧
        overlay (t.entry d (s.layout d).inputReg).val p = (t.entry d (s.layout d).inputReg).val

/-! ## Host, Timer, Reset -/

/-- A host write to CMD (R63): idle, it latches the word, ARG and power, clears DONE, OK, ERR and BUSCODE and sets BUSY; busy, it is
dropped and sets OVERRUN. -/
def Obligations.CmdWriteLaunchesOrOverruns : Prop :=
  ∀ (s : State) (w : Word),
    (s.status.busy = false → hostWriteStep 4 0x00 w s = .next { s with
      engine := { s.engine with lcmd := w, larg := s.host.arg, lpow := s.ctl.power }
      status := { busy := true, done := false, ok := false, overrun := s.status.overrun, err := .noErr, buscode := 0#3 } }) ∧
    (s.status.busy = true → hostWriteStep 4 0x00 w s = .next { s with status := { s.status with overrun := true } })

/-- Host writes to the other writable registers (R23, R24, R28, R62, R264): ARG stores, EVENT_ENABLE stores bits [9:0], bit 3 of
STATUS and the bits of EVENT_PENDING are cleared by writing 1. -/
def Obligations.WritableRegistersTakeTheirBits : Prop :=
  ∀ (s : State) (v : Word),
    hostWriteStep 4 0x04 v s = .next { s with host := { s.host with arg := v } } ∧
    hostWriteStep 4 0x08 v s =
      .next { s with status := { s.status with overrun := s.status.overrun && !v.getLsbD 3 } } ∧
    (∃ t, hostWriteStep 4 0x18 v s = .next t ∧ t = { s with host := { s.host with eventEnable := t.host.eventEnable } } ∧
      ∀ k, k < 10 → t.host.eventEnable.getLsbD k = v.getLsbD k) ∧
    (∃ t, hostWriteStep 4 0x1C v s = .next t ∧ t = { s with host := { s.host with eventPending := t.host.eventPending } } ∧
      ∀ k, k < 10 → t.host.eventPending.getLsbD k = (s.host.eventPending.getLsbD k && !v.getLsbD k))

/-- Writes to read-only and reserved offsets are ignored; reserved offsets read 0 (R38, R61). -/
def Obligations.ReadOnlyRegistersIgnoreWrites : Prop :=
  ∀ (s : State) (v : Word),
    (∀ off, off ∈ [0x0C, 0x10, 0x14, 0x20, 0x24, 0x28, 0x2C, 0x30, 0x34, 0x38, 0x3C] →
      hostWriteStep 4 off v s = .next s) ∧ hostReadWord s 0x38 = 0#32 ∧ hostReadWord s 0x3C = 0#32

/-- The accesses R60 admits complete; another width or alignment is refused, and an aligned word outside the 64 bytes faults (the
model's reading, log 13). A read has no effect on the block (R60, R62); the word it returns stands in the model's own `readData` (log
10). In every state, busy or not (log 27), CMD reads as LCMD, and ARG, RESULT, LOCK_AGG, EVENT_ENABLE, EVENT_PENDING, NOW,
POWER_ON_TIME, LAST_POLL_TIME and DEV_FAIL_MASK read as their registers, the two event sets with zeros above their ten bits (R22, R23,
R25, R27-R32, R37). -/
def Obligations.HostAccessesAreWholeAlignedWords : Prop :=
  (∀ s : State, hostReadWord s 0x00 = s.engine.lcmd ∧ hostReadWord s 0x04 = s.host.arg ∧
    hostReadWord s 0x0C = s.host.result ∧ hostReadWord s 0x14 = s.ctl.prevLock ∧
    hostReadWord s 0x18 = s.host.eventEnable.setWidth 32 ∧ hostReadWord s 0x1C = s.host.eventPending.setWidth 32 ∧
    hostReadWord s 0x20 = s.now ∧ hostReadWord s 0x24 = s.ctl.powerOnTime ∧
    hostReadWord s 0x28 = s.ctl.lastPollTime ∧ hostReadWord s 0x34 = s.host.failMask) ∧
  ∀ (s : State) (width off : Nat) (v : Word),
    (width = 4 → off % 4 = 0 → off < 64 →
      hostReadStep width off s = .next { s with env := { s.env with readData := hostReadWord s off } } ∧
        ∃ t, hostWriteStep width off v s = .next t) ∧
    (width ≠ 4 → hostReadStep width off s = .refused .hostAccessWidth ∧
      hostWriteStep width off v s = .refused .hostAccessWidth) ∧
    (width = 4 → off % 4 ≠ 0 → hostReadStep width off s = .refused .hostAccessMisaligned ∧
      hostWriteStep width off v s = .refused .hostAccessMisaligned) ∧
    (width = 4 → off % 4 = 0 → 64 ≤ off → hostReadStep width off s = .fault .outsideHostSpace ∧
      hostWriteStep width off v s = .fault .outsideHostSpace)

/-- The bits of STATUS (R24), with IRQ = 1 exactly when an event is pending (R262), the numbers of the error codes (R251) and of the bus
codes (R65). -/
def Obligations.StatusWordLayout : Prop :=
  ([.noErr, .badCmd, .badDev, .badArg, .badPattern, .notInit, .bus, .timeout, .verify, .idUnknown, .devFail] :
    List CmdErr).map errCode = [0#4, 1#4, 2#4, 3#4, 4#4, 5#4, 6#4, 7#4, 8#4, 9#4, 10#4] ∧
  ([.bufferOverflow, .addrNack, .dataNack, .other] : List BusError).map busErrorCode = [1#3, 2#3, 3#3, 4#3] ∧
  ∀ s : State, hostReadWord s 0x08 = s.statusWord ∧ s.statusWord.getLsbD 0 = s.status.busy ∧
    s.statusWord.getLsbD 1 = s.status.done ∧ s.statusWord.getLsbD 2 = s.status.ok ∧
    s.statusWord.getLsbD 3 = s.status.overrun ∧ s.statusWord.extractLsb' 4 4 = errCode s.status.err ∧
    s.statusWord.extractLsb' 8 3 = s.status.buscode ∧
    (s.statusWord.getLsbD 11 = true ↔ s.host.eventPending ≠ 0#10) ∧ s.statusWord.extractLsb' 12 20 = 0#20

/-- The bits of CTRL_STATUS, its reserved ones 0, of DEV_STATE and of DEV_CHIPTYPE (R26, R33, R34, R36), and STATE (R45): 1 while
POWER_ON runs that was launched with the power off, 4 while POWER_OFF runs that was launched with it on, else by POWER and INITIALISED.
That the latched command is POWER_ON or POWER_OFF exactly when LCMD is 0x00000010 or 0x00000011 is the model's reading (log 17). -/
def Obligations.ControllerAndDeviceWordsLayout : Prop :=
  ∀ s : State, let c := hostReadWord s 0x10
    (c.getLsbD 0 = s.ctl.power ∧ c.getLsbD 1 = s.ctl.initialised ∧ c.getLsbD 2 = s.ctl.errorInitialising ∧
      (c.getLsbD 3 = true ↔ ∀ d : DevIx, d.val < s.nDev → (s.dev d).phase = .initialised) ∧
      c.getLsbD 4 = s.ctl.automuted ∧ c.getLsbD 5 = s.ctl.relayOut ∧ c.getLsbD 6 = s.ctl.resetOut ∧
      c.getLsbD 7 = false ∧ c.extractLsb' 11 5 = 0#5 ∧ c.extractLsb' 21 11 = 0#11 ∧
      (s.status.busy = true → s.engine.lcmd = 0x00000010#32 → s.engine.lpow = false → c.extractLsb' 8 3 = 1#3) ∧
      (s.status.busy = true → s.engine.lcmd = 0x00000011#32 → s.engine.lpow = true → c.extractLsb' 8 3 = 4#3) ∧
      ((s.status.busy = true → ¬(s.engine.lcmd = 0x00000010#32 ∧ s.engine.lpow = false) ∧
          ¬(s.engine.lcmd = 0x00000011#32 ∧ s.engine.lpow = true)) → c.extractLsb' 8 3 =
        if s.ctl.power = false then 0#3 else if s.ctl.initialised = false then 2#3 else 3#3) ∧
      (c.extractLsb' 16 5).toNat = s.nDev) ∧
    ∀ d : DevIx,
      ((hostReadWord s 0x2C).getLsbD d.val = true ↔ d.val < s.nDev ∧ (s.dev d).phase = .initialised) ∧
      ((hostReadWord s 0x2C).getLsbD (16 + d.val) = true ↔ d.val < s.nDev ∧ (s.devCfg d).noI2C = true) ∧
      (hostReadWord s 0x30).extractLsb' (2 * d.val) 2 = if d.val < s.nDev then (s.dev d).chipType else 0#2

/-- Tick (R270): NOW advances by one modulo 2^32 and nothing else changes. -/
def Obligations.TickAdvancesNow : Prop :=
  ∀ s : State, ∃ t, agentStep .tick s = .next t ∧ t.now.toNat = (s.now.toNat + 1) % 2 ^ 32 ∧ t = { s with now := t.now }

/-- The Reset step (R290), at any moment, busy or not: every register to its reset value, every device Uninitialised with chip type 0
and an invalid shadow, no transaction and no trace action, the configuration kept. -/
def Obligations.ResetStepRestoresResetValues : Prop :=
  ∀ s : State, ∃ t, agentStep .reset s = .next t ∧ t.board = s.board ∧
    t.status = { busy := false, done := false, ok := false, overrun := false, err := .noErr, buscode := 0#3 } ∧
    t.host = { arg := 0#32, result := 0#32, eventEnable := 0#10, eventPending := 0#10, failMask := 0#32 } ∧
    t.engine.lcmd = 0#32 ∧ t.engine.larg = 0#32 ∧ t.engine.lpow = false ∧ t.now = 0#32 ∧
    t.ctl = {
      power := false, initialised := false, errorInitialising := false, automuted := false, powerOnTime := 0#32,
      lastPollTime := 0#32, prevLock := 0xFFFFFFFF#32, relayOut := false, resetOut := false } ∧
    (∀ d : DevIx, (t.dev d).phase = .uninitialised ∧ (t.dev d).chipType = 0#2 ∧ ∀ q, (t.entry d q).valid = false) ∧
    t.env = s.env

/-- What the host reads right after reset, for every configuration (10_state.md section 6, R292): 0 everywhere, but N_DEV in
CTRL_STATUS, the sentinel in LOCK_AGG and the noI2C flags in DEV_STATE. -/
def Obligations.ResetReadsAsTheTableSays : Prop :=
  ∀ b : Board, let s := State.resetWith b
    (∀ off, off ∈ [0x00, 0x04, 0x08, 0x0C, 0x18, 0x1C, 0x20, 0x24, 0x28, 0x30, 0x34, 0x38, 0x3C] →
      hostReadWord s off = 0#32) ∧
    hostReadWord s 0x10 = BitVec.ofNat 32 b.cfg.nDev <<< 16 ∧ hostReadWord s 0x14 = 0xFFFFFFFF#32 ∧
    (∀ d : DevIx, (hostReadWord s 0x2C).getLsbD d.val = false ∧
      (hostReadWord s 0x2C).getLsbD (16 + d.val) = (decide (d.val < b.cfg.nDev) && b.cfg.devs[d].noI2C)) ∧
    s.irq = false

/-- Reset is released with a well-formed configuration, and then leaves the reset state of that configuration; it is refused with any
other (R294, 92_eei_decisions.md D48). Well-formed: 1..16 devices, the bus devices at distinct addresses, every configured pattern
valid, ID_MAP into 0, 1, 2, 1..256 inputs (R6), NOI2C_CHIP_TYPE 1 or 2; the widths are the types'. The last condition, that the mode and
the phase of every existing device have a pattern, is the model's (log 5), and so is the release itself (log 4). -/
def Obligations.IllFormedConfigIsRefused : Prop :=
  ∀ c : Cfg,
    let layoutGood (l : Layout) : Prop :=
      patValid l.mutePat = true ∧ patValid l.unmutePat = true ∧ (∀ p ∈ l.inputPats, patValid p = true) ∧
        (∀ p ∈ l.modePats, patValid p = true) ∧ (∀ p ∈ l.phasePats, patValid p = true) ∧
        (∀ e ∈ l.idMap, e.2 ≠ 3#2) ∧ 1 ≤ l.inputPats.length ∧ l.inputPats.length ≤ 256
    let good : Prop :=
      1 ≤ c.nDev ∧ c.nDev ≤ 16 ∧
        (∀ d e : DevIx, d.val < c.nDev → e.val < c.nDev → d ≠ e → c.devs[d].noI2C = false → c.devs[e].noI2C = false →
          c.devs[d].addr ≠ c.devs[e].addr) ∧
        layoutGood c.f18 ∧ layoutGood c.f28 ∧ (c.noI2CChipType = 1#2 ∨ c.noI2CChipType = 2#2) ∧
        ∀ d : DevIx, d.val < c.nDev → c.devs[d].mode < (c.layout c.devs[d].family).modePats.length ∧
          c.devs[d].phase < (c.layout c.devs[d].family).phasePats.length
    (good → ∃ b : Board, b.cfg = c ∧ State.release c = .next (State.resetWith b)) ∧
      (¬good → State.release c = .refused .illFormedConfig)

/-! ## Invariants -/

/-- The block right after reset meets its invariant, with every configuration. -/
def Obligations.ResetMeetsInvariant : Prop := ∀ b : Board, (State.resetWith b).Inv

/-- Every step of every agent keeps the invariant of the block, whatever the bus answers. -/
def Obligations.StepKeepsInvariant : Prop := ∀ s t : State, s.Inv → step s = .next t → t.Inv
end

