-- ==== Sys2Proof/Laws/Agents.lean ====
section
/-! SUPPORT. The steps of the agents while the Engine is busy, and that its turn comes (R5, R66). -/

namespace Sys2Proof.Machine

/-- The agent actions to come up to the end of the list, or of the free round that begins (log 1). -/
def State.turns (s : State) : List Config.AgentAction :=
  match s.env.schedule with
  | a :: rest => a :: rest
  | [] => freeTurns s.env.turn

/-- The next action and the state after it, whether listed or free. -/
theorem turns_next (s : State) {a : Config.AgentAction} {rest : List Config.AgentAction} (h : s.turns = a :: rest) :
    nextAction s = a ∧ (afterAction s).env.schedule = rest ∧ (afterAction s).status = s.status ∧
      (afterAction s).engine = s.engine := by
  unfold nextAction afterAction
  cases hs : s.env.schedule with
  | cons b bs =>
    rw [State.turns, hs] at h
    cases h
    exact ⟨rfl, rfl, rfl, rfl⟩
  | nil =>
    rw [State.turns, hs] at h
    refine ⟨?_, ?_, rfl, rfl⟩
    · show (freeTurns s.env.turn).headD .engine = a
      rw [show freeTurns s.env.turn = a :: rest from h]; rfl
    · show (freeTurns s.env.turn).tail = rest
      rw [show freeTurns s.env.turn = a :: rest from h]; rfl

/-- What a checked host access can answer (R60). -/
theorem checkedAccess_cases (width off : Nat) (s : State) : checkedAccess width off s = .next s ∨
    (∃ r, checkedAccess width off s = .refused r) ∨ ∃ r, checkedAccess width off s = .fault r := by
  unfold checkedAccess
  split
  · exact .inr (.inl ⟨_, rfl⟩)
  · split
    · exact .inr (.inl ⟨_, rfl⟩)
    · split
      · exact .inr (.inr ⟨_, rfl⟩)
      · exact .inl rfl

/-- A host write to a busy block leaves the latches, BUSY and the schedule (R63). -/
theorem hostWriteWord_busy (off : Nat) (v : Word) {s : State} (hb : s.status.busy = true) :
    (hostWriteWord off v s).status.busy = true ∧ (hostWriteWord off v s).engine = s.engine ∧
      (hostWriteWord off v s).env = s.env := by
  unfold hostWriteWord
  split
  · next x _ => cases x <;> simp [writeHostReg, writeCmd, hb]
  · exact ⟨hb, rfl, rfl⟩

/-- The step of an agent that is neither the Engine nor Reset, on a busy block: it stops the run, or the command stays latched. -/
theorem agentStep_waits {a : Config.AgentAction} {s : State} (hb : s.status.busy = true) (he : a ≠ .engine) (hr : a ≠ .reset) :
    (∃ t, agentStep a s = .next t ∧ t.status.busy = true ∧ t.engine = s.engine ∧ t.env.schedule = s.env.schedule) ∨
      (∃ r, agentStep a s = .refused r) ∨ ∃ r, agentStep a s = .fault r := by
  cases a with
  | engine => exact absurd rfl he
  | reset => exact absurd rfl hr
  | tick => exact .inl ⟨_, rfl, hb, rfl, rfl⟩
  | hostRead width off =>
    rcases checkedAccess_cases width off { s with env := { s.env with readData := hostReadWord s off } } with h | h
    · exact .inl ⟨_, h, hb, rfl, rfl⟩
    · exact .inr h
  | hostWrite width off v =>
    rcases checkedAccess_cases width off (hostWriteWord off v s) with h | h
    · obtain ⟨h1, h2, h3⟩ := hostWriteWord_busy off v hb
      exact .inl ⟨_, h, h1, h2, by rw [h3]⟩
    · exact .inr h

/-- The runs from a busy block that reach the turn of the Engine or of Reset with the command latched, or stop. -/
def State.GetsATurn (s : State) : Prop :=
  ∃ n, (∃ u, runSteps n s = .next u ∧ u.status.busy = true ∧ u.engine = s.engine ∧
      (nextAction u = .engine ∨ nextAction u = .reset)) ∨
    (∃ r, runSteps n s = .refused r) ∨ ∃ r, runSteps n s = .fault r

/-- One more step before the turn. -/
theorem getsATurn_of_step {s t : State} (hs : step s = .next t) (he : t.engine = s.engine) (h : t.GetsATurn) :
    s.GetsATurn := by
  obtain ⟨n, h⟩ := h
  refine ⟨n + 1, ?_⟩
  have hr : runSteps (n + 1) s = runSteps n t := by rw [runSteps, hs]
  rw [hr]
  exact h.imp_left fun ⟨u, h1, h2, h3, h4⟩ => ⟨u, h1, h2, h3.trans he, h4⟩

/-- The turn of the first agent to come, and the turns after it. -/
theorem getsATurn_of_rest {s : State} {a : Config.AgentAction} {rest : List Config.AgentAction} (hb : s.status.busy = true)
    (hl : s.turns = a :: rest)
    (ih : a ≠ .engine → ∀ t : State, t.status.busy = true → t.env.schedule = rest → t.GetsATurn) : s.GetsATurn := by
  obtain ⟨h1, h2, h3, h4⟩ := turns_next s hl
  by_cases he : a = .engine
  · exact ⟨0, .inl ⟨s, rfl, hb, rfl, .inl (h1.trans he)⟩⟩
  by_cases hr : a = .reset
  · exact ⟨0, .inl ⟨s, rfl, hb, rfl, .inr (h1.trans hr)⟩⟩
  have hst : step s = agentStep a (afterAction s) := by rw [step, h1]
  rcases agentStep_waits (s := afterAction s) (by rw [h3]; exact hb) he hr with ⟨t, k1, k2, k3, k4⟩ | ⟨r, k⟩ | ⟨r, k⟩
  · exact getsATurn_of_step (hst.trans k1) (k3.trans h4) (ih he t k2 (k4.trans h2))
  · exact ⟨1, .inr (.inl ⟨r, by rw [runSteps, hst, k]⟩)⟩
  · exact ⟨1, .inr (.inr ⟨r, by rw [runSteps, hst, k]⟩)⟩

/-- Where the turns to come hold one of the Engine, it comes. -/
theorem getsATurn_of_mem : ∀ (l : List Config.AgentAction) {s : State}, s.status.busy = true → s.turns = l →
    Config.AgentAction.engine ∈ l → s.GetsATurn
  | [], _, _, _, hm => by simp at hm
  | a :: rest, _, hb, hl, hm => getsATurn_of_rest hb hl fun he t k1 k2 => by
    have hm := (List.mem_cons.mp hm).resolve_left (Ne.symm he)
    obtain ⟨b, bs, h⟩ := List.exists_cons_of_ne_nil (List.ne_nil_of_mem hm)
    exact getsATurn_of_mem rest k1 (by unfold State.turns; rw [k2, h]) hm

/-- The Engine's turn comes, whatever is listed: once the list is used up, a free round ends with it (R5, 92_eei_decisions.md D63). -/
theorem getsATurn : ∀ (l : List Config.AgentAction) {s : State}, s.status.busy = true → s.env.schedule = l → s.GetsATurn
  | [], _, hb, h => getsATurn_of_mem _ hb rfl (by simp [State.turns, h, freeTurns])
  | a :: rest, _, hb, h => getsATurn_of_rest hb (by unfold State.turns; rw [h]) fun _ _ k1 k2 => getsATurn rest k1 k2

end Sys2Proof.Machine
end

