-- ==== Sys2Proof/Laws/State.lean ====
section
/-! SUPPORT. One lemma per field per update of State, and the accessors after each update. -/

namespace Sys2Proof.Machine

/-! ## Plain record updates -/
@[simp] theorem State.setDev_board (s : State) (d : DevIx) (x : Device) : (s.setDev d x).board = s.board := rfl
@[simp] theorem State.setDev_status (s : State) (d : DevIx) (x : Device) : (s.setDev d x).status = s.status := rfl
@[simp] theorem State.setDev_engine (s : State) (d : DevIx) (x : Device) : (s.setDev d x).engine = s.engine := rfl
@[simp] theorem State.setDev_host (s : State) (d : DevIx) (x : Device) : (s.setDev d x).host = s.host := rfl
@[simp] theorem State.setDev_ctl (s : State) (d : DevIx) (x : Device) : (s.setDev d x).ctl = s.ctl := rfl
@[simp] theorem State.setDev_now (s : State) (d : DevIx) (x : Device) : (s.setDev d x).now = s.now := rfl
@[simp] theorem State.setDev_env (s : State) (d : DevIx) (x : Device) : (s.setDev d x).env = s.env := rfl

@[simp] theorem State.record_board (s : State) (a : Action) : (s.record a).board = s.board := rfl
@[simp] theorem State.record_status (s : State) (a : Action) : (s.record a).status = s.status := rfl
@[simp] theorem State.record_engine (s : State) (a : Action) : (s.record a).engine = s.engine := rfl
@[simp] theorem State.record_host (s : State) (a : Action) : (s.record a).host = s.host := rfl
@[simp] theorem State.record_ctl (s : State) (a : Action) : (s.record a).ctl = s.ctl := rfl
@[simp] theorem State.record_now (s : State) (a : Action) : (s.record a).now = s.now := rfl
@[simp] theorem State.record_devs (s : State) (a : Action) : (s.record a).devs = s.devs := rfl

@[simp] theorem State.emit_board (s : State) (k : EventKind) : (s.emit k).board = s.board := rfl
@[simp] theorem State.emit_status (s : State) (k : EventKind) : (s.emit k).status = s.status := rfl
@[simp] theorem State.emit_host (s : State) (k : EventKind) : (s.emit k).host = s.host := rfl
@[simp] theorem State.emit_ctl (s : State) (k : EventKind) : (s.emit k).ctl = s.ctl := rfl
@[simp] theorem State.emit_now (s : State) (k : EventKind) : (s.emit k).now = s.now := rfl
@[simp] theorem State.emit_devs (s : State) (k : EventKind) : (s.emit k).devs = s.devs := rfl

@[simp] theorem beginStep_board (s : State) : (beginStep s).board = s.board := rfl
@[simp] theorem beginStep_status (s : State) : (beginStep s).status = s.status := rfl
@[simp] theorem beginStep_host (s : State) : (beginStep s).host = s.host := rfl
@[simp] theorem beginStep_ctl (s : State) : (beginStep s).ctl = s.ctl := rfl
@[simp] theorem beginStep_now (s : State) : (beginStep s).now = s.now := rfl
@[simp] theorem beginStep_devs (s : State) : (beginStep s).devs = s.devs := rfl

@[simp] theorem finish_board (rep : Report) (res : CmdResult) (pf sf : DevMask) (s : State) : (finish rep res pf sf s).board = s.board := rfl
@[simp] theorem finish_ctl (rep : Report) (res : CmdResult) (pf sf : DevMask) (s : State) : (finish rep res pf sf s).ctl = s.ctl := rfl
@[simp] theorem finish_now (rep : Report) (res : CmdResult) (pf sf : DevMask) (s : State) : (finish rep res pf sf s).now = s.now := rfl
@[simp] theorem finish_devs (rep : Report) (res : CmdResult) (pf sf : DevMask) (s : State) : (finish rep res pf sf s).devs = s.devs := rfl
@[simp] theorem finish_env (rep : Report) (res : CmdResult) (pf sf : DevMask) (s : State) : (finish rep res pf sf s).env = s.env := rfl

@[simp] theorem launch_board (w : Word) (s : State) : (launch w s).board = s.board := rfl
@[simp] theorem launch_host (w : Word) (s : State) : (launch w s).host = s.host := rfl
@[simp] theorem launch_ctl (w : Word) (s : State) : (launch w s).ctl = s.ctl := rfl
@[simp] theorem launch_now (w : Word) (s : State) : (launch w s).now = s.now := rfl
@[simp] theorem launch_devs (w : Word) (s : State) : (launch w s).devs = s.devs := rfl
@[simp] theorem launch_env (w : Word) (s : State) : (launch w s).env = s.env := rfl

@[simp] theorem tick_board (s : State) : (tick s).board = s.board := rfl
@[simp] theorem tick_status (s : State) : (tick s).status = s.status := rfl
@[simp] theorem tick_engine (s : State) : (tick s).engine = s.engine := rfl
@[simp] theorem tick_host (s : State) : (tick s).host = s.host := rfl
@[simp] theorem tick_ctl (s : State) : (tick s).ctl = s.ctl := rfl
@[simp] theorem tick_devs (s : State) : (tick s).devs = s.devs := rfl
@[simp] theorem tick_env (s : State) : (tick s).env = s.env := rfl

@[simp] theorem placeCommand_board (w : Word) (s : State) : (placeCommand w s).board = s.board := rfl
@[simp] theorem placeCommand_host (w : Word) (s : State) : (placeCommand w s).host = s.host := rfl
@[simp] theorem placeCommand_ctl (w : Word) (s : State) : (placeCommand w s).ctl = s.ctl := rfl
@[simp] theorem placeCommand_now (w : Word) (s : State) : (placeCommand w s).now = s.now := rfl
@[simp] theorem placeCommand_devs (w : Word) (s : State) : (placeCommand w s).devs = s.devs := rfl

@[simp] theorem State.setLevel_board (s : State) (p : OutPin) (lv : Bool) : (s.setLevel p lv).board = s.board := by
  cases p <;> rfl
@[simp] theorem State.setLevel_status (s : State) (p : OutPin) (lv : Bool) : (s.setLevel p lv).status = s.status := by
  cases p <;> rfl
@[simp] theorem State.setLevel_engine (s : State) (p : OutPin) (lv : Bool) : (s.setLevel p lv).engine = s.engine := by
  cases p <;> rfl
@[simp] theorem State.setLevel_host (s : State) (p : OutPin) (lv : Bool) : (s.setLevel p lv).host = s.host := by
  cases p <;> rfl
@[simp] theorem State.setLevel_now (s : State) (p : OutPin) (lv : Bool) : (s.setLevel p lv).now = s.now := by
  cases p <;> rfl
@[simp] theorem State.setLevel_devs (s : State) (p : OutPin) (lv : Bool) : (s.setLevel p lv).devs = s.devs := by
  cases p <;> rfl
@[simp] theorem State.setLevel_env (s : State) (p : OutPin) (lv : Bool) : (s.setLevel p lv).env = s.env := by
  cases p <;> rfl

@[simp] theorem State.setPin_board (s : State) (p : OutPin) (lv : Bool) : (s.setPin p lv).board = s.board := by
  unfold State.setPin; split <;> simp
@[simp] theorem State.setPin_status (s : State) (p : OutPin) (lv : Bool) : (s.setPin p lv).status = s.status := by
  unfold State.setPin; split <;> simp
@[simp] theorem State.setPin_engine (s : State) (p : OutPin) (lv : Bool) : (s.setPin p lv).engine = s.engine := by
  unfold State.setPin; split <;> simp
@[simp] theorem State.setPin_host (s : State) (p : OutPin) (lv : Bool) : (s.setPin p lv).host = s.host := by
  unfold State.setPin; split <;> simp
@[simp] theorem State.setPin_ctl (s : State) (p : OutPin) (lv : Bool) : (s.setPin p lv).ctl = (s.setLevel p lv).ctl := by
  unfold State.setPin; split <;> simp
@[simp] theorem State.setPin_now (s : State) (p : OutPin) (lv : Bool) : (s.setPin p lv).now = s.now := by
  unfold State.setPin; split <;> simp
@[simp] theorem State.setPin_devs (s : State) (p : OutPin) (lv : Bool) : (s.setPin p lv).devs = s.devs := by
  unfold State.setPin; split <;> simp
@[simp] theorem busRead_board (a : BusAddr) (r : RegAddr) (s : State) : (busRead a r s).2.board = s.board := rfl
@[simp] theorem busRead_status (a : BusAddr) (r : RegAddr) (s : State) : (busRead a r s).2.status = s.status := rfl
@[simp] theorem busRead_engine (a : BusAddr) (r : RegAddr) (s : State) : (busRead a r s).2.engine = s.engine := rfl
@[simp] theorem busRead_host (a : BusAddr) (r : RegAddr) (s : State) : (busRead a r s).2.host = s.host := rfl
@[simp] theorem busRead_ctl (a : BusAddr) (r : RegAddr) (s : State) : (busRead a r s).2.ctl = s.ctl := rfl
@[simp] theorem busRead_now (a : BusAddr) (r : RegAddr) (s : State) : (busRead a r s).2.now = s.now := rfl
@[simp] theorem busRead_devs (a : BusAddr) (r : RegAddr) (s : State) : (busRead a r s).2.devs = s.devs := rfl
@[simp] theorem busWrite_board (a : BusAddr) (r : RegAddr) (v : Byte) (s : State) :
    (busWrite a r v s).2.board = s.board := rfl
@[simp] theorem busWrite_status (a : BusAddr) (r : RegAddr) (v : Byte) (s : State) :
    (busWrite a r v s).2.status = s.status := rfl
@[simp] theorem busWrite_engine (a : BusAddr) (r : RegAddr) (v : Byte) (s : State) :
    (busWrite a r v s).2.engine = s.engine := rfl
@[simp] theorem busWrite_host (a : BusAddr) (r : RegAddr) (v : Byte) (s : State) :
    (busWrite a r v s).2.host = s.host := rfl
@[simp] theorem busWrite_ctl (a : BusAddr) (r : RegAddr) (v : Byte) (s : State) :
    (busWrite a r v s).2.ctl = s.ctl := rfl
@[simp] theorem busWrite_now (a : BusAddr) (r : RegAddr) (v : Byte) (s : State) :
    (busWrite a r v s).2.now = s.now := rfl
@[simp] theorem busWrite_devs (a : BusAddr) (r : RegAddr) (v : Byte) (s : State) :
    (busWrite a r v s).2.devs = s.devs := rfl

/-! ## The changed fields -/

@[simp] theorem State.setDev_devs (s : State) (d : DevIx) (x : Device) : (s.setDev d x).devs = s.devs.set d x := rfl
@[simp] theorem State.record_env (s : State) (a : Action) :
    (s.record a).env = { s.env with trace := s.env.trace ++ [a] } := rfl
@[simp] theorem State.emit_env (s : State) (k : EventKind) :
    (s.emit k).env = { s.env with trace := s.env.trace ++ [.ev k (s.enabled k)] } := rfl
@[simp] theorem State.emit_engine (s : State) (k : EventKind) :
    (s.emit k).engine = { s.engine with fired := s.engine.fired ||| eventBit k } := rfl
@[simp] theorem beginStep_env (s : State) : (beginStep s).env = { s.env with trace := [] } := rfl
@[simp] theorem beginStep_engine (s : State) : (beginStep s).engine = { s.engine with fired := 0#10 } := rfl
@[simp] theorem finish_status (rep : Report) (res : CmdResult) (pf sf : DevMask) (s : State) :
    (finish rep res pf sf s).status =
      { s.status with busy := false, done := true, ok := rep.ok, err := rep.err, buscode := rep.bc } := rfl
@[simp] theorem finish_engine (rep : Report) (res : CmdResult) (pf sf : DevMask) (s : State) :
    (finish rep res pf sf s).engine = { s.engine with fired := 0#10 } := rfl
@[simp] theorem finish_host (rep : Report) (res : CmdResult) (pf sf : DevMask) (s : State) :
    (finish rep res pf sf s).host =
      { s.host with
        result := resultWord res
        failMask := failWord pf sf
        eventPending := s.host.eventPending ||| (s.engine.fired &&& s.host.eventEnable) } := rfl
@[simp] theorem State.setLevel_relay_ctl (s : State) (lv : Bool) :
    (s.setLevel .relay lv).ctl = { s.ctl with relayOut := lv } := rfl
@[simp] theorem State.setLevel_reset_ctl (s : State) (lv : Bool) :
    (s.setLevel .reset lv).ctl = { s.ctl with resetOut := lv } := rfl
@[simp] theorem tick_now (s : State) : (tick s).now = s.now + 1#32 := rfl

/-! ## Accessors -/

@[simp] theorem State.dev_setDev_self (s : State) (d : DevIx) (x : Device) : (s.setDev d x).dev d = x := by
  simp [State.dev, State.setDev]

theorem State.dev_setDev_ne (s : State) (d e : DevIx) (x : Device) (h : d ≠ e) :
    (s.setDev d x).dev e = s.dev e := by
  have : d.val ≠ e.val := fun hv => h (Fin.ext hv)
  simp [State.dev, State.setDev, this]

theorem State.dev_setDev (s : State) (d e : DevIx) (x : Device) :
    (s.setDev d x).dev e = if d = e then x else s.dev e := by
  split
  · next h => subst h; simp
  · next h => exact s.dev_setDev_ne d e x h

@[simp] theorem Device.entry_setEntry_self (x : Device) (r : RegAddr) (e : ShadowEntry) :
    (x.setEntry r e).entry r = e := by
  simp [Device.entry, Device.setEntry]

theorem Device.entry_setEntry_ne (x : Device) (r q : RegAddr) (e : ShadowEntry) (h : r ≠ q) :
    (x.setEntry r e).entry q = x.entry q := by
  have : r.toNat ≠ q.toNat := fun hv => h (BitVec.eq_of_toNat_eq hv)
  simp [Device.entry, Device.setEntry, this]

@[simp] theorem getElem_mapVector {α : Type} {n : Nat} (f : α → α) (v : Vector α n) (i : Nat) (h : i < n) :
    (mapVector f v)[i] = f v[i] := by
  simp [mapVector]

@[simp] theorem Device.setEntry_phase (x : Device) (r : RegAddr) (e : ShadowEntry) :
    (x.setEntry r e).phase = x.phase := rfl
@[simp] theorem Device.setEntry_chipType (x : Device) (r : RegAddr) (e : ShadowEntry) :
    (x.setEntry r e).chipType = x.chipType := rfl
@[simp] theorem Device.dropAll_phase (x : Device) : x.dropAll.phase = x.phase := rfl
@[simp] theorem Device.dropAll_chipType (x : Device) : x.dropAll.chipType = x.chipType := rfl
@[simp] theorem Device.dropAll_entry (x : Device) (r : RegAddr) :
    x.dropAll.entry r = { x.entry r with valid := false } := by
  simp [Device.entry, Device.dropAll]

@[simp] theorem State.cfg_setDev (s : State) (d : DevIx) (x : Device) : (s.setDev d x).cfg = s.cfg := rfl
@[simp] theorem State.cfg_record (s : State) (a : Action) : (s.record a).cfg = s.cfg := rfl
@[simp] theorem State.cfg_emit (s : State) (k : EventKind) : (s.emit k).cfg = s.cfg := rfl
@[simp] theorem State.cfg_beginStep (s : State) : (beginStep s).cfg = s.cfg := rfl
@[simp] theorem State.dev_record (s : State) (a : Action) (d : DevIx) : (s.record a).dev d = s.dev d := rfl
@[simp] theorem State.dev_emit (s : State) (k : EventKind) (d : DevIx) : (s.emit k).dev d = s.dev d := rfl
@[simp] theorem State.dev_beginStep (s : State) (d : DevIx) : (beginStep s).dev d = s.dev d := rfl
@[simp] theorem State.dev_finish (rep : Report) (res : CmdResult) (pf sf : DevMask) (s : State) (d : DevIx) :
    (finish rep res pf sf s).dev d = s.dev d := rfl
@[simp] theorem State.devCfg_beginStep (s : State) (d : DevIx) : (beginStep s).devCfg d = s.devCfg d := rfl
@[simp] theorem State.layout_beginStep (s : State) (d : DevIx) : (beginStep s).layout d = s.layout d := rfl
@[simp] theorem State.nDev_beginStep (s : State) : (beginStep s).nDev = s.nDev := rfl
@[simp] theorem State.healthy_beginStep (s : State) (d : DevIx) : (beginStep s).healthy d = s.healthy d := rfl
@[simp] theorem State.entry_beginStep (s : State) (d : DevIx) (r : RegAddr) :
    (beginStep s).entry d r = s.entry d r := rfl

/-- A configuration lookup reads the configuration alone. -/
theorem State.devCfg_congr {s t : State} (h : t.board = s.board) (d : DevIx) : t.devCfg d = s.devCfg d := by
  simp [State.devCfg, State.cfg, h]
theorem State.layout_congr {s t : State} (h : t.board = s.board) (d : DevIx) : t.layout d = s.layout d := by
  simp [State.layout, State.devCfg, State.cfg, h]
theorem State.nDev_congr {s t : State} (h : t.board = s.board) : t.nDev = s.nDev := by
  simp [State.nDev, State.cfg, h]
theorem State.devices_congr {s t : State} (h : t.board = s.board) : t.devices = s.devices := by
  simp [State.devices, State.nDev_congr h]

/-- The listed devices are the existing ones. -/
theorem State.mem_devices (s : State) (d : DevIx) : d ∈ s.devices ↔ d.val < s.nDev := by
  have h : d ∈ allDevIx := by revert d; decide
  simp [State.devices, h]

end Sys2Proof.Machine
end

