-- ==== Sys2Proof/Laws/Ops.lean ====
section
/-! SUPPORT. What each shared operation can do, said once: the bus primitives, the transport procedures, the device procedures,
the loops over devices. -/

namespace Sys2Proof.Machine

/-! ## Frames -/

/-- What no procedure of an Engine step touches (only `powerUp`, `powerDown`, the edges and the commit do): everything but the
devices, the oracle's answers and the trace, which grows by bus transactions. -/
structure ProcFrame (s t : State) : Prop where
  board : t.board = s.board
  status : t.status = s.status
  engine : t.engine = s.engine
  host : t.host = s.host
  ctl : t.ctl = s.ctl
  now : t.now = s.now
  schedule : t.env.schedule = s.env.schedule
  turn : t.env.turn = s.env.turn
  readData : t.env.readData = s.env.readData
  trace : ∃ acts : List Action, t.env.trace = s.env.trace ++ acts ∧ ∀ a ∈ acts, a.isBus = true

theorem ProcFrame.refl (s : State) : ProcFrame s s :=
  ⟨rfl, rfl, rfl, rfl, rfl, rfl, rfl, rfl, rfl, [], by simp, by simp⟩

theorem ProcFrame.trans {s t u : State} (h : ProcFrame s t) (k : ProcFrame t u) : ProcFrame s u := by
  obtain ⟨a, ha, hb⟩ := h.trace
  obtain ⟨b, hc, hd⟩ := k.trace
  refine ⟨k.board.trans h.board, k.status.trans h.status, k.engine.trans h.engine, k.host.trans h.host,
    k.ctl.trans h.ctl, k.now.trans h.now, k.schedule.trans h.schedule, k.turn.trans h.turn,
    k.readData.trans h.readData, a ++ b, by rw [hc, ha, List.append_assoc], ?_⟩
  intro x hx
  rcases List.mem_append.mp hx with h1 | h1
  · exact hb x h1
  · exact hd x h1

theorem ProcFrame.devCfg {s t : State} (h : ProcFrame s t) (d : DevIx) : t.devCfg d = s.devCfg d :=
  State.devCfg_congr h.board d
theorem ProcFrame.layout {s t : State} (h : ProcFrame s t) (d : DevIx) : t.layout d = s.layout d :=
  State.layout_congr h.board d
theorem ProcFrame.nDev {s t : State} (h : ProcFrame s t) : t.nDev = s.nDev := State.nDev_congr h.board
theorem ProcFrame.devices {s t : State} (h : ProcFrame s t) : t.devices = s.devices := State.devices_congr h.board

/-- Writing a device touches nothing else. -/
theorem setDev_procFrame (s : State) (d : DevIx) (x : Device) : ProcFrame s (s.setDev d x) :=
  ⟨rfl, rfl, rfl, rfl, rfl, rfl, rfl, rfl, rfl, [], by simp, by simp⟩

/-- A register-level procedure on (d, r) touches, besides, the one shadow entry shadow[d][r]. -/
structure RegFrame (d : DevIx) (r : RegAddr) (s t : State) : Prop extends ProcFrame s t where
  others : ∀ e, e ≠ d → t.dev e = s.dev e
  phase : (t.dev d).phase = (s.dev d).phase
  chipType : (t.dev d).chipType = (s.dev d).chipType
  entries : ∀ q, q ≠ r → t.entry d q = s.entry d q

theorem RegFrame.refl (d : DevIx) (r : RegAddr) (s : State) : RegFrame d r s s :=
  ⟨.refl s, fun _ _ => rfl, rfl, rfl, fun _ _ => rfl⟩

theorem RegFrame.trans {d : DevIx} {r : RegAddr} {s t u : State} (h : RegFrame d r s t) (k : RegFrame d r t u) :
    RegFrame d r s u :=
  ⟨h.toProcFrame.trans k.toProcFrame, fun e he => (k.others e he).trans (h.others e he), k.phase.trans h.phase,
    k.chipType.trans h.chipType, fun q hq => (k.entries q hq).trans (h.entries q hq)⟩

/-- The phase of every device. -/
theorem RegFrame.phases {d : DevIx} {r : RegAddr} {s t : State} (h : RegFrame d r s t) (e : DevIx) :
    (t.dev e).phase = (s.dev e).phase := by
  by_cases he : e = d
  · rw [he, h.phase]
  · rw [h.others e he]

/-- The chip type of every device. -/
theorem RegFrame.chipTypes {d : DevIx} {r : RegAddr} {s t : State} (h : RegFrame d r s t) (e : DevIx) :
    (t.dev e).chipType = (s.dev e).chipType := by
  by_cases he : e = d
  · rw [he, h.chipType]
  · rw [h.others e he]

theorem RegFrame.healthy {d : DevIx} {r : RegAddr} {s t : State} (h : RegFrame d r s t) (e : DevIx) :
    t.healthy e = s.healthy e := by
  unfold State.healthy
  rw [h.phases e]

/-- Every entry but the addressed one. -/
theorem RegFrame.entry_other {d : DevIx} {r : RegAddr} {s t : State} (h : RegFrame d r s t) (e : DevIx) (q : RegAddr)
    (hne : e ≠ d ∨ q ≠ r) : t.entry e q = s.entry e q := by
  by_cases he : e = d
  · subst he
    exact h.entries q (hne.resolve_left (fun h => h rfl))
  · unfold State.entry
    rw [h.others e he]

/-! ## Shadow updates -/

theorem State.entry_setDev (s : State) (d e : DevIx) (x : Device) (q : RegAddr) :
    (s.setDev d x).entry e q = if d = e then x.entry q else s.entry e q := by
  unfold State.entry
  rw [State.dev_setDev]
  split <;> rfl

@[simp] theorem State.entry_setShadow_self (s : State) (d : DevIx) (r : RegAddr) (v : Byte) :
    (s.setShadow d r v).entry d r = { val := v, valid := true } := by
  simp [State.setShadow, State.entry]

@[simp] theorem State.entry_dropShadow_self (s : State) (d : DevIx) (r : RegAddr) :
    (s.dropShadow d r).entry d r = { s.entry d r with valid := false } := by
  simp [State.dropShadow, State.entry]

theorem setEntry_regFrame (s : State) (d : DevIx) (r : RegAddr) (e : ShadowEntry) :
    RegFrame d r s (s.setDev d ((s.dev d).setEntry r e)) := by
  refine ⟨setDev_procFrame .., fun f hf => s.dev_setDev_ne d f _ (Ne.symm hf), by simp, by simp, ?_⟩
  intro q hq
  simp only [State.entry_setDev, if_pos]
  exact Device.entry_setEntry_ne _ r q e (Ne.symm hq)

theorem setShadow_regFrame (s : State) (d : DevIx) (r : RegAddr) (v : Byte) : RegFrame d r s (s.setShadow d r v) :=
  setEntry_regFrame ..

theorem dropShadow_regFrame (s : State) (d : DevIx) (r : RegAddr) : RegFrame d r s (s.dropShadow d r) :=
  setEntry_regFrame ..

/-! ## The bus -/

/-- Taking an answer changes the answer lists and their counter alone. -/
theorem nextReadAnswer_frame (e : Env) :
    (nextReadAnswer e).2.schedule = e.schedule ∧ (nextReadAnswer e).2.turn = e.turn ∧
      (nextReadAnswer e).2.readData = e.readData ∧ (nextReadAnswer e).2.trace = e.trace := by
  unfold nextReadAnswer
  split <;> simp

theorem nextWriteAnswer_frame (e : Env) :
    (nextWriteAnswer e).2.schedule = e.schedule ∧ (nextWriteAnswer e).2.turn = e.turn ∧
      (nextWriteAnswer e).2.readData = e.readData ∧ (nextWriteAnswer e).2.trace = e.trace := by
  unfold nextWriteAnswer
  split <;> simp

/-- A listed read answer is the one the bus gives. -/
theorem busRead_listed (a : BusAddr) (r : RegAddr) (s : State) (x : Config.ReadAnswer) (rest : List Config.ReadAnswer)
    (h : s.env.reads = x :: rest) :
    busRead a r s =
      (x, { s with env := { s.env with reads := rest, trace := s.env.trace ++ [.busRd a r x] } }) := by
  simp [busRead, nextReadAnswer, h, State.record]

/-- A listed write answer is the one the bus gives. -/
theorem busWrite_listed (a : BusAddr) (r : RegAddr) (v : Byte) (s : State) (x : Config.WriteAnswer)
    (rest : List Config.WriteAnswer) (h : s.env.writes = x :: rest) :
    busWrite a r v s =
      (x, { s with env := { s.env with writes := rest, trace := s.env.trace ++ [.busWr a r v x] } }) := by
  simp [busWrite, nextWriteAnswer, h, State.record]

@[simp] theorem dev_busRead (a : BusAddr) (r : RegAddr) (s : State) (d : DevIx) :
    (busRead a r s).2.dev d = s.dev d := rfl
@[simp] theorem dev_busWrite (a : BusAddr) (r : RegAddr) (v : Byte) (s : State) (d : DevIx) :
    (busWrite a r v s).2.dev d = s.dev d := rfl

/-- A read transaction appends its one action. -/
theorem busRead_trace (a : BusAddr) (r : RegAddr) (s : State) :
    (busRead a r s).2.env.trace = s.env.trace ++ [.busRd a r (busRead a r s).1] := by
  simp [busRead, (nextReadAnswer_frame s.env).2.2.2]

/-- A write transaction appends its one action. -/
theorem busWrite_trace (a : BusAddr) (r : RegAddr) (v : Byte) (s : State) :
    (busWrite a r v s).2.env.trace = s.env.trace ++ [.busWr a r v (busWrite a r v s).1] := by
  simp [busWrite, (nextWriteAnswer_frame s.env).2.2.2]

theorem busRead_regFrame (d : DevIx) (q : RegAddr) (a : BusAddr) (r : RegAddr) (s : State) :
    RegFrame d q s (busRead a r s).2 := by
  have h := nextReadAnswer_frame s.env
  exact ⟨⟨rfl, rfl, rfl, rfl, rfl, rfl, h.1, h.2.1, h.2.2.1, _, busRead_trace a r s, by simp [Action.isBus]⟩,
    fun _ _ => rfl, rfl, rfl, fun _ _ => rfl⟩

theorem busWrite_regFrame (d : DevIx) (q : RegAddr) (a : BusAddr) (r : RegAddr) (v : Byte) (s : State) :
    RegFrame d q s (busWrite a r v s).2 := by
  have h := nextWriteAnswer_frame s.env
  exact ⟨⟨rfl, rfl, rfl, rfl, rfl, rfl, h.1, h.2.1, h.2.2.1, _, busWrite_trace a r v s, by simp [Action.isBus]⟩,
    fun _ _ => rfl, rfl, rfl, fun _ _ => rfl⟩

/-! ## Reads -/

/-- A bus code is 1..4 (R65). -/
theorem busErrorCode_range (c : Config.BusError) : busErrorCode c ≠ 0#3 ∧ (busErrorCode c).toNat ≤ 4 := by
  cases c <;> decide

/-- A report is consistent (R10): ok exactly without an error, a bus code exactly with BUS, a code of 5-7 never. -/
structure Report.Consistent (x : Report) : Prop where
  ok : x.ok = true ↔ x.err = .noErr
  bus : x.bc ≠ 0#3 ↔ x.err = .bus
  range : x.bc.toNat ≤ 4

theorem Report.success_consistent : Report.success.Consistent := ⟨by decide, by decide, by decide⟩

theorem Report.failure_consistent (e : CmdErr) (h : e ≠ .noErr) (k : e ≠ .bus) :
    (Report.failure e 0#3).Consistent := ⟨by simp [Report.failure, h], by simp [Report.failure, k], by simp [Report.failure]⟩

theorem Report.bus_consistent (c : Config.BusError) : (Report.failure .bus (busErrorCode c)).Consistent :=
  ⟨by simp [Report.failure], by simp [Report.failure, (busErrorCode_range c).1], (busErrorCode_range c).2⟩

theorem readResultOf_consistent (a : Config.ReadAnswer) : (readResultOf a).rep.Consistent := by
  cases a with
  | data b => exact Report.success_consistent
  | addrErr c => exact Report.bus_consistent c
  | timeout => exact Report.failure_consistent _ (by decide) (by decide)

theorem rawRead_regFrame (d : DevIx) (r : RegAddr) (s : State) : RegFrame d r s (rawRead d r s).2 :=
  busRead_regFrame ..

/-- A raw read leaves every device as it is. -/
@[simp] theorem dev_rawRead (d e : DevIx) (r : RegAddr) (s : State) : (rawRead d r s).2.dev e = s.dev e := rfl
@[simp] theorem devs_rawRead (d : DevIx) (r : RegAddr) (s : State) : (rawRead d r s).2.devs = s.devs := rfl

theorem rawRead_consistent (d : DevIx) (r : RegAddr) (s : State) : (rawRead d r s).1.rep.Consistent :=
  readResultOf_consistent _

/-- A raw read is one transaction. -/
theorem rawRead_trace (d : DevIx) (r : RegAddr) (s : State) :
    ∃ x, (rawRead d r s).1 = readResultOf x ∧
      (rawRead d r s).2.env.trace = s.env.trace ++ [.busRd (s.devCfg d).addr r x] :=
  ⟨_, rfl, busRead_trace ..⟩

/-- A raw read with a listed answer. -/
theorem rawRead_listed (d : DevIx) (r : RegAddr) (s : State) (x : Config.ReadAnswer) (rest : List Config.ReadAnswer)
    (h : s.env.reads = x :: rest) :
    rawRead d r s =
      (readResultOf x,
        { s with env := { s.env with reads := rest, trace := s.env.trace ++ [.busRd (s.devCfg d).addr r x] } }) := by
  simp [rawRead, busRead_listed _ _ s x rest h]

/-- The gated read, by its three gates (R121, R122). -/
theorem rdCore_cases (d : DevIx) (r : RegAddr) (s : State) :
    ((s.devCfg d).noI2C = true ∧ rdCore d r s = ({ rep := .success, v := s.cfg.noI2CReadValue }, s)) ∨
    ((s.devCfg d).noI2C = false ∧ s.healthy d = true ∧ rdCore d r s = rawRead d r s) ∨
    ((s.devCfg d).noI2C = false ∧ s.healthy d = false ∧
      rdCore d r s = ({ rep := .failure .notInit 0#3, v := 0#8 }, s)) := by
  unfold rdCore
  cases (s.devCfg d).noI2C <;> cases s.healthy d <;> simp

theorem rdCore_regFrame (d : DevIx) (r : RegAddr) (s : State) : RegFrame d r s (rdCore d r s).2 := by
  rcases rdCore_cases d r s with ⟨_, h⟩ | ⟨_, _, h⟩ | ⟨_, _, h⟩ <;> rw [h]
  · exact .refl d r s
  · exact rawRead_regFrame d r s
  · exact .refl d r s

@[simp] theorem devs_rdCore (d : DevIx) (r : RegAddr) (s : State) : (rdCore d r s).2.devs = s.devs := by
  rcases rdCore_cases d r s with ⟨_, h⟩ | ⟨_, _, h⟩ | ⟨_, _, h⟩ <;> simp [h]

theorem rdCore_consistent (d : DevIx) (r : RegAddr) (s : State) : (rdCore d r s).1.rep.Consistent := by
  rcases rdCore_cases d r s with ⟨_, h⟩ | ⟨_, _, h⟩ | ⟨_, _, h⟩ <;> rw [h]
  · exact Report.success_consistent
  · exact rawRead_consistent d r s
  · exact Report.failure_consistent _ (by decide) (by decide)

/-- Bus transactions a state has behind it. -/
def busCount (s : State) : Nat := (s.env.trace.filter Action.isBus).length

theorem busCount_append {s t : State} {l : List Action} (h : t.env.trace = s.env.trace ++ l) :
    busCount t = busCount s + (l.filter Action.isBus).length := by
  simp [busCount, h]

@[simp] theorem busCount_rawRead (d : DevIx) (r : RegAddr) (s : State) : busCount (rawRead d r s).2 = busCount s + 1 := by
  obtain ⟨x, _, h⟩ := rawRead_trace d r s
  rw [busCount_append h]; rfl

@[simp] theorem busCount_busWrite (a : BusAddr) (r : RegAddr) (v : Byte) (s : State) :
    busCount (busWrite a r v s).2 = busCount s + 1 := by
  rw [busCount_append (busWrite_trace a r v s)]; rfl

@[simp] theorem busCount_setDev (s : State) (d : DevIx) (x : Device) : busCount (s.setDev d x) = busCount s := rfl
@[simp] theorem busCount_setShadow (s : State) (d : DevIx) (r : RegAddr) (v : Byte) :
    busCount (s.setShadow d r v) = busCount s := rfl
@[simp] theorem busCount_dropShadow (s : State) (d : DevIx) (r : RegAddr) : busCount (s.dropShadow d r) = busCount s := rfl

theorem busCount_rdCore (d : DevIx) (r : RegAddr) (s : State) : busCount (rdCore d r s).2 ≤ busCount s + 1 := by
  rcases rdCore_cases d r s with ⟨_, h⟩ | ⟨_, _, h⟩ | ⟨_, _, h⟩ <;> rw [h]
  · exact Nat.le_succ _
  · rw [busCount_rawRead]
  · exact Nat.le_succ _

/-! ## Writes -/

/-- Everything a register-level write procedure can do. -/
structure WriteSpec (d : DevIx) (r : RegAddr) (n : Nat) (s : State) (x : WriteResult × State) : Prop where
  frame : RegFrame d r s x.2
  report : x.1.rep.Consistent
  count : busCount x.2 ≤ busCount s + n

theorem verifyOutcome_cases (d : DevIx) (r : RegAddr) (v : Byte) (x : ReadResult × State) :
    (x.1.rep.ok = true ∧ x.1.v = v ∧
      verifyOutcome d r v x = ({ rep := .success, elided := false, data := v }, x.2.setShadow d r v)) ∨
    (x.1.rep.ok = true ∧ x.1.v ≠ v ∧
      verifyOutcome d r v x = ({ rep := .failure .verify 0#3, elided := false, data := x.1.v }, x.2.dropShadow d r)) ∨
    (x.1.rep.ok = false ∧
      verifyOutcome d r v x = ({ rep := x.1.rep, elided := false, data := 0#8 }, x.2.dropShadow d r)) := by
  unfold verifyOutcome
  cases x.1.rep.ok <;> by_cases h : x.1.v = v <;> simp [h]

theorem verifyOutcome_spec (d : DevIx) (r : RegAddr) (v : Byte) (s : State) :
    WriteSpec d r 1 s (verifyOutcome d r v (rawRead d r s)) := by
  have f := rawRead_regFrame d r s
  rcases verifyOutcome_cases d r v (rawRead d r s) with ⟨_, _, h⟩ | ⟨_, _, h⟩ | ⟨_, h⟩ <;> rw [h]
  · exact ⟨f.trans (setShadow_regFrame ..), Report.success_consistent, by simp⟩
  · exact ⟨f.trans (dropShadow_regFrame ..), Report.failure_consistent _ (by decide) (by decide), by simp⟩
  · exact ⟨f.trans (dropShadow_regFrame ..), rawRead_consistent d r s, by simp⟩

theorem WriteSpec.mono {d : DevIx} {r : RegAddr} {m n : Nat} {s t : State} {x : WriteResult × State}
    (f : RegFrame d r s t) (c : busCount t + m ≤ busCount s + n) (h : WriteSpec d r m t x) : WriteSpec d r n s x :=
  ⟨f.trans h.frame, h.report, h.count.trans c⟩

/-- WriteVerify, by the write's answer (R123). -/
theorem writeVerify_cases (d : DevIx) (r : RegAddr) (v : Byte) (s : State) :
    (∃ c, (busWrite (s.devCfg d).addr r v s).1 = .error c ∧
      writeVerify d r v s = ({ rep := .failure .bus (busErrorCode c), elided := false, data := 0#8 },
        (busWrite (s.devCfg d).addr r v s).2.dropShadow d r)) ∨
    ((busWrite (s.devCfg d).addr r v s).1 = .success ∧
      writeVerify d r v s = verifyOutcome d r v (rawRead d r (busWrite (s.devCfg d).addr r v s).2)) := by
  unfold writeVerify
  rcases busWrite (s.devCfg d).addr r v s with ⟨a, t⟩
  cases a <;> simp

theorem writeVerify_spec (d : DevIx) (r : RegAddr) (v : Byte) (s : State) : WriteSpec d r 2 s (writeVerify d r v s) := by
  have f := busWrite_regFrame d r (s.devCfg d).addr r v s
  rcases writeVerify_cases d r v s with ⟨c, _, h⟩ | ⟨_, h⟩ <;> rw [h]
  · exact ⟨f.trans (dropShadow_regFrame ..), Report.bus_consistent c, by simp⟩
  · exact (verifyOutcome_spec d r v _).mono f (by simp)

theorem writeUnlessEqual_cases (d : DevIx) (r : RegAddr) (v : Byte) (x : ReadResult × State) :
    (x.1.rep.ok = true ∧ x.1.v = v ∧
      writeUnlessEqual d r v x = ({ rep := .success, elided := true, data := v }, x.2.setShadow d r v)) ∨
    (x.1.rep.ok = true ∧ x.1.v ≠ v ∧ writeUnlessEqual d r v x = writeVerify d r v x.2) ∨
    (x.1.rep.ok = false ∧
      writeUnlessEqual d r v x = ({ rep := x.1.rep, elided := false, data := 0#8 }, x.2)) := by
  unfold writeUnlessEqual
  cases x.1.rep.ok <;> by_cases h : x.1.v = v <;> simp [h]

theorem writeUnlessEqual_spec (d : DevIx) (r : RegAddr) (v : Byte) (s : State) :
    WriteSpec d r 3 s (writeUnlessEqual d r v (rawRead d r s)) := by
  have f := rawRead_regFrame d r s
  rcases writeUnlessEqual_cases d r v (rawRead d r s) with ⟨_, _, h⟩ | ⟨_, _, h⟩ | ⟨_, h⟩ <;> rw [h]
  · exact ⟨f.trans (setShadow_regFrame ..), Report.success_consistent, by simp⟩
  · exact (writeVerify_spec d r v _).mono f (by simp)
  · exact ⟨f, rawRead_consistent d r s, by simp⟩

/-- WrCore, by its gates (R124). -/
theorem wrCore_cases (d : DevIx) (r : RegAddr) (v : Byte) (s : State) :
    ((s.devCfg d).noI2C = true ∧ wrCore d r v s = ({ rep := .success, elided := true, data := 0#8 }, s)) ∨
    ((s.devCfg d).noI2C = false ∧ s.healthy d = true ∧ (s.entry d r).valid = true ∧ (s.entry d r).val = v ∧
      wrCore d r v s = ({ rep := .success, elided := true, data := v }, s)) ∨
    ((s.devCfg d).noI2C = false ∧ s.healthy d = true ∧ ¬((s.entry d r).valid = true ∧ (s.entry d r).val = v) ∧
      wrCore d r v s = writeUnlessEqual d r v (rawRead d r s)) ∨
    ((s.devCfg d).noI2C = false ∧ s.healthy d = false ∧
      wrCore d r v s = ({ rep := .failure .notInit 0#3, elided := false, data := 0#8 }, s)) := by
  unfold wrCore
  cases (s.devCfg d).noI2C <;> cases s.healthy d <;>
    by_cases h : (s.entry d r).valid = true ∧ (s.entry d r).val = v <;> simp [h]

theorem wrCore_spec (d : DevIx) (r : RegAddr) (v : Byte) (s : State) : WriteSpec d r 3 s (wrCore d r v s) := by
  rcases wrCore_cases d r v s with ⟨_, h⟩ | ⟨_, _, _, _, h⟩ | ⟨_, _, _, h⟩ | ⟨_, _, h⟩ <;> rw [h]
  · exact ⟨.refl d r s, Report.success_consistent, by simp⟩
  · exact ⟨.refl d r s, Report.success_consistent, by simp⟩
  · exact writeUnlessEqual_spec d r v s
  · exact ⟨.refl d r s, Report.failure_consistent _ (by decide) (by decide), by simp⟩

theorem patchUnlessEqual_cases (d : DevIx) (r : RegAddr) (p : Pattern) (x : ReadResult × State) :
    (x.1.rep.ok = true ∧ overlay x.1.v p = x.1.v ∧ patTouch p ≠ 0#8 ∧
      patchUnlessEqual d r p x = ({ rep := .success, elided := true, data := x.1.v }, x.2.setShadow d r x.1.v)) ∨
    (x.1.rep.ok = true ∧ overlay x.1.v p = x.1.v ∧ patTouch p = 0#8 ∧
      patchUnlessEqual d r p x = ({ rep := .success, elided := true, data := x.1.v }, x.2)) ∨
    (x.1.rep.ok = true ∧ overlay x.1.v p ≠ x.1.v ∧
      patchUnlessEqual d r p x = writeVerify d r (overlay x.1.v p) x.2) ∨
    (x.1.rep.ok = false ∧
      patchUnlessEqual d r p x = ({ rep := x.1.rep, elided := false, data := 0#8 }, x.2)) := by
  unfold patchUnlessEqual
  cases x.1.rep.ok <;> by_cases h : overlay x.1.v p = x.1.v <;> by_cases k : patTouch p = 0#8 <;> simp [h, k]

theorem patchUnlessEqual_spec (d : DevIx) (r : RegAddr) (p : Pattern) (s : State) :
    WriteSpec d r 3 s (patchUnlessEqual d r p (rawRead d r s)) := by
  have f := rawRead_regFrame d r s
  rcases patchUnlessEqual_cases d r p (rawRead d r s) with ⟨_, _, _, h⟩ | ⟨_, _, _, h⟩ | ⟨_, _, h⟩ | ⟨_, h⟩ <;> rw [h]
  · exact ⟨f.trans (setShadow_regFrame ..), Report.success_consistent, by simp⟩
  · exact ⟨f, Report.success_consistent, by simp⟩
  · exact (writeVerify_spec d r _ _).mono f (by simp)
  · exact ⟨f, rawRead_consistent d r s, by simp⟩

/-- BitsCore, by its gates (R125). -/
theorem bitsCore_cases (d : DevIx) (r : RegAddr) (p : Pattern) (s : State) :
    ((s.devCfg d).noI2C = true ∧ bitsCore d r p s = ({ rep := .success, elided := true, data := 0#8 }, s)) ∨
    ((s.devCfg d).noI2C = false ∧ s.healthy d = true ∧ bitsCore d r p s = patchUnlessEqual d r p (rawRead d r s)) ∨
    ((s.devCfg d).noI2C = false ∧ s.healthy d = false ∧
      bitsCore d r p s = ({ rep := .failure .notInit 0#3, elided := false, data := 0#8 }, s)) := by
  unfold bitsCore
  cases (s.devCfg d).noI2C <;> cases s.healthy d <;> simp

theorem bitsCore_spec (d : DevIx) (r : RegAddr) (p : Pattern) (s : State) : WriteSpec d r 3 s (bitsCore d r p s) := by
  rcases bitsCore_cases d r p s with ⟨_, h⟩ | ⟨_, _, h⟩ | ⟨_, _, h⟩ <;> rw [h]
  · exact ⟨.refl d r s, Report.success_consistent, by simp⟩
  · exact patchUnlessEqual_spec d r p s
  · exact ⟨.refl d r s, Report.failure_consistent _ (by decide) (by decide), by simp⟩

theorem muteProc_spec (d : DevIx) (s : State) : WriteSpec d (s.layout d).muteReg 3 s (muteProc d s) := bitsCore_spec ..
theorem unmuteProc_spec (d : DevIx) (s : State) : WriteSpec d (s.layout d).muteReg 3 s (unmuteProc d s) :=
  bitsCore_spec ..

theorem attenProc_spec (d : DevIx) (v : Byte) (s : State) :
    WriteSpec d (s.layout d).attenReg 3 s (attenProc d v s) := by
  have h := wrCore_spec d (s.layout d).attenReg (clampAtten v (s.layout d).attenMax) s
  exact ⟨h.frame, h.report, h.count⟩

theorem inputProc_spec (d : DevIx) (sel : Byte) (s : State) :
    WriteSpec d (s.layout d).inputReg 3 s (inputProc d sel s) := by
  unfold inputProc
  split
  · exact bitsCore_spec ..
  · exact ⟨.refl .., Report.failure_consistent _ (by decide) (by decide), by simp⟩

theorem lockedProc_regFrame (d : DevIx) (s : State) : RegFrame d (s.layout d).statusReg s (lockedProc d s).2 :=
  rdCore_regFrame ..
theorem automutedProc_regFrame (d : DevIx) (s : State) : RegFrame d (s.layout d).automuteReg s (automutedProc d s).2 :=
  rdCore_regFrame ..
@[simp] theorem devs_lockedProc (d : DevIx) (s : State) : (lockedProc d s).2.devs = s.devs := devs_rdCore ..
@[simp] theorem devs_automutedProc (d : DevIx) (s : State) : (automutedProc d s).2.devs = s.devs := devs_rdCore ..

end Sys2Proof.Machine
end

