-- ==== Sys2Proof/Laws/Loops.lean ====
section
/-! SUPPORT. What the writes make known, InitProc, and the loops over devices: each said once. -/

namespace Sys2Proof.Machine

/-! ## What a write procedure makes known -/

/-- A shadow entry that is valid after a write procedure was valid before, or its device is Initialised and on the bus. -/
theorem bitsCore_backed {d : DevIx} {r : RegAddr} {p : Pattern} {s : State}
    (hv : ((bitsCore d r p s).2.entry d r).valid = true) :
    (s.entry d r).valid = true ∨ (s.healthy d = true ∧ (s.devCfg d).noI2C = false) := by
  rcases bitsCore_cases d r p s with ⟨_, h⟩ | ⟨hn, hh, _⟩ | ⟨_, _, h⟩
  · rw [h] at hv; exact .inl hv
  · exact .inr ⟨hh, hn⟩
  · rw [h] at hv; exact .inl hv

theorem wrCore_backed {d : DevIx} {r : RegAddr} {v : Byte} {s : State}
    (hv : ((wrCore d r v s).2.entry d r).valid = true) :
    (s.entry d r).valid = true ∨ (s.healthy d = true ∧ (s.devCfg d).noI2C = false) := by
  rcases wrCore_cases d r v s with ⟨_, h⟩ | ⟨hn, hh, _⟩ | ⟨hn, hh, _⟩ | ⟨_, _, h⟩
  · rw [h] at hv; exact .inl hv
  · exact .inr ⟨hh, hn⟩
  · exact .inr ⟨hh, hn⟩
  · rw [h] at hv; exact .inl hv

/-- A patch applied twice is the patch applied once (R101). -/
theorem overlay_idem (cur : Byte) (p : Pattern) : overlay (overlay cur p) p = overlay cur p := by
  unfold overlay
  generalize patTouch p = t
  generalize patVal p = v
  ext i
  simp only [BitVec.getElem_or, BitVec.getElem_and, BitVec.getElem_not]
  cases cur[i] <;> cases t[i] <;> cases v[i] <;> rfl

theorem verifyOutcome_known {d : DevIx} {r : RegAddr} {v : Byte} {x : ReadResult × State}
    (ho : (verifyOutcome d r v x).1.rep.ok = true) :
    (verifyOutcome d r v x).2.entry d r = { val := v, valid := true } := by
  rcases verifyOutcome_cases d r v x with ⟨_, _, h⟩ | ⟨_, _, h⟩ | ⟨hf, h⟩ <;> rw [h] at ho ⊢
  · simp
  · simp [Report.failure] at ho
  · simp [hf] at ho

theorem writeVerify_known {d : DevIx} {r : RegAddr} {v : Byte} {s : State} (ho : (writeVerify d r v s).1.rep.ok = true) :
    (writeVerify d r v s).2.entry d r = { val := v, valid := true } := by
  rcases writeVerify_cases d r v s with ⟨c, _, h⟩ | ⟨_, h⟩ <;> rw [h] at ho ⊢
  · simp [Report.failure] at ho
  · exact verifyOutcome_known ho

/-- A WrCore that succeeds on a bus device leaves the value known and the device was Initialised (R124). -/
theorem wrCore_known {d : DevIx} {r : RegAddr} {v : Byte} {s : State} (hn : (s.devCfg d).noI2C = false)
    (ho : (wrCore d r v s).1.rep.ok = true) :
    s.healthy d = true ∧ (wrCore d r v s).2.entry d r = { val := v, valid := true } := by
  rcases wrCore_cases d r v s with ⟨hx, h⟩ | ⟨_, hh, h1, h2, h⟩ | ⟨_, hh, _, h⟩ | ⟨_, _, h⟩
  · simp [hn] at hx
  · rw [h]; exact ⟨hh, by rw [← h1, ← h2]⟩
  · refine ⟨hh, ?_⟩
    rw [h] at ho ⊢
    rcases writeUnlessEqual_cases d r v (rawRead d r s) with ⟨_, _, h⟩ | ⟨_, _, h⟩ | ⟨hf, h⟩ <;> rw [h] at ho ⊢
    · simp
    · exact writeVerify_known ho
    · simp [hf] at ho
  · rw [h] at ho; simp [Report.failure] at ho

/-- A BitsCore that succeeds on a bus device found it Initialised, and leaves a byte known that has the pattern's bits, where the
pattern touches a bit (R125). -/
theorem bitsCore_known {d : DevIx} {r : RegAddr} {p : Pattern} {s : State} (hn : (s.devCfg d).noI2C = false)
    (ho : (bitsCore d r p s).1.rep.ok = true) :
    s.healthy d = true ∧ (patTouch p ≠ 0#8 → ((bitsCore d r p s).2.entry d r).valid = true ∧
      overlay ((bitsCore d r p s).2.entry d r).val p = ((bitsCore d r p s).2.entry d r).val) := by
  rcases bitsCore_cases d r p s with ⟨hx, h⟩ | ⟨_, hh, h⟩ | ⟨_, _, h⟩
  · simp [hn] at hx
  · refine ⟨hh, fun ht => ?_⟩
    rw [h] at ho ⊢
    rcases patchUnlessEqual_cases d r p (rawRead d r s) with ⟨_, k, _, h⟩ | ⟨_, _, k, h⟩ | ⟨_, _, h⟩ | ⟨hf, h⟩ <;>
      rw [h] at ho ⊢
    · simpa using k
    · exact absurd k ht
    · rw [writeVerify_known ho]; exact ⟨rfl, overlay_idem ..⟩
    · simp [hf] at ho
  · rw [h] at ho; simp [Report.failure] at ho

/-! ## A loop body, and a loop -/

/-- What a loop of register-level procedures can do: no device state, no chip type, and no shadow entry made valid but in an
Initialised bus device. -/
structure LoopFrame (s t : State) : Prop extends ProcFrame s t where
  phases : ∀ e, (t.dev e).phase = (s.dev e).phase
  chipTypes : ∀ e, (t.dev e).chipType = (s.dev e).chipType
  backed : ∀ e q, (t.entry e q).valid = true →
    (s.entry e q).valid = true ∨ (s.healthy e = true ∧ (s.devCfg e).noI2C = false)

theorem LoopFrame.refl (s : State) : LoopFrame s s :=
  ⟨.refl s, fun _ => rfl, fun _ => rfl, fun _ _ h => .inl h⟩

theorem LoopFrame.healthy {s t : State} (h : LoopFrame s t) (e : DevIx) : t.healthy e = s.healthy e := by
  unfold State.healthy; rw [h.phases e]

theorem LoopFrame.initSuccess {s t : State} (h : LoopFrame s t) : t.initSuccess = s.initSuccess := by
  unfold State.initSuccess
  rw [h.devices]
  congr 1
  exact funext h.healthy

theorem LoopFrame.trans {s t u : State} (h : LoopFrame s t) (k : LoopFrame t u) : LoopFrame s u := by
  refine ⟨h.toProcFrame.trans k.toProcFrame, fun e => (k.phases e).trans (h.phases e),
    fun e => (k.chipTypes e).trans (h.chipTypes e), fun e q hv => ?_⟩
  rcases k.backed e q hv with h1 | ⟨h1, h2⟩
  · exact h.backed e q h1
  · exact .inr ⟨h.healthy e ▸ h1, h.devCfg e ▸ h2⟩

theorem RegFrame.toLoopFrame {d : DevIx} {r : RegAddr} {s t : State} (h : RegFrame d r s t)
    (hb : (t.entry d r).valid = true →
      (s.entry d r).valid = true ∨ (s.healthy d = true ∧ (s.devCfg d).noI2C = false)) : LoopFrame s t := by
  refine ⟨h.toProcFrame, h.phases, h.chipTypes, fun e q hv => ?_⟩
  by_cases he : e = d ∧ q = r
  · obtain ⟨rfl, rfl⟩ := he; exact hb hv
  · have : e ≠ d ∨ q ≠ r := by
      by_cases h1 : e = d
      · exact .inr fun h2 => he ⟨h1, h2⟩
      · exact .inl h1
    rw [h.entry_other e q this] at hv
    exact .inl hv

/-- A loop body on device d, of at most n transactions. -/
structure BodySpec (d : DevIx) (n : Nat) (s : State) (x : Report × State) : Prop where
  frame : LoopFrame s x.2
  others : ∀ e, e ≠ d → x.2.dev e = s.dev e
  count : busCount x.2 ≤ busCount s + n

theorem WriteSpec.toBodySpec {d : DevIx} {r : RegAddr} {n : Nat} {s : State} {x : WriteResult × State}
    (h : WriteSpec d r n s x)
    (hb : (x.2.entry d r).valid = true →
      (s.entry d r).valid = true ∨ (s.healthy d = true ∧ (s.devCfg d).noI2C = false)) :
    BodySpec d n s (x.1.rep, x.2) :=
  ⟨h.frame.toLoopFrame hb, h.frame.others, h.count⟩

theorem bitsCore_body (d : DevIx) (r : RegAddr) (p : Pattern) (s : State) :
    BodySpec d 3 s ((bitsCore d r p s).1.rep, (bitsCore d r p s).2) :=
  (bitsCore_spec d r p s).toBodySpec bitsCore_backed

theorem wrCore_body (d : DevIx) (r : RegAddr) (v : Byte) (s : State) :
    BodySpec d 3 s ((wrCore d r v s).1.rep, (wrCore d r v s).2) :=
  (wrCore_spec d r v s).toBodySpec wrCore_backed

theorem muteProc_body (d : DevIx) (s : State) : BodySpec d 3 s (muteEach.muteProc' d s) := bitsCore_body ..
theorem unmuteProc_body (d : DevIx) (s : State) : BodySpec d 3 s (unmuteEach.unmuteProc' d s) := bitsCore_body ..
theorem attenProc_body (v : Byte) (d : DevIx) (s : State) : BodySpec d 3 s (attenEach.attenProc' v d s) := wrCore_body ..

theorem inputProc_body (sel : Byte) (d : DevIx) (s : State) : BodySpec d 3 s (inputEach.inputProc' sel d s) := by
  unfold inputEach.inputProc' inputProc
  split
  · exact bitsCore_body ..
  · exact ⟨.refl s, fun _ _ => rfl, Nat.le_add_right ..⟩

/-- The bit of a device mask. -/
theorem getLsbD_failBit (ok : Bool) (d : DevIx) (n : Nat) :
    (failBit ok d).getLsbD n = (!ok && decide (n = d.val)) := by
  cases ok
  · simp only [failBit, devBit, Bool.false_eq_true, if_false, Bool.not_false, Bool.true_and]
    rw [BitVec.getLsbD_shiftLeft]
    have := d.isLt
    by_cases h : n = d.val
    · subst h; simp [this]
    · by_cases h1 : n < 16 <;> by_cases h2 : n < d.val <;> simp [h, h1, h2]
      omega
  · simp [failBit]

/-- Everything a loop can do. -/
structure LoopSpec (l : List DevIx) (n : Nat) (s : State) (x : DevMask × State) : Prop where
  frame : LoopFrame s x.2
  others : ∀ e, e ∉ l → x.2.dev e = s.dev e
  count : busCount x.2 ≤ busCount s + n * l.length
  mask : ∀ i, x.1.getLsbD i = true → ∃ d ∈ l, d.val = i

theorem forEach_spec {f : DevIx → State → Report × State} {n : Nat} (hf : ∀ d s, BodySpec d n s (f d s)) :
    ∀ (l : List DevIx) (s : State), LoopSpec l n s (forEach f l s)
  | [], s => ⟨.refl s, fun _ _ => rfl, by simp [forEach], by simp [forEach]⟩
  | d :: ds, s => by
    have h := hf d s
    have k := forEach_spec hf ds (f d s).2
    refine ⟨h.frame.trans k.frame, fun e he => ?_, ?_, fun i hi => ?_⟩
    · rw [List.mem_cons, not_or] at he
      exact (k.others e he.2).trans (h.others e he.1)
    · have h1 := h.count
      have h2 := k.count
      simp only [forEach, List.length_cons, Nat.mul_succ]
      omega
    · simp only [forEach, BitVec.getLsbD_or, getLsbD_failBit, Bool.or_eq_true, Bool.and_eq_true,
        decide_eq_true_eq] at hi
      rcases hi with ⟨_, hi⟩ | hi
      · exact ⟨d, List.mem_cons_self, hi.symm⟩
      · obtain ⟨e, he, hv⟩ := k.mask i hi
        exact ⟨e, List.mem_cons_of_mem _ he, hv⟩

/-- A loop reaches every listed device, once: the device's bit says whether its body failed, and its device is what that body
left. The body ran in a state that differs from the first one in other devices alone. -/
theorem forEach_reaches {f : DevIx → State → Report × State} {n : Nat} (hf : ∀ d s, BodySpec d n s (f d s)) :
    ∀ (l : List DevIx) (s : State), l.Nodup → ∀ d ∈ l, ∃ t, LoopFrame s t ∧ t.dev d = s.dev d ∧
      (forEach f l s).1.getLsbD d.val = !(f d t).1.ok ∧ (forEach f l s).2.dev d = (f d t).2.dev d
  | [], _, _, _, hd => by simp at hd
  | e :: es, s, hl, d, hd => by
    have hl := List.nodup_cons.mp hl
    have h := hf e s
    have k := forEach_spec hf es (f e s).2
    by_cases hde : d = e
    · subst hde
      refine ⟨s, .refl s, rfl, ?_, k.others d hl.1⟩
      have : (forEach f es (f d s).2).1.getLsbD d.val = false := by
        by_contra hc
        obtain ⟨g, hg, hv⟩ := k.mask d.val (by simpa using hc)
        exact hl.1 (Fin.ext hv ▸ hg)
      rw [forEach, BitVec.getLsbD_or, getLsbD_failBit, this]
      simp
    · have hd' : d ∈ es := (List.mem_cons.mp hd).resolve_left hde
      obtain ⟨t, ht, h1, h2, h3⟩ := forEach_reaches hf es (f e s).2 hl.2 d hd'
      refine ⟨t, h.frame.trans ht, h1.trans (h.others d hde), ?_, h3⟩
      have : d.val ≠ e.val := fun hv => hde (Fin.ext hv)
      rw [forEach, BitVec.getLsbD_or, getLsbD_failBit, h2]
      simp [this]

theorem State.devices_nodup (s : State) : s.devices.Nodup := List.Nodup.filter _ (by decide)

theorem State.devices_length (s : State) (h : s.nDev ≤ 16) : s.devices.length = s.nDev := by
  unfold State.devices
  generalize s.nDev = n at h
  interval_cases n <;> rfl

/-- N_DEV is 1..16 (D48). -/
theorem State.nDev_range (s : State) : 1 ≤ s.nDev ∧ s.nDev ≤ 16 := by
  have h := s.board.wf
  simp only [Config.Cfg.wf, Config.Cfg.countOk, Bool.and_eq_true, decide_eq_true_eq] at h
  exact h.1.1.1.1.1.1.1.1.1

/-! ## The status loops -/

/-- A gated read leaves every device as it is. -/
theorem LoopFrame.of_devs {s t : State} (h : ProcFrame s t) (hd : t.devs = s.devs) : LoopFrame s t := by
  have he : ∀ e, t.dev e = s.dev e := fun e => by unfold State.dev; rw [hd]
  refine ⟨h, fun e => by rw [he], fun e => by rw [he], fun e q hv => .inl ?_⟩
  unfold State.entry at hv ⊢
  rwa [he] at hv

/-- What a status loop can do: reads alone. -/
structure ReadLoop (l : List DevIx) (s t : State) (m : DevMask) : Prop where
  frame : ProcFrame s t
  devs : t.devs = s.devs
  count : busCount t ≤ busCount s + l.length
  mask : ∀ i, m.getLsbD i = true → ∃ d ∈ l, d.val = i

theorem ReadLoop.cons {d : DevIx} {ds : List DevIx} {s t u : State} {e : Bool} {m : DevMask} (h : ProcFrame s t)
    (hd : t.devs = s.devs) (hc : busCount t ≤ busCount s + 1) (k : ReadLoop ds t u m) :
    ReadLoop (d :: ds) s u ((if e then devBit d else 0#16) ||| m) := by
  refine ⟨h.trans k.frame, k.devs.trans hd, ?_, fun i hi => ?_⟩
  · have := k.count
    simp only [List.length_cons]; omega
  · rw [BitVec.getLsbD_or, Bool.or_eq_true] at hi
    rcases hi with hi | hi
    · refine ⟨d, List.mem_cons_self, ?_⟩
      have hb : (if e then devBit d else 0#16) = failBit (!e) d := by cases e <;> rfl
      rw [hb, getLsbD_failBit] at hi
      simp only [Bool.and_eq_true, decide_eq_true_eq] at hi
      exact hi.2.symm
    · obtain ⟨g, hg, hv⟩ := k.mask i hi
      exact ⟨g, List.mem_cons_of_mem _ hg, hv⟩

theorem automuteAggregate_spec : ∀ (l : List DevIx) (s : State),
    ReadLoop l s (automuteAggregate l s).2.2 (automuteAggregate l s).1
  | [], s => ⟨.refl s, rfl, by simp [automuteAggregate], by simp [automuteAggregate]⟩
  | d :: ds, s => (automuteAggregate_spec ds _).cons (automutedProc_regFrame d s).toProcFrame (devs_automutedProc d s)
      (busCount_rdCore ..)

theorem lockAggregate_spec : ∀ (l : List DevIx) (s : State),
    ReadLoop l s (lockAggregate l s).2.2 (lockAggregate l s).1
  | [], s => ⟨.refl s, rfl, by simp [lockAggregate], by simp [lockAggregate]⟩
  | d :: ds, s => (lockAggregate_spec ds _).cons (lockedProc_regFrame d s).toProcFrame (devs_lockedProc d s)
      (busCount_rdCore ..)

/-- A status bit is 1 only where the read arrived (R160). -/
theorem statusResultOf_exclusive (n : Nat) (x : ReadResult) :
    ((statusResultOf n x).bit && (statusResultOf n x).readErr) = false := by
  unfold statusResultOf
  cases x.rep.ok <;> simp

/-- The bits of a device's part of the lock bitmask (R214). -/
theorem getLsbD_lockBits (n : Nat) (d : DevIx) (x : StatusResult) (i : Nat) (hd : d.val < n) (hn : n ≤ 16) :
    (lockBits n d x).getLsbD i = ((x.bit && decide (i = d.val)) || (x.readErr && decide (i = d.val + n))) := by
  unfold lockBits
  rw [BitVec.getLsbD_or, BitVec.getLsbD_shiftLeft, BitVec.getLsbD_shiftLeft, BitVec.getLsbD_setWidth,
    BitVec.getLsbD_setWidth, BitVec.getLsbD_ofBool, BitVec.getLsbD_ofBool]
  have h1 := d.isLt
  by_cases hi : i = d.val
  · subst hi
    have : d.val < d.val + n := by omega
    have h2 : d.val < 32 := by omega
    have h3 : d.val ≠ d.val + n := by omega
    have h4 : 0 < n := by omega
    simp [this, h2]; omega
  · by_cases hj : i = d.val + n
    · subst hj
      have h3 : ¬(d.val + n < d.val) := by omega
      have h4 : d.val + n < 32 := by omega
      have h5 : n ≠ 0 := by omega
      simp [h4, h5]
    · have h6 : i < d.val ∨ i - d.val ≠ 0 := by omega
      have h7 : i < d.val + n ∨ i - (d.val + n) ≠ 0 := by omega
      rcases h6 with h6 | h6 <;> rcases h7 with h7 | h7 <;> simp [h6, h7, hi, hj]

/-! ## Initialisation -/

theorem State.entry_dropShadowAll (s : State) (d : DevIx) (q : RegAddr) :
    (s.dropShadowAll d).entry d q = { s.entry d q with valid := false } := by
  simp [State.dropShadowAll, State.entry]

@[simp] theorem State.dev_setPhase_self (s : State) (d : DevIx) (p : DevPhase) :
    (s.setPhase d p).dev d = { s.dev d with phase := p } := s.dev_setDev_self ..
@[simp] theorem State.dev_setChipType_self (s : State) (d : DevIx) (t : BitVec 2) :
    (s.setChipType d t).dev d = { s.dev d with chipType := t } := s.dev_setDev_self ..
@[simp] theorem State.dev_dropShadowAll_self (s : State) (d : DevIx) :
    (s.dropShadowAll d).dev d = (s.dev d).dropAll := s.dev_setDev_self ..

/-- A procedure on device d alone. -/
structure DevFrame (d : DevIx) (s t : State) : Prop extends ProcFrame s t where
  others : ∀ e, e ≠ d → t.dev e = s.dev e

theorem DevFrame.refl (d : DevIx) (s : State) : DevFrame d s s := ⟨.refl s, fun _ _ => rfl⟩

theorem DevFrame.trans {d : DevIx} {s t u : State} (h : DevFrame d s t) (k : DevFrame d t u) : DevFrame d s u :=
  ⟨h.toProcFrame.trans k.toProcFrame, fun e he => (k.others e he).trans (h.others e he)⟩

theorem setDev_devFrame (s : State) (d : DevIx) (x : Device) : DevFrame d s (s.setDev d x) :=
  ⟨setDev_procFrame s d x, fun e he => s.dev_setDev_ne d e x (Ne.symm he)⟩

theorem RegFrame.toDevFrame {d : DevIx} {r : RegAddr} {s t : State} (h : RegFrame d r s t) : DevFrame d s t :=
  ⟨h.toProcFrame, h.others⟩

/-- ResetProc (R155). -/
theorem resetProc_spec (d : DevIx) (s : State) :
    DevFrame d s (resetProc d s) ∧ ((resetProc d s).dev d).phase = .uninitialised ∧
      ((resetProc d s).dev d).chipType = (s.dev d).chipType ∧ (∀ q, ((resetProc d s).entry d q).valid = false) ∧
      busCount (resetProc d s) = busCount s ∧ (resetProc d s).env = s.env := by
  refine ⟨(setDev_devFrame ..).trans (setDev_devFrame ..), ?_, ?_, fun q => ?_, rfl, rfl⟩
  · simp [resetProc]
  · simp [resetProc]
  · simp [resetProc, State.entry_dropShadowAll]

/-- The identification type is one of ID_MAP's, or 0 (D48: never 3). -/
theorem idChipType_ne_three : ∀ (l : List (Byte × BitVec 2)) (id : Byte), (l.all fun e => e.2 != 3#2) = true →
    idChipType l id ≠ 3#2
  | [], _, _ => by unfold idChipType; decide
  | (b, t) :: rest, id, h => by
    simp only [List.all_cons, Bool.and_eq_true, bne_iff_ne, ne_eq] at h
    unfold idChipType
    split
    · exact h.1
    · exact idChipType_ne_three rest id (by simpa using h.2)

/-- The chip types of a configuration are never 3, and the noI2C type is 1 or 2 (D48). -/
theorem State.chipTypes_known (s : State) (d : DevIx) (id : Byte) :
    idChipType (s.layout d).idMap id ≠ 3#2 ∧ s.cfg.noI2CChipType ≠ 3#2 := by
  have h := s.board.wf
  simp only [Config.Cfg.wf, Bool.and_eq_true] at h
  obtain ⟨⟨⟨⟨⟨⟨⟨⟨⟨_, _⟩, _⟩, _⟩, h1⟩, h2⟩, _⟩, _⟩, h3⟩, _⟩ := h
  constructor
  · unfold State.layout Config.Cfg.layout
    split
    · exact idChipType_ne_three _ _ h1
    · exact idChipType_ne_three _ _ h2
  · simp only [Config.Cfg.noI2CTypeOk, Bool.or_eq_true, beq_iff_eq] at h3
    intro hc
    unfold State.cfg at hc
    rcases h3 with h3 | h3 <;> rw [h3] at hc <;> exact absurd hc (by decide)

/-- Everything InitProc can do (R150): it succeeds and the device is Initialised, or it fails and the device is Uninitialised with
an invalid shadow. -/
structure InitSpec (d : DevIx) (n : Nat) (s : State) (x : InitResult × State) : Prop where
  frame : DevFrame d s x.2
  report : x.1.rep.Consistent
  count : busCount x.2 ≤ busCount s + n
  outcome : (x.1.rep.ok = true ∧ (x.2.dev d).phase = .initialised) ∨
    (x.1.rep.ok = false ∧ (x.2.dev d).phase = .uninitialised ∧ ∀ q, (x.2.entry d q).valid = false)
  backed : ∀ q, (x.2.entry d q).valid = true → (s.devCfg d).noI2C = false
  chipType : (s.dev d).chipType ≠ 3#2 → (x.2.dev d).chipType ≠ 3#2 ∧ x.1.ct ≠ 3#2

theorem InitSpec.mono {d : DevIx} {m n : Nat} {s t : State} {x : InitResult × State} (h : InitSpec d m t x)
    (f : DevFrame d s t) (c : busCount t + m ≤ busCount s + n)
    (k : (s.dev d).chipType ≠ 3#2 → (t.dev d).chipType ≠ 3#2) : InitSpec d n s x :=
  ⟨f.trans h.frame, h.report, h.count.trans c, h.outcome, fun q hq => f.devCfg d ▸ h.backed q hq,
    fun hc => h.chipType (k hc)⟩

/-- Rolling back ends InitProc with a failure (R150). -/
theorem rollback_spec (d : DevIx) (id : Byte) (t : BitVec 2) (rep : Report) (s : State) (hr : rep.Consistent)
    (ho : rep.ok = false) (ht : t ≠ 3#2) : InitSpec d 0 s ({ rep := rep, idb := id, ct := t }, resetProc d s) := by
  obtain ⟨f, h1, h2, h3, h4, _⟩ := resetProc_spec d s
  exact ⟨f, hr, Nat.le_of_eq h4, .inr ⟨ho, h1, h3⟩, fun q hq => by simp [h3 q] at hq, fun hc => ⟨h2 ▸ hc, ht⟩⟩

theorem initPhasePatch_spec (d : DevIx) (id : Byte) (t : BitVec 2) (x : WriteResult × State) (hx : x.1.rep.Consistent)
    (hn : (x.2.devCfg d).noI2C = false) (hp : (x.2.dev d).phase = .initialised) (ht : t ≠ 3#2) :
    InitSpec d 3 x.2 (initPhasePatch d id t x) := by
  unfold initPhasePatch
  split
  · have h := bitsCore_spec d (x.2.layout d).phaseReg (x.2.phasePattern d) x.2
    dsimp only
    split
    · refine ⟨h.frame.toDevFrame, Report.success_consistent, h.count, .inl ⟨rfl, h.frame.phase.trans hp⟩,
        fun _ _ => hn, fun hc => ⟨h.frame.chipType ▸ hc, ht⟩⟩
    · next ho =>
      exact (rollback_spec d id t _ _ h.report (by simpa using ho) ht).mono h.frame.toDevFrame h.count
        (fun hc => h.frame.chipType ▸ hc)
  · next ho =>
    exact (rollback_spec d id t _ _ hx (by simpa using ho) ht).mono (.refl d _) (by omega) (fun h => h)

theorem initIdentified_spec (d : DevIx) (id : Byte) (s : State) (hn : (s.devCfg d).noI2C = false)
    (hs : ∀ q, (s.entry d q).valid = false) : InitSpec d 6 s (initIdentified d id s) := by
  unfold initIdentified
  split
  · refine ⟨(setDev_devFrame ..).trans (setDev_devFrame ..), Report.failure_consistent _ (by decide) (by decide),
      Nat.le_add_right _ 6, .inr ⟨rfl, by simp, fun q => ?_⟩, fun q hq => hn, fun _ => ⟨by simp, by simp⟩⟩
    have : ((s.setChipType d 0#2).setPhase d .uninitialised).entry d q = s.entry d q := by
      simp [State.entry, Device.entry]
    rw [this, hs]
  · generalize ht : idChipType (s.layout d).idMap id = t
    have h3 : t ≠ 3#2 := ht ▸ (s.chipTypes_known d id).1
    have f : DevFrame d s ((s.setChipType d t).setPhase d .initialised) :=
      (setDev_devFrame ..).trans (setDev_devFrame ..)
    have h := bitsCore_spec d (s.layout d).modeReg (s.modePattern d) ((s.setChipType d t).setPhase d .initialised)
    refine (initPhasePatch_spec d id t _ h.report ?_ ?_ h3).mono (f.trans h.frame.toDevFrame) ?_ ?_
    · rw [h.frame.devCfg, f.devCfg, hn]
    · rw [h.frame.phase]; simp
    · have : busCount ((s.setChipType d t).setPhase d .initialised) = busCount s := rfl
      have := h.count
      omega
    · intro _; rw [h.frame.chipType]; simpa using h3

theorem initProc_spec (d : DevIx) (s : State) : InitSpec d 7 s (initProc d s) := by
  unfold initProc
  split
  · next hn =>
    refine ⟨((setDev_devFrame ..).trans (setDev_devFrame ..)).trans (setDev_devFrame ..), Report.success_consistent,
      Nat.le_add_right _ 7, .inl ⟨rfl, by simp⟩, fun q hq => ?_, fun _ => ⟨?_, (s.chipTypes_known d 0#8).2⟩⟩
    · simp [State.entry_dropShadowAll] at hq
    · simpa using (s.chipTypes_known d 0#8).2
  · next hn =>
    have hn : (s.devCfg d).noI2C = false := by simpa using hn
    have f : DevFrame d s ((s.setPhase d .initialising).dropShadowAll d) :=
      (setDev_devFrame ..).trans (setDev_devFrame ..)
    have g : DevFrame d s (rawRead d (s.layout d).idReg ((s.setPhase d .initialising).dropShadowAll d)).2 :=
      f.trans (rawRead_regFrame ..).toDevFrame
    have hs : ∀ q, ((rawRead d (s.layout d).idReg ((s.setPhase d .initialising).dropShadowAll d)).2.entry d q).valid =
        false := fun q => by
      have : ((s.setPhase d .initialising).dropShadowAll d).entry d q = _ := State.entry_dropShadowAll ..
      exact congrArg ShadowEntry.valid this
    have hc : ((rawRead d (s.layout d).idReg ((s.setPhase d .initialising).dropShadowAll d)).2.dev d).chipType =
        (s.dev d).chipType := by simp
    have hb : busCount (rawRead d (s.layout d).idReg ((s.setPhase d .initialising).dropShadowAll d)).2 =
        busCount s + 1 := busCount_rawRead ..
    unfold initAfterId
    split
    · exact (initIdentified_spec d _ _ (by rw [g.devCfg, hn]) hs).mono g (by omega) (fun h => hc ▸ h)
    · next ho =>
      refine ⟨g.trans (setDev_devFrame ..), rawRead_consistent .., ?_, .inr ⟨by simpa using ho, by simp, fun q => ?_⟩,
        fun _ _ => hn, fun h => ⟨by simpa using h, hc ▸ h⟩⟩
      · exact Nat.le_trans (Nat.le_of_eq hb) (by omega)
      · exact (congrArg ShadowEntry.valid (by simp [State.entry, Device.entry, State.setPhase])).trans (hs q)

/-- What an initialisation pass over the listed devices can do (R201): a device stays Initialised, and one that is not ends
Initialised or Uninitialised with nothing known. -/
structure PassSpec (l : List DevIx) (n : Nat) (s t : State) : Prop where
  frame : ProcFrame s t
  others : ∀ e, e ∉ l ∨ s.healthy e = true → t.dev e = s.dev e
  count : busCount t ≤ busCount s + n
  reached : ∀ e, t.dev e = s.dev e ∨ (t.dev e).phase = .initialised ∨
    ((t.dev e).phase = .uninitialised ∧ ∀ q, (t.entry e q).valid = false)
  backed : ∀ e q, (t.entry e q).valid = true → (s.entry e q).valid = true ∨ (s.devCfg e).noI2C = false
  chipType : (∀ e, (s.dev e).chipType ≠ 3#2) → ∀ e, (t.dev e).chipType ≠ 3#2

theorem PassSpec.refl (l : List DevIx) (s : State) : PassSpec l 0 s s :=
  ⟨.refl s, fun _ _ => rfl, by omega, fun _ => .inl rfl, fun _ _ h => .inl h, fun h => h⟩

theorem PassSpec.healthy {l : List DevIx} {n : Nat} {s t : State} (h : PassSpec l n s t) (e : DevIx)
    (he : s.healthy e = true) : t.healthy e = true := by
  unfold State.healthy at he ⊢
  rwa [h.others e (.inr he)]

theorem PassSpec.trans {l : List DevIx} {m n : Nat} {s t u : State} (h : PassSpec l m s t) (k : PassSpec l n t u) :
    PassSpec l (m + n) s u := by
  refine ⟨h.frame.trans k.frame, fun e he => ?_, ?_, fun e => ?_, fun e q hv => ?_, fun hc => k.chipType (h.chipType hc)⟩
  · rw [k.others e (he.imp_right (h.healthy e)), h.others e he]
  · have := h.count; have := k.count; omega
  · rcases k.reached e with h1 | h1
    · have he : ∀ q, u.entry e q = t.entry e q := fun q => by unfold State.entry; rw [h1]
      rw [h1]
      rcases h.reached e with h2 | h2 | ⟨h2, h3⟩
      · exact .inl h2
      · exact .inr (.inl h2)
      · exact .inr (.inr ⟨h2, fun q => by rw [he, h3]⟩)
    · exact .inr h1
  · rcases k.backed e q hv with h1 | h1
    · exact h.backed e q h1
    · exact .inr (h.frame.devCfg e ▸ h1)

theorem InitSpec.toPass {d : DevIx} {s : State} (l : List DevIx) (hd : d ∈ l) (hh : s.healthy d = false)
    (h : InitSpec d 7 s (initProc d s)) : PassSpec l 7 s (initProc d s).2 := by
  have ho : ∀ e, e ≠ d → (∀ q, (initProc d s).2.entry e q = s.entry e q) := fun e he q => by
    unfold State.entry; rw [h.frame.others e he]
  refine ⟨h.frame.toProcFrame, fun e he => h.frame.others e fun hed => ?_, h.count, fun e => ?_, fun e q hv => ?_,
    fun hc e => ?_⟩
  · subst hed
    rcases he with he | he
    · exact he hd
    · simp [hh] at he
  · by_cases he : e = d
    · subst he
      exact .inr (h.outcome.imp (fun h => h.2) (fun h => h.2))
    · exact .inl (h.frame.others e he)
  · by_cases he : e = d
    · subst he; exact .inr (h.backed q hv)
    · exact .inl (ho e he q ▸ hv)
  · by_cases he : e = d
    · subst he; exact (h.chipType (hc e)).1
    · rw [h.frame.others e he]; exact hc e

theorem initPass_spec (m : List DevIx) : ∀ (l : List DevIx), (∀ e ∈ l, e ∈ m) → ∀ s : State,
    PassSpec m (7 * l.length) s (initPass l s)
  | [], _, s => .refl m s
  | d :: ds, hl, s => by
    have hd := hl d List.mem_cons_self
    have hds : ∀ e ∈ ds, e ∈ m := fun e he => hl e (List.mem_cons_of_mem _ he)
    unfold initPass
    rw [List.length_cons, Nat.mul_succ, Nat.add_comm]
    split
    · have h : PassSpec m 7 s s := { PassSpec.refl m s with count := Nat.le_add_right _ 7 }
      exact h.trans (initPass_spec m ds hds s)
    · next hh => exact ((initProc_spec d s).toPass m hd (by simpa using hh)).trans (initPass_spec m ds hds _)

theorem initPasses_spec : ∀ (n : Nat) (s : State), PassSpec s.devices (7 * s.devices.length * n) s (initPasses n s)
  | 0, s => .refl _ s
  | n + 1, s => by
    unfold initPasses
    split
    · exact { PassSpec.refl s.devices s with count := Nat.le_add_right _ _ }
    · have h := initPass_spec s.devices s.devices (fun _ h => h) s
      have k := initPasses_spec n (initPass s.devices s)
      rw [h.frame.devices] at k
      rw [Nat.mul_succ, Nat.add_comm]
      exact h.trans k

end Sys2Proof.Machine
end

