-- ==== Sys2Proof/Laws/Agree.lean ====
section
/-! SUPPORT. What the device procedures read: the configuration, the devices and the oracle's answers, nothing else of the state. Two
states that agree there give the same result, end in states that agree there, and append the same actions to their traces. -/

namespace Sys2Proof.Machine

/-- `s` and `t` agree on all a device procedure reads; the trace of `s` is that of `t` with `pre` before it. -/
structure Agree (pre : List Action) (s t : State) : Prop where
  board : s.board = t.board
  devs : s.devs = t.devs
  reads : s.env.reads = t.env.reads
  writes : s.env.writes = t.env.writes
  busTurn : s.env.busTurn = t.env.busTurn
  trace : s.env.trace = pre ++ t.env.trace

/-- The same result, and states that still agree. -/
def Agrees {α : Type} (pre : List Action) (x y : α × State) : Prop := x.1 = y.1 ∧ Agree pre x.2 y.2

namespace Agree
variable {pre : List Action} {s t : State}

theorem dev (h : Agree pre s t) (d : DevIx) : s.dev d = t.dev d := by unfold State.dev; rw [h.devs]
theorem healthy (h : Agree pre s t) (d : DevIx) : s.healthy d = t.healthy d := by unfold State.healthy; rw [h.dev]
theorem entry (h : Agree pre s t) (d : DevIx) (r : RegAddr) : s.entry d r = t.entry d r := by unfold State.entry; rw [h.dev]
theorem cfg (h : Agree pre s t) : s.cfg = t.cfg := congrArg Config.Board.cfg h.board
theorem devCfg (h : Agree pre s t) (d : DevIx) : s.devCfg d = t.devCfg d := State.devCfg_congr h.board d
theorem layout (h : Agree pre s t) (d : DevIx) : s.layout d = t.layout d := State.layout_congr h.board d
theorem devices (h : Agree pre s t) : s.devices = t.devices := State.devices_congr h.board
theorem modePattern (h : Agree pre s t) (d : DevIx) : s.modePattern d = t.modePattern d := by
  unfold State.modePattern; rw [h.layout, h.devCfg]
theorem phasePattern (h : Agree pre s t) (d : DevIx) : s.phasePattern d = t.phasePattern d := by
  unfold State.phasePattern; rw [h.layout, h.devCfg]
theorem initSuccess (h : Agree pre s t) : s.initSuccess = t.initSuccess := by
  unfold State.initSuccess; rw [h.devices, funext h.healthy]

theorem setDev (h : Agree pre s t) (d : DevIx) {x y : Device} (hx : x = y) : Agree pre (s.setDev d x) (t.setDev d y) := by
  subst hx
  exact ⟨h.board, by simp only [State.setDev, h.devs], h.reads, h.writes, h.busTurn, h.trace⟩
theorem setPhase (h : Agree pre s t) (d : DevIx) (p : DevPhase) : Agree pre (s.setPhase d p) (t.setPhase d p) :=
  h.setDev d (by rw [h.dev])
theorem setChipType (h : Agree pre s t) (d : DevIx) (c : BitVec 2) : Agree pre (s.setChipType d c) (t.setChipType d c) :=
  h.setDev d (by rw [h.dev])
theorem setShadow (h : Agree pre s t) (d : DevIx) (r : RegAddr) (v : Byte) :
    Agree pre (s.setShadow d r v) (t.setShadow d r v) := h.setDev d (by rw [h.dev])
theorem dropShadow (h : Agree pre s t) (d : DevIx) (r : RegAddr) : Agree pre (s.dropShadow d r) (t.dropShadow d r) :=
  h.setDev d (by rw [h.dev])
theorem dropShadowAll (h : Agree pre s t) (d : DevIx) : Agree pre (s.dropShadowAll d) (t.dropShadowAll d) :=
  h.setDev d (by rw [h.dev])

theorem busRead (h : Agree pre s t) (a : BusAddr) (r : RegAddr) :
    Agrees pre (Machine.busRead a r s) (Machine.busRead a r t) := by
  obtain ⟨hb, hd, hr, hw, hn, ht⟩ := h
  unfold Machine.busRead nextReadAnswer
  rw [hr]
  cases t.env.reads with
  | nil => exact ⟨by simp only [hn], hb, hd, by simp [State.record], hw, by simp [State.record, hn],
      by simp [State.record, ht, hn]⟩
  | cons x rest => exact ⟨rfl, hb, hd, rfl, hw, hn, by simp [State.record, ht]⟩

theorem busWrite (h : Agree pre s t) (a : BusAddr) (r : RegAddr) (v : Byte) :
    Agrees pre (Machine.busWrite a r v s) (Machine.busWrite a r v t) := by
  obtain ⟨hb, hd, hr, hw, hn, ht⟩ := h
  unfold Machine.busWrite nextWriteAnswer
  rw [hw]
  cases t.env.writes with
  | nil => exact ⟨by simp only [hn], hb, hd, hr, by simp [State.record], by simp [State.record, hn],
      by simp [State.record, ht, hn]⟩
  | cons x rest => exact ⟨rfl, hb, hd, hr, rfl, hn, by simp [State.record, ht]⟩

theorem rawRead (h : Agree pre s t) (d : DevIx) (r : RegAddr) :
    Agrees pre (Machine.rawRead d r s) (Machine.rawRead d r t) := by
  have k := h.busRead (t.devCfg d).addr r
  unfold Machine.rawRead
  rw [h.devCfg]
  exact ⟨congrArg readResultOf k.1, k.2⟩

theorem verifyOutcome {x y : ReadResult × State} (h : Agrees pre x y) (d : DevIx) (r : RegAddr) (v : Byte) :
    Agrees pre (Machine.verifyOutcome d r v x) (Machine.verifyOutcome d r v y) := by
  obtain ⟨h1, h2⟩ := h
  unfold Machine.verifyOutcome
  rw [h1]
  split
  · split
    · exact ⟨rfl, h2.setShadow d r v⟩
    · exact ⟨rfl, h2.dropShadow d r⟩
  · exact ⟨rfl, h2.dropShadow d r⟩

theorem writeVerify (h : Agree pre s t) (d : DevIx) (r : RegAddr) (v : Byte) :
    Agrees pre (Machine.writeVerify d r v s) (Machine.writeVerify d r v t) := by
  have k := h.busWrite (t.devCfg d).addr r v
  unfold Machine.writeVerify
  rw [h.devCfg]
  rcases hx : Machine.busWrite (t.devCfg d).addr r v s with ⟨a, s1⟩
  rcases hy : Machine.busWrite (t.devCfg d).addr r v t with ⟨b, t1⟩
  rw [hx, hy] at k
  obtain ⟨h1, h2⟩ := k
  cases h1
  cases a with
  | success => exact verifyOutcome (h2.rawRead d r) d r v
  | error c => exact ⟨rfl, h2.dropShadow d r⟩

theorem patchUnlessEqual {x y : ReadResult × State} (h : Agrees pre x y) (d : DevIx) (r : RegAddr) (p : Pattern) :
    Agrees pre (Machine.patchUnlessEqual d r p x) (Machine.patchUnlessEqual d r p y) := by
  obtain ⟨h1, h2⟩ := h
  unfold Machine.patchUnlessEqual
  rw [h1]
  split
  · split
    · refine ⟨rfl, ?_⟩
      dsimp only
      split
      · exact h2.setShadow d r _
      · exact h2
    · exact h2.writeVerify d r _
  · exact ⟨rfl, h2⟩

theorem bitsCore (h : Agree pre s t) (d : DevIx) (r : RegAddr) (p : Pattern) :
    Agrees pre (Machine.bitsCore d r p s) (Machine.bitsCore d r p t) := by
  unfold Machine.bitsCore
  rw [h.devCfg, h.healthy]
  split
  · exact ⟨rfl, h⟩
  · split
    · exact patchUnlessEqual (h.rawRead d r) d r p
    · exact ⟨rfl, h⟩

theorem resetProc (h : Agree pre s t) (d : DevIx) : Agree pre (Machine.resetProc d s) (Machine.resetProc d t) :=
  (h.setPhase d _).dropShadowAll d

theorem initPhasePatch {x y : WriteResult × State} (h : Agrees pre x y) (d : DevIx) (id : Byte) (c : BitVec 2) :
    Agrees pre (Machine.initPhasePatch d id c x) (Machine.initPhasePatch d id c y) := by
  obtain ⟨h1, h2⟩ := h
  have k := h2.bitsCore d (y.2.layout d).phaseReg (y.2.phasePattern d)
  unfold Machine.initPhasePatch
  rw [h1, h2.layout, h2.phasePattern]
  split
  · dsimp only
    rw [k.1]
    split
    · exact ⟨rfl, k.2⟩
    · exact ⟨rfl, k.2.resetProc d⟩
  · exact ⟨rfl, h2.resetProc d⟩

theorem initIdentified (h : Agree pre s t) (d : DevIx) (id : Byte) :
    Agrees pre (Machine.initIdentified d id s) (Machine.initIdentified d id t) := by
  unfold Machine.initIdentified
  rw [h.layout, h.modePattern]
  split
  · exact ⟨rfl, (h.setChipType d _).setPhase d _⟩
  · exact initPhasePatch (((h.setChipType d _).setPhase d _).bitsCore d _ _) d id _

theorem initProc (h : Agree pre s t) (d : DevIx) : Agrees pre (Machine.initProc d s) (Machine.initProc d t) := by
  unfold Machine.initProc
  rw [h.devCfg, h.layout, h.cfg]
  split
  · exact ⟨rfl, ((h.setPhase d _).setChipType d _).dropShadowAll d⟩
  · have k := ((h.setPhase d .initialising).dropShadowAll d).rawRead d (t.layout d).idReg
    unfold Machine.initAfterId
    rw [k.1]
    split
    · exact k.2.initIdentified d _
    · exact ⟨by rw [k.2.dev], k.2.setPhase d _⟩

/-- A loop over devices, where its body does. -/
theorem forEach {f : DevIx → State → Report × State}
    (hf : ∀ d s t, Agree pre s t → Agrees pre (f d s) (f d t)) :
    ∀ (l : List DevIx) {s t : State}, Agree pre s t → Agrees pre (Machine.forEach f l s) (Machine.forEach f l t)
  | [], _, _, h => ⟨rfl, h⟩
  | d :: ds, s, t, h => by
    obtain ⟨h1, h2⟩ := hf d s t h
    obtain ⟨k1, k2⟩ := forEach hf ds h2
    exact ⟨by simp only [Machine.forEach, h1, k1], k2⟩

theorem unmuteEach (h : Agree pre s t) : Agrees pre (Machine.unmuteEach s) (Machine.unmuteEach t) := by
  unfold Machine.unmuteEach
  rw [h.devices]
  refine Agree.forEach (fun d s t h => ?_) _ h
  have k := h.bitsCore d (t.layout d).muteReg (t.layout d).unmutePat
  unfold Machine.unmuteEach.unmuteProc' unmuteProc
  rw [h.layout]
  exact ⟨congrArg WriteResult.rep k.1, k.2⟩

end Agree

end Sys2Proof.Machine
end

