-- ==== Sys2Proof/Laws/Commands.lean ====
section
/-! SUPPORT. What an Engine step can do between its start and its commit, said once for every command. -/

namespace Sys2Proof.Machine

/-! ## Events and pins -/

theorem deliveredBits_append : ∀ a b : List Action, deliveredBits (a ++ b) = deliveredBits a ||| deliveredBits b
  | [], b => by simp [deliveredBits]
  | .ev k true :: a, b => by simp [deliveredBits, deliveredBits_append a b, BitVec.or_assoc]
  | .ev k false :: a, b => by simp [deliveredBits, deliveredBits_append a b]
  | .busRd _ _ _ :: a, b => by simp [deliveredBits, deliveredBits_append a b]
  | .busWr _ _ _ _ :: a, b => by simp [deliveredBits, deliveredBits_append a b]
  | .pin _ _ :: a, b => by simp [deliveredBits, deliveredBits_append a b]

/-- Actions without an event deliver nothing. -/
theorem deliveredBits_of_bus : ∀ a : List Action, (∀ x ∈ a, x.isEvent = false) → deliveredBits a = 0#10
  | [], _ => rfl
  | .ev _ _ :: _, h => by simpa [Action.isEvent] using h _ List.mem_cons_self
  | .busRd _ _ _ :: a, h => deliveredBits_of_bus a fun x hx => h x (List.mem_cons_of_mem _ hx)
  | .busWr _ _ _ _ :: a, h => deliveredBits_of_bus a fun x hx => h x (List.mem_cons_of_mem _ hx)
  | .pin _ _ :: a, h => deliveredBits_of_bus a fun x hx => h x (List.mem_cons_of_mem _ hx)

theorem Action.isEvent_of_isBus {x : Action} (h : x.isBus = true) : x.isEvent = false := by
  cases x <;> simp_all [Action.isBus, Action.isEvent]

/-- An event bit is enabled or not, as a whole (R260). -/
theorem eventBit_and (k : EventKind) (e : EventSet) :
    eventBit k &&& e = if e.getLsbD (eventNumber k) then eventBit k else 0#10 := by
  cases k <;> revert e <;> decide +kernel

/-- What every part of an Engine step keeps (R47, R62), and that the events it fires are in its trace, each with its enable
bit. -/
structure EngFrame (s t : State) : Prop where
  board : t.board = s.board
  status : t.status = s.status
  host : t.host = s.host
  now : t.now = s.now
  lcmd : t.engine.lcmd = s.engine.lcmd
  larg : t.engine.larg = s.engine.larg
  lpow : t.engine.lpow = s.engine.lpow
  schedule : t.env.schedule = s.env.schedule
  turn : t.env.turn = s.env.turn
  readData : t.env.readData = s.env.readData
  trace : ∃ acts : List Action, t.env.trace = s.env.trace ++ acts ∧
    t.engine.fired &&& s.host.eventEnable = (s.engine.fired &&& s.host.eventEnable) ||| deliveredBits acts ∧
    ∀ k b, Action.ev k b ∈ acts → b = s.enabled k

theorem EngFrame.trans {s t u : State} (h : EngFrame s t) (k : EngFrame t u) : EngFrame s u := by
  obtain ⟨a, h1, h2, h3⟩ := h.trace
  obtain ⟨b, k1, k2, k3⟩ := k.trace
  refine ⟨k.board.trans h.board, k.status.trans h.status, k.host.trans h.host, k.now.trans h.now, k.lcmd.trans h.lcmd,
    k.larg.trans h.larg, k.lpow.trans h.lpow, k.schedule.trans h.schedule, k.turn.trans h.turn,
    k.readData.trans h.readData, a ++ b, by rw [k1, h1, List.append_assoc], ?_, fun x y hx => ?_⟩
  · rw [h.host] at k2
    rw [k2, h2, deliveredBits_append, BitVec.or_assoc]
  · rcases List.mem_append.mp hx with hx | hx
    · exact h3 x y hx
    · have := k3 x y hx
      unfold State.enabled at this ⊢
      rwa [h.host] at this

theorem ProcFrame.toEng {s t : State} (h : ProcFrame s t) : EngFrame s t := by
  obtain ⟨a, h1, h2⟩ := h.trace
  have he : ∀ x ∈ a, x.isEvent = false := fun x hx => Action.isEvent_of_isBus (h2 x hx)
  exact ⟨h.board, h.status, h.host, h.now, by rw [h.engine], by rw [h.engine], by rw [h.engine], h.schedule, h.turn,
    h.readData, a, h1, by rw [h.engine, deliveredBits_of_bus a he, BitVec.or_zero],
    fun k b hx => by simpa [Action.isEvent] using he _ hx⟩

/-- A change of the controller's fields alone. -/
theorem setCtl_eng (s : State) (c : Controller) : EngFrame s { s with ctl := c } :=
  ⟨rfl, rfl, rfl, rfl, rfl, rfl, rfl, rfl, rfl, rfl, [], by simp, by simp [deliveredBits], by simp⟩

theorem emit_eng (s : State) (k : EventKind) : EngFrame s (s.emit k) := by
  refine ⟨rfl, rfl, rfl, rfl, rfl, rfl, rfl, rfl, rfl, rfl, [.ev k (s.enabled k)], rfl, ?_, ?_⟩
  · rw [State.emit_engine, BitVec.and_comm, BitVec.and_or_distrib_left, BitVec.and_comm _ s.engine.fired,
      BitVec.and_comm _ (eventBit k), eventBit_and]
    unfold State.enabled
    cases s.host.eventEnable.getLsbD (eventNumber k) <;> simp [deliveredBits]
  · intro x b hx
    simp only [List.mem_singleton, Action.ev.injEq] at hx
    rw [hx.1, hx.2]

theorem setPin_eng (s : State) (p : OutPin) (lv : Bool) : EngFrame s (s.setPin p lv) := by
  have h : EngFrame s (s.setLevel p lv) := by cases p <;> exact setCtl_eng s _
  unfold State.setPin
  split
  · exact h
  · refine h.trans ⟨rfl, rfl, rfl, rfl, rfl, rfl, rfl, rfl, rfl, rfl, [.pin p lv], rfl, ?_, ?_⟩
    · simp [deliveredBits, State.record]
    · simp

/-! ## The parts of the controller commands -/

@[simp] theorem busCount_emit (s : State) (k : EventKind) : busCount (s.emit k) = busCount s := by
  simp [busCount, Action.isBus]

@[simp] theorem busCount_setPin (s : State) (p : OutPin) (lv : Bool) : busCount (s.setPin p lv) = busCount s := by
  unfold State.setPin
  split <;> simp [busCount, Action.isBus]

theorem powerUp_eng (s : State) : EngFrame s (powerUp s) :=
  (((emit_eng s _).trans (setPin_eng _ _ _)).trans (setCtl_eng _ _)).trans (emit_eng _ _)

theorem powerDown_eng (s : State) : EngFrame s (powerDown s) :=
  ((((setPin_eng s _ _).trans (emit_eng _ _)).trans (setPin_eng _ _ _)).trans (setCtl_eng _ _)).trans (emit_eng _ _)

theorem busCount_powerUp (s : State) : busCount (powerUp s) = busCount s := by
  unfold powerUp
  dsimp only
  rw [busCount_emit]
  exact (busCount_setPin ..).trans (busCount_emit ..)

theorem busCount_powerDown (s : State) : busCount (powerDown s) = busCount s := by
  unfold powerDown
  dsimp only
  rw [busCount_emit]
  exact (busCount_setPin ..).trans ((busCount_emit ..).trans (busCount_setPin ..))

/-- ResetProc on the listed devices (R195). -/
theorem resetAll_spec : ∀ (l : List DevIx) (s : State), ProcFrame s (resetAll l s) ∧
    (resetAll l s).env = s.env ∧ (∀ e, e ∉ l → (resetAll l s).dev e = s.dev e) ∧
    (∀ e, ((resetAll l s).dev e).chipType = (s.dev e).chipType) ∧
    (∀ e ∈ l, ((resetAll l s).dev e).phase = .uninitialised ∧ ∀ q, ((resetAll l s).entry e q).valid = false)
  | [], s => ⟨.refl s, rfl, fun _ _ => rfl, fun _ => rfl, fun _ h => by simp at h⟩
  | d :: ds, s => by
    obtain ⟨f, h1, h2, h3, _, h5⟩ := resetProc_spec d s
    obtain ⟨g, k1, k2, k3, k4⟩ := resetAll_spec ds (resetProc d s)
    refine ⟨f.toProcFrame.trans g, k1.trans h5, fun e he => ?_, fun e => (k3 e).trans ?_, fun e he => ?_⟩
    · rw [List.mem_cons, not_or] at he
      exact (k2 e he.2).trans (f.others e he.1)
    · by_cases hed : e = d
      · rw [hed, h2]
      · rw [f.others e hed]
    · by_cases hds : e ∈ ds
      · exact k4 e hds
      · have hed : e = d := (List.mem_cons.mp he).resolve_right hds
        subst hed
        have : ∀ q, (resetAll ds (resetProc e s)).entry e q = (resetProc e s).entry e q := fun q => by
          unfold State.entry; rw [k2 e hds]
        exact ⟨by rw [resetAll, k2 e hds, h1], fun q => by rw [resetAll, this q, h3 q]⟩

/-- The bits of RESULT (R25). -/
theorem getLsbD_resultWord (r : CmdResult) (i : Nat) :
    (resultWord r).getLsbD i =
      if i < 8 then r.data.getLsbD i else if i = 8 then r.locked else if i = 9 then r.readErr
      else if i = 10 then r.automuted else if i = 11 then r.elided
      else if i < 14 then r.chipType.getLsbD (i - 12) else if i < 16 then false
      else r.pollAction.getLsbD (i - 16) := by
  unfold resultWord
  simp only [BitVec.getLsbD_append, BitVec.getLsbD_ofBool, BitVec.getLsbD_zero]
  by_cases h : i < 18
  · interval_cases i <;> simp
  · have h1 : ¬(i < 8) := by omega
    have h2 : 2 ≤ i - 16 := by omega
    have e : ∀ k, k < 18 → i ≠ k := by omega
    have l : ∀ k, k ≤ 18 → ¬ i < k := by omega
    rw [BitVec.getLsbD_of_ge r.pollAction _ h2]
    have : r.pollAction.getLsbD (i - 8 - 1 - 1 - 1 - 1 - 2 - 2) = false := BitVec.getLsbD_of_ge _ _ (by omega)
    have q1 : ¬ i - 8 < 1 := by omega
    have q2 : ¬ i - 8 - 1 < 1 := by omega
    have q3 : ¬ i - 8 - 1 - 1 < 1 := by omega
    have q4 : ¬ i - 8 - 1 - 1 - 1 < 1 := by omega
    have q5 : ¬ i - 8 - 1 - 1 - 1 - 1 < 2 := by omega
    simp only [h1, q1, q2, q3, q4, q5, if_false, this, ite_self,
      e 8 (by omega), e 9 (by omega), e 10 (by omega), e 11 (by omega), l 14 (by omega), l 16 (by omega)]

/-- The two halves of DEV_FAIL_MASK (R37). -/
theorem getLsbD_failWord (p q : DevMask) (i : Nat) :
    (failWord p q).getLsbD i = if i < 16 then p.getLsbD i else q.getLsbD (i - 16) := by
  rw [failWord, BitVec.getLsbD_append]

theorem failWord_eq_zero (p : DevMask) : failWord p 0#16 = 0#32 ↔ p = 0#16 := by
  constructor
  · intro h
    apply BitVec.eq_of_getLsbD_eq
    intro i hi
    have := getLsbD_failWord p 0#16 i
    rw [h, if_pos hi] at this
    simpa using this.symm
  · rintro rfl; rfl

/-- The bits of a device mask (R34, R254). -/
theorem State.getLsbD_maskOf (s : State) (p : DevIx → Bool) (d : DevIx) :
    (s.maskOf p).getLsbD d.val = (decide (d.val < s.nDev) && p d) := by
  rw [State.maskOf, BitVec.getLsbD_ofFnLE]
  simp

/-- The mask of the devices that are not Initialised is 0 exactly at INIT_SUCCESS (R33, R201). -/
theorem State.unhealthyMask_eq_zero (s : State) : s.unhealthyMask = 0#16 ↔ s.initSuccess = true := by
  rw [State.initSuccess, List.all_eq_true]
  constructor
  · intro h d hd
    have := s.getLsbD_maskOf (fun d => !s.healthy d) d
    rw [show s.maskOf (fun d => !s.healthy d) = 0#16 from h] at this
    simpa [(s.mem_devices d).1 hd] using this
  · intro h
    apply BitVec.eq_of_getLsbD_eq
    intro i hi
    have := s.getLsbD_maskOf (fun d => !s.healthy d) ⟨i, hi⟩
    unfold State.unhealthyMask
    rw [show (s.maskOf fun d => !s.healthy d).getLsbD i = _ from this]
    by_cases hn : i < s.nDev
    · simp [h ⟨i, hi⟩ ((s.mem_devices _).2 hn)]
    · simp [hn]

/-- The verdict: two flags and one event (R201, R203-R205). -/
theorem initVerdict_eq (s : State) : initVerdict s =
    State.emit { s with ctl := { s.ctl with
        errorInitialising := !s.initSuccess || s.ctl.errorInitialising
        initialised := true } } (if s.initSuccess then .initialised else .notInitialised) := by
  have hi : ∀ c : Controller, State.initSuccess { s with ctl := c } = s.initSuccess := fun _ => rfl
  have hz := s.unhealthyMask_eq_zero
  unfold initVerdict
  dsimp only
  rw [hi]
  cases h : s.initSuccess
  · have : s.unhealthyMask ≠ 0#16 := fun hc => by rw [hz.1 hc] at h; exact absurd h (by decide)
    simp [this]
  · simp [hz.2 h]

theorem initVerdict_eng (s : State) : EngFrame s (initVerdict s) := by
  rw [initVerdict_eq]
  exact (setCtl_eng s _).trans (emit_eng _ _)

theorem initVerdict_devs (s : State) : (initVerdict s).devs = s.devs ∧ busCount (initVerdict s) = busCount s := by
  rw [initVerdict_eq]
  exact ⟨rfl, busCount_emit ..⟩

theorem automuteEdge_eng (agg : Bool) (s : State) : EngFrame s (automuteEdge agg s) := by
  unfold automuteEdge
  split
  · exact setCtl_eng s s.ctl
  · exact (setCtl_eng s _).trans (emit_eng _ _)

theorem automuteEdge_keeps (agg : Bool) (s : State) : (automuteEdge agg s).devs = s.devs ∧
    busCount (automuteEdge agg s) = busCount s ∧ (automuteEdge agg s).ctl = { s.ctl with automuted := agg } := by
  unfold automuteEdge
  split
  · next h => subst h; exact ⟨rfl, rfl, rfl⟩
  · exact ⟨rfl, busCount_emit .., rfl⟩

theorem lockEdge_eng (l : Word) (s : State) : EngFrame s (lockEdge l s) := by
  unfold lockEdge
  split
  · exact setCtl_eng s s.ctl
  · exact (setCtl_eng s _).trans (emit_eng _ _)

theorem lockEdge_keeps (l : Word) (s : State) : (lockEdge l s).devs = s.devs ∧
    busCount (lockEdge l s) = busCount s ∧ (lockEdge l s).ctl = { s.ctl with prevLock := l } := by
  unfold lockEdge
  split
  · next h => subst h; exact ⟨rfl, rfl, rfl⟩
  · exact ⟨rfl, busCount_emit .., rfl⟩

/-- The initialisation sequence up to its event, as a pass over the devices (R201). -/
theorem initAttempt_spec (s : State) : ∃ t : State, EngFrame s t ∧ t.devs = s.devs ∧ busCount t = busCount s ∧
    t.ctl = { s.ctl with errorInitialising := false, resetOut := true } ∧ PassSpec s.devices (14 * s.nDev) t (initAttempt s) := by
  refine ⟨State.setPin { s with ctl := { s.ctl with errorInitialising := false } } .reset true,
    (setCtl_eng s _).trans (setPin_eng _ _ _), State.setPin_devs .., busCount_setPin .., by simp, ?_⟩
  have h := initPasses_spec 2 (State.setPin { s with ctl := { s.ctl with errorInitialising := false } } .reset true)
  have hd : (State.setPin { s with ctl := { s.ctl with errorInitialising := false } } .reset true).devices = s.devices :=
    State.devices_congr (State.setPin_board ..)
  rw [hd, s.devices_length s.nDev_range.2] at h
  have h14 : 14 * s.nDev = 7 * s.nDev * 2 := by omega
  rw [h14]
  exact h

end Sys2Proof.Machine
end

