-- ==== Sys2Proof/Laws/Ends.lean ====
section
/-! SUPPORT. The write procedures by the way they end (`WriteEnd`), and the loops over devices by the way each device's ends. -/

namespace Sys2Proof.Machine

/-- `s` with these answers left and these actions appended to the trace. -/
def State.went (s : State) (rest : List Config.ReadAnswer) (wrest : List Config.WriteAnswer) (acts : List Action) : State :=
  { s with env := { s.env with reads := rest, writes := wrest, trace := s.env.trace ++ acts } }

@[simp] theorem State.went_reads (s : State) (a b c) : (s.went a b c).env.reads = a := rfl
@[simp] theorem State.went_writes (s : State) (a b c) : (s.went a b c).env.writes = b := rfl
@[simp] theorem State.went_dev (s : State) (a b c) (d : DevIx) : (s.went a b c).dev d = s.dev d := rfl
@[simp] theorem State.went_devs (s : State) (a b c) : (s.went a b c).devs = s.devs := rfl
@[simp] theorem State.went_board (s : State) (a b c) : (s.went a b c).board = s.board := rfl
@[simp] theorem State.went_healthy (s : State) (a b c) (d : DevIx) : (s.went a b c).healthy d = s.healthy d := rfl
@[simp] theorem State.went_devCfg (s : State) (a b c) (d : DevIx) : (s.went a b c).devCfg d = s.devCfg d := rfl
@[simp] theorem State.went_layout (s : State) (a b c) (d : DevIx) : (s.went a b c).layout d = s.layout d := rfl
@[simp] theorem State.went_entry (s : State) (a b c) (d : DevIx) (r : RegAddr) : (s.went a b c).entry d r = s.entry d r := rfl
@[simp] theorem State.went_setShadow (s : State) (a b c) (d : DevIx) (r : RegAddr) (v : Byte) :
    (s.went a b c).setShadow d r v = (s.setShadow d r v).went a b c := rfl
@[simp] theorem State.went_dropShadow (s : State) (a b c) (d : DevIx) (r : RegAddr) :
    (s.went a b c).dropShadow d r = (s.dropShadow d r).went a b c := rfl
@[simp] theorem State.went_went (s : State) (a b c a' b' c') :
    (s.went a b c).went a' b' c' = s.went a' b' (c ++ c') := by
  simp [State.went]
theorem State.went_nil (s : State) : s.went s.env.reads s.env.writes [] = s := by simp [State.went]

/-- A raw read with a listed answer. -/
theorem rawRead_went {d : DevIx} {r : RegAddr} {s : State} {x : Config.ReadAnswer} {rest : List Config.ReadAnswer}
    (h : s.env.reads = x :: rest) :
    rawRead d r s = (readResultOf x, s.went rest s.env.writes [.busRd (s.devCfg d).addr r x]) :=
  rawRead_listed d r s x rest h

/-- A write with a listed answer. -/
theorem busWrite_went {a : BusAddr} {r : RegAddr} {v : Byte} {s : State} {x : Config.WriteAnswer}
    {rest : List Config.WriteAnswer} (h : s.env.writes = x :: rest) :
    busWrite a r v s = (x, s.went s.env.reads rest [.busWr a r v x]) :=
  busWrite_listed a r v s x rest h

theorem readResultOf_fault (f : ReadFault) :
    readResultOf f.answer = { rep := .failure f.err f.code, v := 0#8 } := by
  cases f <;> rfl

/-! ## The phases of a write -/

/-- A write that fails (R123). -/
theorem writeVerify_error (d : DevIx) (r : RegAddr) (v : Byte) (s : State) {reads : List Config.ReadAnswer}
    {writes wrest : List Config.WriteAnswer} {acts : List Action} {c : Config.BusError} (hw : writes = .error c :: wrest) :
    writeVerify d r v (s.went reads writes acts) =
      ({ rep := .failure .bus (busErrorCode c), elided := false, data := 0#8 },
        (s.dropShadow d r).went reads wrest (acts ++ [.busWr (s.devCfg d).addr r v (.error c)])) := by
  unfold writeVerify
  rw [busWrite_went (rest := wrest) hw]
  simp

/-- A write that succeeds, by the answer of its verify read (R123). -/
theorem writeVerify_answered (d : DevIx) (r : RegAddr) (v : Byte) (s : State) {reads rest : List Config.ReadAnswer}
    {writes wrest : List Config.WriteAnswer} {acts : List Action} {x : Config.ReadAnswer} (hr : reads = x :: rest)
    (hw : writes = .success :: wrest) :
    writeVerify d r v (s.went reads writes acts) = verifyOutcome d r v (readResultOf x,
      s.went rest wrest (acts ++ [.busWr (s.devCfg d).addr r v .success, .busRd (s.devCfg d).addr r x])) := by
  unfold writeVerify
  rw [busWrite_went (rest := wrest) hw]
  have hr' : ((s.went reads writes acts).went (s.went reads writes acts).env.reads wrest
      [.busWr ((s.went reads writes acts).devCfg d).addr r v .success]).env.reads = x :: rest := hr
  simp only []
  rw [rawRead_went hr']
  simp

/-- BitsCore past its gates, by the answer of its read (R125). -/
theorem bitsCore_answered {d : DevIx} {r : RegAddr} {p : Pattern} {s : State} {x : Config.ReadAnswer}
    {rest : List Config.ReadAnswer} (hn : (s.devCfg d).noI2C = false) (hh : s.healthy d = true)
    (hr : s.env.reads = x :: rest) :
    bitsCore d r p s = patchUnlessEqual d r p
      (readResultOf x, s.went rest s.env.writes [.busRd (s.devCfg d).addr r x]) := by
  simp [bitsCore, hn, hh, rawRead_went hr]

/-- WrCore past its gates and the shadow, by the answer of its read (R124). -/
theorem wrCore_answered {d : DevIx} {r : RegAddr} {v : Byte} {s : State} {x : Config.ReadAnswer}
    {rest : List Config.ReadAnswer} (hn : (s.devCfg d).noI2C = false) (hh : s.healthy d = true)
    (he : s.entry d r ≠ { val := v, valid := true }) (hr : s.env.reads = x :: rest) :
    wrCore d r v s = writeUnlessEqual d r v
      (readResultOf x, s.went rest s.env.writes [.busRd (s.devCfg d).addr r x]) := by
  have : ¬((s.entry d r).valid = true ∧ (s.entry d r).val = v) := fun ⟨h1, h2⟩ => he (by rw [← h1, ← h2])
  unfold wrCore
  rw [if_neg (by simp [hn]), if_pos hh, if_neg this, rawRead_went hr]

theorem patchUnlessEqual_changed {d : DevIx} {r : RegAddr} {p : Pattern} {cur : Byte} {s : State} (h : overlay cur p ≠ cur) :
    patchUnlessEqual d r p (readResultOf (.data cur), s) = writeVerify d r (overlay cur p) s := by
  simp [patchUnlessEqual, readResultOf, Report.success, h]

theorem writeUnlessEqual_changed {d : DevIx} {r : RegAddr} {v : Byte} {cur : Byte} {s : State} (h : v ≠ cur) :
    writeUnlessEqual d r v (readResultOf (.data cur), s) = writeVerify d r v s := by
  simp [writeUnlessEqual, readResultOf, Report.success, Ne.symm h]

/-! ## The ends -/

/-- What a write procedure that ended as `e` answers and leaves. -/
def WriteEnd.outcome (s : State) (d : DevIx) (r : RegAddr) (q : Request) (rest : List Config.ReadAnswer)
    (wrest : List Config.WriteAnswer) (e : WriteEnd) : WriteResult × State :=
  ({ rep := e.report, elided := e.isElided, data := e.data q },
    (e.leave d r q s).went rest wrest (e.trace (s.devCfg d).addr r q))

/-- An end past the first read is the end of its WriteVerify (R123). -/
theorem writeVerify_end {s : State} {d : DevIx} {r : RegAddr} {q : Request} {e : WriteEnd} {cur : Byte}
    {reads rest : List Config.ReadAnswer} {wrest : List Config.WriteAnswer}
    (he : (∃ c, e = .unwritten cur c) ∨ (∃ f, e = .unverified cur f) ∨ (∃ rb, rb ≠ q.goal cur ∧ e = .mismatched cur rb) ∨
      e = .written cur)
    (hr : s.env.reads = e.reads q ++ rest) (hd : s.env.reads = .data cur :: reads) (hw : s.env.writes = e.writes ++ wrest) :
    writeVerify d r (q.goal cur) (s.went reads s.env.writes [.busRd (s.devCfg d).addr r (.data cur)]) =
      e.outcome s d r q rest wrest := by
  rw [hr] at hd
  rcases he with ⟨c, rfl⟩ | ⟨f, rfl⟩ | ⟨rb, hn, rfl⟩ | rfl <;>
    simp only [WriteEnd.reads, WriteEnd.writes, List.cons_append, List.nil_append, List.cons.injEq, true_and] at hd hw <;>
    simp only [WriteEnd.outcome, WriteEnd.report, WriteEnd.isElided, WriteEnd.data, WriteEnd.leave, WriteEnd.trace]
  · rw [writeVerify_error d r _ s hw, hd]; rfl
  · rw [writeVerify_answered d r _ s hd.symm hw, readResultOf_fault]; simp [verifyOutcome, Report.failure]
  · rw [writeVerify_answered d r _ s hd.symm hw]; simp [verifyOutcome, readResultOf, Report.success, hn]
  · rw [writeVerify_answered d r _ s hd.symm hw]; simp [verifyOutcome, readResultOf, Report.success]

/-- BitsCore does what the way it ends says, all of it (R125). -/
theorem bitsCore_end {s : State} {d : DevIx} {r : RegAddr} {p : Pattern} {e : WriteEnd} {rest : List Config.ReadAnswer}
    {wrest : List Config.WriteAnswer} (hf : e.fits s d r (.patch p)) (hr : s.env.reads = e.reads (.patch p) ++ rest)
    (hw : s.env.writes = e.writes ++ wrest) :
    bitsCore d r p s = e.outcome s d r (.patch p) rest wrest := by
  have bus : ∀ cur reads, (.patch p : Request).reachesBus s d r → overlay cur p ≠ cur → s.env.reads = .data cur :: reads →
      bitsCore d r p s = writeVerify d r ((.patch p : Request).goal cur)
        (s.went reads s.env.writes [.busRd (s.devCfg d).addr r (.data cur)]) := fun cur reads h hc hd => by
    rw [bitsCore_answered h.2.1 h.2.2.1 hd, patchUnlessEqual_changed hc]; rfl
  cases e with
  | rejected => cases hf
  | bypassed =>
    have h1 : s.env.reads = rest := hr
    have h2 : s.env.writes = wrest := hw
    simp [bitsCore, hf.2, WriteEnd.outcome, WriteEnd.report, WriteEnd.isElided, WriteEnd.data, WriteEnd.leave,
      WriteEnd.trace, ← h1, ← h2, State.went_nil]
  | gated =>
    have h1 : s.env.reads = rest := hr
    have h2 : s.env.writes = wrest := hw
    simp [bitsCore, hf.2.1, hf.2.2, WriteEnd.outcome, WriteEnd.report, WriteEnd.isElided, WriteEnd.data, WriteEnd.leave,
      WriteEnd.trace, ← h1, ← h2, State.went_nil]
  | coalesced => exact hf.2.2.elim
  | unread f =>
    have h2 : s.env.writes = wrest := hw
    rw [bitsCore_answered hf.2.1 hf.2.2.1 hr, readResultOf_fault]
    simp [patchUnlessEqual, Report.failure, WriteEnd.outcome, WriteEnd.report, WriteEnd.isElided, WriteEnd.data,
      WriteEnd.leave, WriteEnd.trace, h2]
  | elided cur =>
    have h2 : s.env.writes = wrest := hw
    have h3 : overlay cur p = cur := hf.2
    rw [bitsCore_answered hf.1.2.1 hf.1.2.2.1 hr]
    by_cases ht : patTouch p = 0#8 <;>
      simp [patchUnlessEqual, readResultOf, Report.success, WriteEnd.outcome, WriteEnd.report, WriteEnd.isElided,
        WriteEnd.data, WriteEnd.leave, WriteEnd.trace, Request.touches, h2, h3, ht]
  | unwritten cur c =>
    rw [bus cur _ hf.1 hf.2 hr]; exact writeVerify_end (.inl ⟨c, rfl⟩) hr hr hw
  | unverified cur f =>
    rw [bus cur _ hf.1 hf.2 hr]; exact writeVerify_end (.inr (.inl ⟨f, rfl⟩)) hr hr hw
  | mismatched cur rb =>
    rw [bus cur _ hf.1 hf.2.1 hr]; exact writeVerify_end (.inr (.inr (.inl ⟨rb, hf.2.2, rfl⟩))) hr hr hw
  | written cur =>
    rw [bus cur _ hf.1 hf.2 hr]; exact writeVerify_end (.inr (.inr (.inr rfl))) hr hr hw

/-- WrCore does what the way it ends says, all of it (R124). -/
theorem wrCore_end {s : State} {d : DevIx} {r : RegAddr} {v : Byte} {e : WriteEnd} {rest : List Config.ReadAnswer}
    {wrest : List Config.WriteAnswer} (hf : e.fits s d r (.byte v)) (hr : s.env.reads = e.reads (.byte v) ++ rest)
    (hw : s.env.writes = e.writes ++ wrest) :
    wrCore d r v s = e.outcome s d r (.byte v) rest wrest := by
  have bus : ∀ cur reads, (.byte v : Request).reachesBus s d r → v ≠ cur → s.env.reads = .data cur :: reads →
      wrCore d r v s = writeVerify d r ((.byte v : Request).goal cur)
        (s.went reads s.env.writes [.busRd (s.devCfg d).addr r (.data cur)]) := fun cur reads h hc hd => by
    rw [wrCore_answered h.2.1 h.2.2.1 h.2.2.2 hd, writeUnlessEqual_changed hc]; rfl
  cases e with
  | rejected => cases hf
  | bypassed =>
    have h1 : s.env.reads = rest := hr
    have h2 : s.env.writes = wrest := hw
    simp [wrCore, hf.2, WriteEnd.outcome, WriteEnd.report, WriteEnd.isElided, WriteEnd.data, WriteEnd.leave,
      WriteEnd.trace, ← h1, ← h2, State.went_nil]
  | gated =>
    have h1 : s.env.reads = rest := hr
    have h2 : s.env.writes = wrest := hw
    simp [wrCore, hf.2.1, hf.2.2, WriteEnd.outcome, WriteEnd.report, WriteEnd.isElided, WriteEnd.data, WriteEnd.leave,
      WriteEnd.trace, ← h1, ← h2, State.went_nil]
  | coalesced =>
    have h1 : s.env.reads = rest := hr
    have h2 : s.env.writes = wrest := hw
    have h3 : s.entry d r = { val := v, valid := true } := hf.2.2
    simp [wrCore, hf.1, hf.2.1, h3, WriteEnd.outcome, WriteEnd.report, WriteEnd.isElided, WriteEnd.data, WriteEnd.leave,
      WriteEnd.trace, Request.goal, ← h1, ← h2, State.went_nil]
  | unread f =>
    have h2 : s.env.writes = wrest := hw
    rw [wrCore_answered hf.2.1 hf.2.2.1 hf.2.2.2 hr, readResultOf_fault]
    simp [writeUnlessEqual, Report.failure, WriteEnd.outcome, WriteEnd.report, WriteEnd.isElided, WriteEnd.data,
      WriteEnd.leave, WriteEnd.trace, h2]
  | elided cur =>
    have h2 : s.env.writes = wrest := hw
    have h3 : v = cur := hf.2
    rw [wrCore_answered hf.1.2.1 hf.1.2.2.1 hf.1.2.2.2 hr]
    simp [writeUnlessEqual, readResultOf, Report.success, WriteEnd.outcome, WriteEnd.report, WriteEnd.isElided,
      WriteEnd.data, WriteEnd.leave, WriteEnd.trace, Request.touches, h2, h3]
  | unwritten cur c =>
    rw [bus cur _ hf.1 hf.2 hr]; exact writeVerify_end (.inl ⟨c, rfl⟩) hr hr hw
  | unverified cur f =>
    rw [bus cur _ hf.1 hf.2 hr]; exact writeVerify_end (.inr (.inl ⟨f, rfl⟩)) hr hr hw
  | mismatched cur rb =>
    rw [bus cur _ hf.1 hf.2.1 hr]; exact writeVerify_end (.inr (.inr (.inl ⟨rb, hf.2.2, rfl⟩))) hr hr hw
  | written cur =>
    rw [bus cur _ hf.1 hf.2 hr]; exact writeVerify_end (.inr (.inr (.inr rfl))) hr hr hw

/-- InputProc does what the way it ends says, all of it (R175). -/
theorem inputProc_end {s : State} {d : DevIx} {sel : Byte} {e : WriteEnd} {rest : List Config.ReadAnswer}
    {wrest : List Config.WriteAnswer} (hf : e.fits s d (s.layout d).inputReg (s.inputRequest d sel))
    (hr : s.env.reads = e.reads (s.inputRequest d sel) ++ rest) (hw : s.env.writes = e.writes ++ wrest) :
    inputProc d sel s = e.outcome s d (s.layout d).inputReg (s.inputRequest d sel) rest wrest := by
  unfold inputProc
  by_cases h : sel.toNat < (s.layout d).inputPats.length
  · have hq : s.inputRequest d sel = .patch (patternAt (s.layout d).inputPats sel.toNat) := by
      simp [State.inputRequest, patternAt, h]
    rw [hq] at hf hr ⊢
    rw [if_pos h]
    exact bitsCore_end hf hr hw
  · have hq : s.inputRequest d sel = .noInput := by
      simp [State.inputRequest, Nat.not_lt.mp h]
    rw [hq] at hf hr ⊢
    rw [if_neg h]
    cases e <;> simp [WriteEnd.fits, Request.reachesBus, Request.heldBy] at hf
    simp [WriteEnd.reads, WriteEnd.writes] at hr hw
    simp [WriteEnd.outcome, WriteEnd.report, WriteEnd.isElided, WriteEnd.data, WriteEnd.leave, WriteEnd.trace, ← hr, ← hw,
      State.went_nil]

/-! ## What an end changes -/

/-- An end changes, of the state, one shadow entry of its device. -/
theorem WriteEnd.leave_regFrame (e : WriteEnd) (d : DevIx) (r : RegAddr) (q : Request) (s : State) :
    RegFrame d r s (e.leave d r q s) := by
  cases e <;> simp only [WriteEnd.leave]
  case elided cur =>
    split
    · exact setShadow_regFrame ..
    · exact .refl d r s
  all_goals first
    | exact .refl d r s
    | exact setShadow_regFrame ..
    | exact dropShadow_regFrame ..

theorem WriteEnd.leave_env (e : WriteEnd) (d : DevIx) (r : RegAddr) (q : Request) (s : State) :
    (e.leave d r q s).env = s.env := by
  cases e <;> simp only [WriteEnd.leave] <;> first | rfl | (split <;> rfl)

/-- What an end leaves of its device depends on that device alone. -/
theorem WriteEnd.leave_congr (e : WriteEnd) {d : DevIx} (r : RegAddr) (q : Request) {s t : State} (h : t.dev d = s.dev d) :
    (e.leave d r q t).dev d = (e.leave d r q s).dev d := by
  cases e <;> simp only [WriteEnd.leave] <;>
    first
      | exact h
      | (split <;> simp [State.setShadow, h])
      | simp [State.setShadow, State.dropShadow, h]

/-- Which ends fit depends on the configuration and the device alone. -/
theorem WriteEnd.fits_congr {e : WriteEnd} {d : DevIx} {r : RegAddr} {q : Request} {s t : State} (hb : t.board = s.board)
    (h : t.dev d = s.dev d) (hf : e.fits s d r q) : e.fits t d r q := by
  have h1 : t.devCfg d = s.devCfg d := State.devCfg_congr hb d
  have h2 : t.healthy d = s.healthy d := by unfold State.healthy; rw [h]
  have h3 : t.entry d r = s.entry d r := by unfold State.entry; rw [h]
  cases e <;> simpa only [WriteEnd.fits, Request.reachesBus, h1, h2, h3] using hf

/-- Which ends of a patch fit stays the same over a change of a shadow entry. -/
theorem RegFrame.fits_patch {e : WriteEnd} {d : DevIx} {r x : RegAddr} {p : Pattern} {s t : State} (h : RegFrame d x s t)
    (hf : e.fits s d r (.patch p)) : e.fits t d r (.patch p) := by
  cases e <;> simpa only [WriteEnd.fits, Request.reachesBus, Request.heldBy, h.devCfg, h.healthy] using hf

theorem WriteEnd.leave_went (e : WriteEnd) (d : DevIx) (r : RegAddr) (q : Request) (s : State) (a b c) :
    e.leave d r q (s.went a b c) = (e.leave d r q s).went a b c := by
  cases e <;> simp only [WriteEnd.leave] <;> first | rfl | (split <;> rfl)

/-! ## InitProc -/

@[simp] theorem State.setDev_setDev (s : State) (d : DevIx) (x y : Device) : (s.setDev d x).setDev d y = s.setDev d y := by
  simp [State.setDev]

/-- Where InitProc stands after its identification read, whatever state it started from (R150). -/
theorem initProc_answered {d : DevIx} {s : State} {x : Config.ReadAnswer} {rest : List Config.ReadAnswer}
    (hn : (s.devCfg d).noI2C = false) (hr : s.env.reads = x :: rest) :
    initProc d s = initAfterId d (readResultOf x, ((s.dropShadowAll d).setPhase d .initialising).went rest s.env.writes
      [.busRd (s.devCfg d).addr (s.layout d).idReg x]) := by
  unfold initProc
  rw [if_neg (by simp [hn]),
    rawRead_went (s := (s.setPhase d .initialising).dropShadowAll d) (x := x) (rest := rest) hr]
  have : (s.setPhase d .initialising).dropShadowAll d = (s.dropShadowAll d).setPhase d .initialising := by
    simp [State.setPhase, State.dropShadowAll, Device.dropAll]
  rw [this]
  rfl

theorem initAfterId_data (d : DevIx) (id : Byte) (s : State) :
    initAfterId d (readResultOf (.data id), s) = initIdentified d id s := rfl

/-- A failed identification read (R150). -/
theorem initProc_unread {d : DevIx} {s : State} {f : ReadFault} {rest : List Config.ReadAnswer}
    (hn : (s.devCfg d).noI2C = false) (hr : s.env.reads = f.answer :: rest) :
    initProc d s = ({ rep := .failure f.err f.code, idb := 0#8, ct := (s.dev d).chipType },
      ((s.dropShadowAll d).setPhase d .uninitialised).went rest s.env.writes
        [.busRd (s.devCfg d).addr (s.layout d).idReg f.answer]) := by
  rw [initProc_answered hn hr, readResultOf_fault]
  unfold initAfterId
  rw [if_neg (by simp [Report.failure])]
  have h1 : ∀ t : State, (t.setPhase d .initialising).setPhase d .uninitialised = t.setPhase d .uninitialised := fun t => by
    simp [State.setPhase]
  have h2 : ((s.dropShadowAll d).setPhase d .initialising).dev d =
      { (s.dev d).dropAll with phase := .initialising } := by simp
  simp only [State.went_dev, h2, Device.dropAll]
  rw [← h1 (s.dropShadowAll d)]
  rfl

/-- An identification byte that maps to no variant (R150). -/
theorem initProc_unknown {d : DevIx} {s : State} {id : Byte} {rest : List Config.ReadAnswer}
    (hn : (s.devCfg d).noI2C = false) (hi : idChipType (s.layout d).idMap id = 0#2) (hr : s.env.reads = .data id :: rest) :
    initProc d s = ({ rep := .failure .idUnknown 0#3, idb := id, ct := 0#2 },
      (((s.dropShadowAll d).setChipType d 0#2).setPhase d .uninitialised).went rest s.env.writes
        [.busRd (s.devCfg d).addr (s.layout d).idReg (.data id)]) := by
  rw [initProc_answered hn hr]
  rw [initAfterId_data]
  unfold initIdentified
  refine (if_pos hi).trans ?_
  have h1 : ∀ t : State, ((t.setPhase d .initialising).setChipType d 0#2).setPhase d .uninitialised =
      (t.setChipType d 0#2).setPhase d .uninitialised := fun t => by simp [State.setPhase, State.setChipType]
  rw [← h1 (s.dropShadowAll d)]
  rfl

theorem WriteEnd.report_of_ok {e : WriteEnd} (h : e.report.ok = true) : e.report = .success := by
  cases e <;> first | rfl | simp [WriteEnd.report, Report.failure] at h

/-- A failed mode patch rolls back (R150). -/
theorem initPhasePatch_failed {d : DevIx} {id : Byte} {c : BitVec 2} {w : WriteResult} {s : State} (h : w.rep.ok = false) :
    initPhasePatch d id c (w, s) = ({ rep := w.rep, idb := id, ct := c }, resetProc d s) := by
  simp [initPhasePatch, h]

/-- The phase patch after a mode patch that succeeded, by its end (R150). -/
theorem initPhasePatch_end {d : DevIx} {id : Byte} {c : BitVec 2} {w : WriteResult} {s : State} {r : RegAddr} {pat : Pattern}
    {p : WriteEnd} {reads rest : List Config.ReadAnswer} {writes wrest : List Config.WriteAnswer} {acts : List Action}
    (h : w.rep.ok = true) (hr : r = ((s.went reads writes acts).layout d).phaseReg)
    (hp : pat = (s.went reads writes acts).phasePattern d) (hf : p.fits (s.went reads writes acts) d r (.patch pat))
    (h1 : reads = p.reads (.patch pat) ++ rest) (h2 : writes = p.writes ++ wrest) :
    initPhasePatch d id c (w, s.went reads writes acts) = ({ rep := p.report, idb := id, ct := c },
      (if p.report.ok then p.leave d r (.patch pat) s else resetProc d (p.leave d r (.patch pat) s)).went rest wrest
        (acts ++ p.trace ((s.went reads writes acts).devCfg d).addr r (.patch pat))) := by
  unfold initPhasePatch
  rw [if_pos h]
  dsimp only
  rw [← hr, ← hp, bitsCore_end hf h1 h2]
  unfold WriteEnd.outcome
  rw [WriteEnd.leave_went, State.went_went]
  cases ho : p.report.ok
  · rfl
  · rw [WriteEnd.report_of_ok ho]; rfl

/-- A recognised identification: the mode patch, then the phase patch, each by its end; the first that fails rolls the device back
(R150). -/
theorem initProc_known {d : DevIx} {s : State} {id : Byte} {m p : WriteEnd} {rest : List Config.ReadAnswer}
    {wrest : List Config.WriteAnswer} (hn : (s.devCfg d).noI2C = false) (hi : idChipType (s.layout d).idMap id ≠ 0#2) :
    let ct := idChipType (s.layout d).idMap id
    let a := (s.devCfg d).addr
    let mode := Request.patch (s.modePattern d)
    let phase := Request.patch (s.phasePattern d)
    let s1 := ((s.dropShadowAll d).setChipType d ct).setPhase d .initialised
    let s2 := m.leave d (s.layout d).modeReg mode s1
    let s3 := if m.report.ok then p.leave d (s.layout d).phaseReg phase s2 else s2
    let rep := if m.report.ok then p.report else m.report
    m.fits s1 d (s.layout d).modeReg mode → p.fits s1 d (s.layout d).phaseReg phase →
    s.env.reads = .data id :: (m.reads mode ++ ((if m.report.ok then p.reads phase else []) ++ rest)) →
    s.env.writes = m.writes ++ ((if m.report.ok then p.writes else []) ++ wrest) →
    initProc d s = ({ rep := rep, idb := id, ct := ct },
      (if rep.ok then s3 else resetProc d s3).went rest wrest
        (.busRd a (s.layout d).idReg (.data id) :: (m.trace a (s.layout d).modeReg mode ++
          if m.report.ok then p.trace a (s.layout d).phaseReg phase else []))) := by
  intro ct a mode phase s1 s2 s3 rep hm hp hr hw
  have e1 : initProc d s = initPhasePatch d id ct (bitsCore d (s.layout d).modeReg (s.modePattern d)
      (s1.went (m.reads mode ++ ((if m.report.ok then p.reads phase else []) ++ rest)) s.env.writes
        [.busRd a (s.layout d).idReg (.data id)])) := by
    have h1 : ((((s.dropShadowAll d).setPhase d .initialising).setChipType d ct).setPhase d .initialised) = s1 := by
      simp [s1, State.setPhase, State.setChipType]
    rw [initProc_answered hn hr, initAfterId_data, ← h1]
    unfold initIdentified
    exact (if_neg hi).trans rfl
  rw [e1, bitsCore_end (s := s1.went _ _ _) (WriteEnd.fits_congr rfl rfl hm) rfl hw]
  unfold WriteEnd.outcome
  rw [WriteEnd.leave_went, State.went_went]
  have fr := m.leave_regFrame d (s.layout d).modeReg mode s1
  have hb : s2.board = s.board := fr.board
  cases hmo : m.report.ok
  · have hrep : rep = m.report := by simp [rep, hmo]
    have hs3 : s3 = s2 := by simp [s3, hmo]
    rw [initPhasePatch_failed hmo, hrep, hs3, hmo]
    simp
    rfl
  · have hrep : rep = p.report := by simp [rep, hmo]
    have hs3 : s3 = p.leave d (s.layout d).phaseReg phase s2 := by simp [s3, hmo]
    simp only [if_true]
    rw [initPhasePatch_end (p := p) (r := (s.layout d).phaseReg) (pat := s.phasePattern d)
      (w := { rep := m.report, elided := m.isElided, data := m.data mode }) (s := s2) hmo
      (congrArg Config.Layout.phaseReg (State.layout_congr hb d)).symm ?_
      (WriteEnd.fits_congr (s := s2) rfl rfl (fr.fits_patch hp)) rfl rfl, hrep, hs3]
    · have h2 : s2.devCfg d = s.devCfg d := State.devCfg_congr hb d
      simp only [State.went_devCfg, h2, List.cons_append, List.nil_append]
      rfl
    · unfold State.phasePattern
      rw [State.went_layout, State.went_devCfg, State.devCfg_congr hb d, State.layout_congr hb d]

/-! ## The loops over devices -/

/-- A loop whose body does what the ends say does, in order, what each device's end says. -/
theorem forEach_ends {b : Config.Board} {f : DevIx → State → Report × State} {reg : DevIx → RegAddr} {q : DevIx → Request}
    (hf : ∀ (d : DevIx) (s : State) (e : WriteEnd) (rest : List Config.ReadAnswer) (wrest : List Config.WriteAnswer),
      s.board = b → e.fits s d (reg d) (q d) → s.env.reads = e.reads (q d) ++ rest → s.env.writes = e.writes ++ wrest →
      f d s = (e.report, (e.leave d (reg d) (q d) s).went rest wrest (e.trace (s.devCfg d).addr (reg d) (q d))))
    (e : DevIx → WriteEnd) (rest : List Config.ReadAnswer) (wrest : List Config.WriteAnswer) :
    ∀ (l : List DevIx) (s : State), l.Nodup → s.board = b → (∀ d ∈ l, (e d).fits s d (reg d) (q d)) →
      s.env.reads = (l.flatMap fun d => (e d).reads (q d)) ++ rest →
      s.env.writes = (l.flatMap fun d => (e d).writes) ++ wrest →
      (∀ i, (forEach f l s).1.getLsbD i = l.any fun d => !(e d).report.ok && decide (i = d.val)) ∧
        (forEach f l s).2.env = { s.env with
          reads := rest, writes := wrest
          trace := s.env.trace ++ l.flatMap fun d => (e d).trace (s.devCfg d).addr (reg d) (q d) } ∧
        ∀ d, (forEach f l s).2.dev d = if d ∈ l then ((e d).leave d (reg d) (q d) s).dev d else s.dev d
  | [], s, _, _, _, hr, hw => by
    simp only [List.flatMap_nil, List.nil_append] at hr hw
    simp [forEach, ← hr, ← hw]
  | d :: ds, s, hl, hb, hfit, hr, hw => by
    have hl := List.nodup_cons.mp hl
    simp only [List.flatMap_cons, List.append_assoc] at hr hw
    have h := hf d s (e d) _ _ hb (hfit d List.mem_cons_self) hr hw
    have fr := (e d).leave_regFrame d (reg d) (q d) s
    have hd : ∀ g, g ≠ d → (f d s).2.dev g = s.dev g := fun g hg => by rw [h]; exact fr.others g hg
    have bd : (f d s).2.board = s.board := by rw [h]; exact fr.board
    have hne : ∀ g ∈ ds, g ≠ d := fun g hg hgd => hl.1 (hgd ▸ hg)
    obtain ⟨k1, k2, k3⟩ := forEach_ends hf e rest wrest ds (f d s).2 hl.2 (bd.trans hb)
      (fun g hg => WriteEnd.fits_congr bd (hd g (hne g hg)) (hfit g (List.mem_cons_of_mem _ hg)))
      (by rw [h]; rfl) (by rw [h]; rfl)
    refine ⟨fun i => ?_, ?_, fun g => ?_⟩
    · simp only [forEach, BitVec.getLsbD_or, getLsbD_failBit, k1, List.any_cons]
      rw [h]
    · have ha : ∀ g, (f d s).2.devCfg g = s.devCfg g := fun g => State.devCfg_congr bd g
      simp only [forEach, k2, ha]
      rw [h]
      simp [State.went, WriteEnd.leave_env]
    · show (forEach f ds (f d s).2).2.dev g = _
      rw [k3]
      by_cases hg : g = d
      · subst hg
        rw [if_neg hl.1, if_pos List.mem_cons_self, h]; rfl
      · rw [WriteEnd.leave_congr (e g) (reg g) (q g) (hd g hg), hd g hg]
        simp [hg]

end Sys2Proof.Machine
end

