-- ==== Sys2Proof/Laws/Passes.lean ====
section
/-! SUPPORT. The passes of the initialisation sequence (R201): the DEV_INIT commands they are, what they read, what they leave of a
noI2C device. -/

namespace Sys2Proof.Machine

/-! ## The passes of the sequence -/

/-- One pass of the initialisation sequence is DEV_INIT, as a command of its own, on every device that is not Initialised: where the
two start from states that agree, they end so, and the commands' traces joined are what the pass appends (R201). -/
theorem initPass_eq_commands : ∀ (l : List DevIx) {pre : List Action} {s t : State}, (∀ d ∈ l, d.val < t.nDev) →
    Agree pre s { t with env := { t.env with trace := [] } } →
    Agree (pre ++ (initEach l t).2) (initPass l s)
      { (initEach l t).1 with env := { (initEach l t).1.env with trace := [] } }
  | [], pre, s, t, _, h => by simpa [initPass, initEach] using h
  | d :: ds, pre, s, t, hl, h => by
    have hds : ∀ e ∈ ds, e.val < t.nDev := fun e he => hl e (List.mem_cons_of_mem _ he)
    have hh : s.healthy d = t.healthy d := h.healthy d
    unfold initPass initEach
    rw [hh]
    split
    · exact initPass_eq_commands ds hds h
    · have hb : Agree pre s (beginStep t) := ⟨h.board, h.devs, h.reads, h.writes, h.busTurn, h.trace⟩
      have k := (hb.initProc d).2
      have he : exec (.devInit d) t = .next (finishInit d (initProc d (beginStep t))) := by
        simp only [exec, execDevInit, onDevice, if_pos (hl d List.mem_cons_self)]
      rw [he]
      dsimp only
      generalize hu : finishInit d (initProc d (beginStep t)) = u
      have ub : u.board = (initProc d (beginStep t)).2.board := by rw [← hu]; rfl
      have ud : u.devs = (initProc d (beginStep t)).2.devs := by rw [← hu]; rfl
      have ue : u.env = (initProc d (beginStep t)).2.env := by rw [← hu]; rfl
      have un : u.nDev = t.nDev := State.nDev_congr (ub.trans (initProc_spec d (beginStep t)).frame.board)
      have := initPass_eq_commands ds (pre := pre ++ u.env.trace) (s := (initProc d s).2) (t := u) (by rwa [un])
        ⟨k.board.trans ub.symm, k.devs.trans ud.symm, k.reads.trans (by rw [ue]), k.writes.trans (by rw [ue]),
          k.busTurn.trans (by rw [ue]), by simpa [ue] using k.trace⟩
      simpa [List.append_assoc] using this

/-- A pass over devices that are all Initialised does nothing (R201). -/
theorem initPass_of_healthy : ∀ (l : List DevIx) (s : State), l.all s.healthy = true → initPass l s = s
  | [], _, _ => rfl
  | d :: ds, s, h => by
    rw [List.all_cons, Bool.and_eq_true] at h
    rw [initPass, if_pos h.1, initPass_of_healthy ds s h.2]

/-- The two passes of the sequence, the second run where it has nothing to do too (R201). -/
theorem initPasses_two (s : State) : initPasses 2 s = initPass s.devices (initPass s.devices s) := by
  have hd : ∀ t : State, (initPass s.devices t).devices = t.devices := fun t =>
    (initPass_spec s.devices s.devices (fun _ h => h) t).frame.devices
  unfold initPasses initPasses initPasses
  split
  · next h => rw [initPass_of_healthy _ s h, initPass_of_healthy _ s h]
  · rw [hd s]
    split
    · next h =>
      rw [initPass_of_healthy _ (initPass s.devices s)]
      rw [State.initSuccess, hd s] at h; exact h
    · rfl

/-- A pass leaves a noI2C device Initialised, with NOI2C_CHIP_TYPE where it was not (R150, R280). -/
theorem initPass_noI2C (d : DevIx) : ∀ (l : List DevIx) (s : State), d ∈ l → (s.devCfg d).noI2C = true →
    (initPass l s).healthy d = true ∧
      ((initPass l s).dev d).chipType = if s.healthy d then (s.dev d).chipType else s.cfg.noI2CChipType
  | [], _, h, _ => by simp at h
  | g :: gs, s, hm, hn => by
    have hs : ∀ t : State, PassSpec (g :: gs) (7 * gs.length) t (initPass gs t) := fun t =>
      initPass_spec _ gs (fun _ h => List.mem_cons_of_mem _ h) t
    rw [initPass]
    by_cases hh : s.healthy d = true
    · have hx : (if s.healthy g = true then s else (initProc g s).2).dev d = s.dev d := by
        split
        · rfl
        · next h => exact (initProc_spec g s).frame.others d (fun e => h (e ▸ hh))
      generalize (if s.healthy g = true then s else (initProc g s).2) = t at hx
      have ht : t.healthy d = true := by unfold State.healthy at hh ⊢; rw [hx]; exact hh
      have := (hs t).others d (.inr ht)
      refine ⟨(hs t).healthy d ht, ?_⟩
      rw [this, hx, if_pos hh]
    · by_cases hg : d = g
      · subst hg
        rw [if_neg hh, if_neg hh]
        have hi : (initProc d s).2 = ((s.setPhase d .initialised).setChipType d s.cfg.noI2CChipType).dropShadowAll d := by
          unfold initProc; rw [if_pos hn]
        rw [hi]
        generalize ht : ((s.setPhase d .initialised).setChipType d s.cfg.noI2CChipType).dropShadowAll d = t
        have h1 : t.healthy d = true := by rw [← ht]; simp [State.healthy, Device.dropAll]
        refine ⟨(hs t).healthy d h1, ?_⟩
        rw [(hs t).others d (.inr h1), ← ht]
        simp [Device.dropAll]
      · have hx : (if s.healthy g = true then s else (initProc g s).2).dev d = s.dev d := by
          split
          · rfl
          · exact (initProc_spec g s).frame.others d hg
        have hb : (if s.healthy g = true then s else (initProc g s).2).board = s.board := by
          split
          · rfl
          · exact (initProc_spec g s).frame.board
        have ih := initPass_noI2C d gs (if s.healthy g = true then s else (initProc g s).2)
          ((List.mem_cons.mp hm).resolve_left hg) (by rw [State.devCfg_congr hb]; exact hn)
        refine ⟨ih.1, ?_⟩
        rw [ih.2]
        have hc : (if s.healthy g = true then s else (initProc g s).2).cfg = s.cfg := congrArg Config.Board.cfg hb
        rw [hc]; unfold State.healthy at hx ⊢; rw [hx]

/-- InitProc of a bus device first reads its identification register (R150). -/
theorem initProc_reads (d : DevIx) (s : State) (hn : (s.devCfg d).noI2C = false) :
    ∃ x acts, (initProc d s).2.env.trace = s.env.trace ++ .busRd (s.devCfg d).addr (s.layout d).idReg x :: acts := by
  unfold initProc
  rw [if_neg (by simp [hn])]
  obtain ⟨x, _, h⟩ := rawRead_trace d (s.layout d).idReg ((s.setPhase d .initialising).dropShadowAll d)
  have f : ProcFrame (rawRead d (s.layout d).idReg ((s.setPhase d .initialising).dropShadowAll d)).2
      (initAfterId d (rawRead d (s.layout d).idReg ((s.setPhase d .initialising).dropShadowAll d))).2 := by
    unfold initAfterId
    split
    · refine (initIdentified_spec d _ _ ?_ fun q => ?_).frame.toProcFrame
      · rw [(rawRead_regFrame ..).devCfg]; exact hn
      · exact congrArg ShadowEntry.valid (State.entry_dropShadowAll (s.setPhase d .initialising) d q)
    · exact setDev_procFrame ..
  obtain ⟨a, ha, _⟩ := f.trace
  exact ⟨x, a, by rw [ha, h]; simp [State.dropShadowAll, State.setPhase, State.devCfg, State.cfg]⟩

/-- What the commands of a pass can do: they keep what no command writes, show bus actions alone, leave every other device and every
Initialised one, and read the identification register of each bus device that is not Initialised (R150, R201). -/
theorem initEach_spec : ∀ (l : List DevIx) (s : State), (∀ d ∈ l, d.val < s.nDev) → l.Nodup →
    CommandFrame s (initEach l s).1 ∧ (∀ a ∈ (initEach l s).2, a.isBus = true) ∧
    (∀ d, s.healthy d = true ∨ d ∉ l → (initEach l s).1.dev d = s.dev d) ∧
    ∀ d ∈ l, s.healthy d = false → (s.devCfg d).noI2C = false →
      1 ≤ ((initEach l s).2.filter (Action.isReadOf (s.devCfg d).addr (s.layout d).idReg)).length
  | [], s, _, _ => ⟨⟨rfl, rfl, rfl, rfl, rfl, rfl, rfl, rfl, rfl, rfl, rfl⟩, by simp [initEach], by simp [initEach],
      by simp⟩
  | g :: gs, s, hl, hnd => by
    have hds : ∀ e ∈ gs, e.val < s.nDev := fun e he => hl e (List.mem_cons_of_mem _ he)
    have hnd := List.nodup_cons.mp hnd
    unfold initEach
    split
    · next hg =>
      obtain ⟨k1, k2, k3, k4⟩ := initEach_spec gs s hds hnd.2
      refine ⟨k1, k2, fun d hd => k3 d (hd.imp_right fun h hm => h (List.mem_cons_of_mem _ hm)), fun d hd hh => k4 d ?_ hh⟩
      refine (List.mem_cons.mp hd).resolve_left fun e => ?_
      rw [e, hg] at hh; exact absurd hh (by decide)
    · next hg =>
      have he : exec (.devInit g) s = .next (finishInit g (initProc g (beginStep s))) := by
        simp only [exec, execDevInit, onDevice, if_pos (hl g List.mem_cons_self)]
      rw [he]
      dsimp only
      have sp := initProc_spec g (beginStep s)
      have f := sp.frame
      generalize hu : finishInit g (initProc g (beginStep s)) = u
      have ub : u.board = s.board := by rw [← hu]; exact f.board
      have uc : CommandFrame s u := by
        rw [← hu]
        refine ⟨f.board, f.now, ?_, ?_, ?_, ?_, ?_, ?_, f.schedule, f.turn, f.readData⟩
        · show (initProc g (beginStep s)).2.host.arg = _; rw [f.host]; rfl
        · show (initProc g (beginStep s)).2.host.eventEnable = _; rw [f.host]; rfl
        · show (initProc g (beginStep s)).2.status.overrun = _; rw [f.status]; rfl
        · show (initProc g (beginStep s)).2.engine.lcmd = _; rw [f.engine]; rfl
        · show (initProc g (beginStep s)).2.engine.larg = _; rw [f.engine]; rfl
        · show (initProc g (beginStep s)).2.engine.lpow = _; rw [f.engine]; rfl
      have ud : ∀ e, e ≠ g → u.dev e = s.dev e := fun e h => by rw [← hu]; exact f.others e h
      have ut : u.env.trace = (initProc g (beginStep s)).2.env.trace := by rw [← hu]; rfl
      have uh : ∀ e, e ≠ g → u.healthy e = s.healthy e := fun e h => by unfold State.healthy; rw [ud e h]
      obtain ⟨k1, k2, k3, k4⟩ := initEach_spec gs u (by rw [State.nDev_congr ub]; exact hds) hnd.2
      refine ⟨⟨k1.board.trans uc.board, k1.now.trans uc.now, k1.arg.trans uc.arg, k1.eventEnable.trans uc.eventEnable,
        k1.overrun.trans uc.overrun, k1.lcmd.trans uc.lcmd, k1.larg.trans uc.larg, k1.lpow.trans uc.lpow,
        k1.schedule.trans uc.schedule, k1.turn.trans uc.turn, k1.readData.trans uc.readData⟩, fun a ha => ?_,
        fun d hd => ?_, fun d hd hh hn => ?_⟩
      · rcases List.mem_append.mp ha with h | h
        · obtain ⟨acts, h1, h2⟩ := f.trace
          rw [ut, h1] at h; exact h2 a (by simpa [beginStep] using h)
        · exact k2 a h
      · have hdg : d ≠ g := by
          rintro rfl
          rcases hd with h | h
          · exact hg h
          · exact h List.mem_cons_self
        rw [k3 d (hd.imp (fun h => (uh d hdg).trans h) (fun h hm => h (List.mem_cons_of_mem _ hm))), ud d hdg]
      · rw [List.filter_append, List.length_append]
        by_cases hdg : d = g
        · subst hdg
          obtain ⟨x, acts, hx⟩ := initProc_reads d (beginStep s) hn
          rw [ut, hx]
          have : (beginStep s).env.trace = [] := rfl
          rw [this, List.nil_append, List.filter_cons_of_pos]
          · simp; omega
          · simp [Action.isReadOf, State.devCfg, State.layout, State.cfg, beginStep]
        · have := k4 d ((List.mem_cons.mp hd).resolve_left hdg) ((uh d hdg).trans hh) (by rw [State.devCfg_congr ub]; exact hn)
          rw [State.devCfg_congr ub, State.layout_congr ub] at this
          omega
end Sys2Proof.Machine
end

