-- ==== Sys2Proof/Laws/PerInstr.lean ====
section
/-! SUPPORT. Statements about every command as syntax, one lemma per constructor. -/

namespace Sys2Proof.Laws.EncodesWellFormed

/-- The word of the command is well-formed (spec/30_encoding.md R94). -/
def Statement (i : Instr) : Prop := commandWordWf (encode i) = true

theorem readReg (d : DevIx) (r : RegAddr) : Statement (.readReg d r) := by
  unfold Statement; revert d r; decide +kernel

theorem writeReg (d : DevIx) (r : RegAddr) : Statement (.writeReg d r) := by
  unfold Statement; revert d r; decide +kernel

theorem writeBits (d : DevIx) (r : RegAddr) : Statement (.writeBits d r) := by
  unfold Statement; revert d r; decide +kernel

theorem devInit (d : DevIx) : Statement (.devInit d) := by
  unfold Statement; revert d; decide

theorem devReset (d : DevIx) : Statement (.devReset d) := by
  unfold Statement; revert d; decide

theorem devLocked (d : DevIx) : Statement (.devLocked d) := by
  unfold Statement; revert d; decide

theorem devAutomuted (d : DevIx) : Statement (.devAutomuted d) := by
  unfold Statement; revert d; decide

theorem devMute (d : DevIx) : Statement (.devMute d) := by
  unfold Statement; revert d; decide

theorem devUnmute (d : DevIx) : Statement (.devUnmute d) := by
  unfold Statement; revert d; decide

theorem devSetAtten (d : DevIx) : Statement (.devSetAtten d) := by
  unfold Statement; revert d; decide

theorem devSelectInput (d : DevIx) : Statement (.devSelectInput d) := by
  unfold Statement; revert d; decide

theorem powerOn : Statement .powerOn := by
  unfold Statement; decide

theorem powerOff : Statement .powerOff := by
  unfold Statement; decide

theorem poll : Statement .poll := by
  unfold Statement; decide

theorem setAttenAll : Statement .setAttenAll := by
  unfold Statement; decide

theorem muteAll : Statement .muteAll := by
  unfold Statement; decide

theorem unmuteAll : Statement .unmuteAll := by
  unfold Statement; decide

theorem selectInputAll : Statement .selectInputAll := by
  unfold Statement; decide

end Sys2Proof.Laws.EncodesWellFormed
end

