-- ==== Sys2Proof/Laws/Samples.lean ====
section
/-! SUPPORT. The two passes of a sample with the answers of their reads listed (R211, R214): what each gives, and what its edge detector
appends. -/

namespace Sys2Proof.Machine

/-- The bus devices of a list. -/
def State.busOnly (s : State) (l : List DevIx) : List DevIx := l.filter fun d => !(s.devCfg d).noI2C

theorem State.busOnly_cons (s : State) (d : DevIx) (l : List DevIx) {β : Type} (g : DevIx → β) :
    (s.busOnly (d :: l)).map g = (if (s.devCfg d).noI2C then [] else [g d]) ++ (s.busOnly l).map g := by
  unfold State.busOnly
  rw [List.filter_cons]
  cases (s.devCfg d).noI2C <;> simp

theorem State.busOnly_congr {s t : State} (h : t.board = s.board) (l : List DevIx) : t.busOnly l = s.busOnly l := by
  unfold State.busOnly
  rw [show t.devCfg = s.devCfg from funext (State.devCfg_congr h)]

theorem State.statusByte_congr {s t : State} (h : t.board = s.board) (d : DevIx) (x : Config.ReadAnswer) :
    t.statusByte d x = s.statusByte d x := by
  unfold State.statusByte
  rw [State.devCfg_congr h, show t.cfg = s.cfg from congrArg Config.Board.cfg h]

/-- Bit n of a status byte that was read, 0 where the read failed (R160, R165). -/
def statusBit (n : Nat) (x : Option Byte) : Bool :=
  match x with
  | some b => b.getLsbD n
  | none => false

theorem statusBit_eq_true (n : Nat) (x : Option Byte) : statusBit n x = true ↔ ∃ b, x = some b ∧ b.getLsbD n = true := by
  cases x <;> simp [statusBit]

/-- `s` after status reads of register `reg` of the listed devices, with these answers. -/
def State.afterReads (s : State) (l : List DevIx) (reg : DevIx → RegAddr) (a : DevIx → Config.ReadAnswer)
    (rest : List Config.ReadAnswer) : State :=
  { s with env := { s.env with
      reads := rest
      trace := s.env.trace ++ (s.busOnly l).map fun d => .busRd (s.devCfg d).addr (reg d) (a d) } }

/-- The status read of an Initialised device with its answer listed (R121, R160, R165). -/
theorem rdCore_listed (d : DevIx) (r : RegAddr) (n : Nat) (s : State) (a : DevIx → Config.ReadAnswer)
    (rest : List Config.ReadAnswer) (hh : s.healthy d = true)
    (hr : s.env.reads = (if (s.devCfg d).noI2C then [] else [a d]) ++ rest) :
    ∃ x, rdCore d r s = (x, s.afterReads [d] (fun _ => r) a rest) ∧
      (statusResultOf n x).bit = statusBit n (s.statusByte d (a d)) ∧
      (statusResultOf n x).readErr = (s.statusByte d (a d)).isNone := by
  by_cases hn : (s.devCfg d).noI2C = true
  · refine ⟨{ rep := Report.success, v := s.cfg.noI2CReadValue }, ?_, ?_, ?_⟩
    · simp only [hn, if_true, List.nil_append] at hr
      simp [rdCore, hn, State.afterReads, State.busOnly, ← hr]
    · simp [statusResultOf, Report.success, statusBit, State.statusByte, hn]
    · simp [statusResultOf, Report.success, State.statusByte, hn]
  · have hn : (s.devCfg d).noI2C = false := by simpa using hn
    refine ⟨readResultOf (a d), ?_, ?_⟩
    · simp only [hn, Bool.false_eq_true, if_false, List.cons_append, List.nil_append] at hr
      simp [rdCore, hn, hh, rawRead_listed d r s (a d) rest hr, State.afterReads, State.busOnly]
    · cases h : a d <;>
        simp [statusResultOf, readResultOf, Report.success, Report.failure, statusBit, State.statusByte, hn]

/-- The read error bit of a pass (R254). -/
theorem getLsbD_readErr (e : Bool) (d : DevIx) (i : Nat) :
    (if e then devBit d else 0#16).getLsbD i = (e && decide (i = d.val)) := by
  have : (if e then devBit d else 0#16) = failBit (!e) d := by cases e <;> rfl
  rw [this, getLsbD_failBit, Bool.not_not]

/-- AutomuteAggregate with its answers listed: every listed device is read, in order (R211). -/
theorem automuteAggregate_listed (a : DevIx → Config.ReadAnswer) :
    ∀ (l : List DevIx) (s : State) (rest : List Config.ReadAnswer), s.env.reads = (s.busOnly l).map a ++ rest →
      (∀ d ∈ l, s.healthy d = true) →
      (automuteAggregate l s).2.2 = s.afterReads l (fun d => (s.layout d).automuteReg) a rest ∧
        (automuteAggregate l s).2.1 = l.all (fun d => statusBit (s.layout d).automuteBit.val (s.statusByte d (a d))) ∧
        ∀ i, (automuteAggregate l s).1.getLsbD i = l.any (fun d => (s.statusByte d (a d)).isNone && decide (i = d.val))
  | [], s, rest, h, _ => by
    simp only [State.busOnly, List.filter_nil, List.map_nil, List.nil_append] at h
    simp [automuteAggregate, State.afterReads, State.busOnly, ← h]
  | d :: ds, s, rest, h, hh => by
    rw [State.busOnly_cons, List.append_assoc] at h
    obtain ⟨x, e1, e2, e3⟩ := rdCore_listed d (s.layout d).automuteReg (s.layout d).automuteBit.val s a _
      (hh d List.mem_cons_self) h
    have e : automutedProc d s = (statusResultOf (s.layout d).automuteBit.val x,
        s.afterReads [d] (fun _ => (s.layout d).automuteReg) a ((s.busOnly ds).map a ++ rest)) := by
      unfold automutedProc; rw [e1]
    obtain ⟨k1, k2, k3⟩ := automuteAggregate_listed a ds (automutedProc d s).2 rest (by rw [e]; rfl)
      (by rw [e]; exact fun g hg => hh g (List.mem_cons_of_mem _ hg))
    refine ⟨?_, ?_, fun i => ?_⟩
    · simp only [automuteAggregate]
      rw [k1, e]
      simp [State.afterReads, State.busOnly, State.devCfg, State.layout, State.cfg, List.filter_cons]
      split <;> simp
    · simp only [automuteAggregate]
      rw [k2, e, List.all_cons, ← e2]
      rfl
    · simp only [automuteAggregate]
      rw [BitVec.getLsbD_or, getLsbD_readErr, k3, e, List.any_cons, ← e3]
      rfl

/-- LockAggregate with its answers listed: every listed device is read, in order (R214). -/
theorem lockAggregate_listed (a : DevIx → Config.ReadAnswer) :
    ∀ (l : List DevIx) (s : State) (rest : List Config.ReadAnswer), s.env.reads = (s.busOnly l).map a ++ rest →
      (∀ d ∈ l, s.healthy d = true) → (∀ d ∈ l, d.val < s.nDev) →
      (lockAggregate l s).2.2 = s.afterReads l (fun d => (s.layout d).statusReg) a rest ∧
        (∀ i, (lockAggregate l s).2.1.getLsbD i = l.any (fun d =>
          (statusBit lockBit (s.statusByte d (a d)) && decide (i = d.val)) ||
            ((s.statusByte d (a d)).isNone && decide (i = d.val + s.nDev)))) ∧
        ∀ i, (lockAggregate l s).1.getLsbD i = l.any (fun d => (s.statusByte d (a d)).isNone && decide (i = d.val))
  | [], s, rest, h, _, _ => by
    simp only [State.busOnly, List.filter_nil, List.map_nil, List.nil_append] at h
    simp [lockAggregate, State.afterReads, State.busOnly, ← h]
  | d :: ds, s, rest, h, hh, hl => by
    rw [State.busOnly_cons, List.append_assoc] at h
    obtain ⟨x, e1, e2, e3⟩ := rdCore_listed d (s.layout d).statusReg lockBit s a _ (hh d List.mem_cons_self) h
    have e : lockedProc d s = (statusResultOf lockBit x,
        s.afterReads [d] (fun _ => (s.layout d).statusReg) a ((s.busOnly ds).map a ++ rest)) := by
      unfold lockedProc; rw [e1]
    obtain ⟨k1, k2, k3⟩ := lockAggregate_listed a ds (lockedProc d s).2 rest (by rw [e]; rfl)
      (by rw [e]; exact fun g hg => hh g (List.mem_cons_of_mem _ hg))
      (by rw [e]; exact fun g hg => hl g (List.mem_cons_of_mem _ hg))
    refine ⟨?_, fun i => ?_, fun i => ?_⟩
    · simp only [lockAggregate]
      rw [k1, e]
      simp [State.afterReads, State.busOnly, State.devCfg, State.layout, State.cfg, List.filter_cons]
      split <;> simp
    · simp only [lockAggregate]
      rw [BitVec.getLsbD_or, getLsbD_lockBits _ _ _ _ (hl d List.mem_cons_self) s.nDev_range.2, k2, e, List.any_cons,
        ← e2, ← e3]
      rfl
    · simp only [lockAggregate]
      rw [BitVec.getLsbD_or, getLsbD_readErr, k3, e, List.any_cons, ← e3]
      rfl

/-- AutomuteEdge appends its event exactly where the aggregate changes (R212). -/
theorem automuteEdge_env (agg : Bool) (s : State) : (automuteEdge agg s).env = { s.env with
    trace := s.env.trace ++
      if agg = s.ctl.automuted then [] else [.ev .automuteChanged (s.host.eventEnable.getLsbD 9)] } := by
  unfold automuteEdge
  split
  · simp
  · rfl

/-- LockEdge appends the event of the new class exactly where the aggregate changes (R215, R216). -/
theorem lockEdge_env (l : Word) (s : State) : (lockEdge l s).env = { s.env with
    trace := s.env.trace ++
      if l = s.ctl.prevLock then []
      else [.ev (lockEvent s.nDev l) (s.host.eventEnable.getLsbD (eventNumber (lockEvent s.nDev l)))] } := by
  unfold lockEdge
  split
  · simp
  · rfl

end Sys2Proof.Machine
end

