-- ==== Sys2Proof/Tests/Slice0.lean ====
section
/-! SUPPORT. Tests: ill-formed terms refused, words decoded, single steps against the vectors of
spec/95_test_vectors.md. -/

namespace Sys2Proof.Tests

open Sys2Proof.Machine Sys2Proof.Config

/-! ## Ill-formed terms (one for each check) -/

theorem test_word_opcode_zero_refused : commandWordWf 0x00000000#32 = false := by decide
theorem test_word_opcode_reserved_refused : commandWordWf 0x00000017#32 = false := by decide
theorem test_word_low_reserved_refused : commandWordWf 0x00000021#32 = false := by decide
theorem test_word_high_reserved_refused : commandWordWf 0x00080001#32 = false := by decide
theorem test_word_device_reg_refused : commandWordWf 0x00001008#32 = false := by decide
theorem test_word_controller_dev_refused : commandWordWf 0x00000110#32 = false := by decide
theorem test_word_transport_admitted : commandWordWf 0x0007F101#32 = true := by decide
theorem test_instr_absent_device_refused : (Instr.devInit 2).wf ex = false := by decide
theorem test_instr_present_device_admitted : (Instr.devInit 1).wf ex = true := by decide
theorem test_cfg_no_device_refused : ({ ex with nDev := 0 } : Cfg).wf = false := by decide
theorem test_cfg_too_many_devices_refused : ({ ex with nDev := 17 } : Cfg).countOk = false := by decide
theorem test_cfg_equal_addresses_refused :
    ({ ex with devs := ex.devs.set 1 (exDevice 0x48#7) } : Cfg).addrsOk = false := by decide
theorem test_layout_bad_pattern_refused : ({ exLayout with mutePat := 0xAAAB#16 } : Layout).patsOk = false := by decide
theorem test_layout_chip_type_three_refused :
    ({ exLayout with idMap := [(0x10#8, 3#2)] } : Layout).idMapOk = false := by decide
theorem test_layout_no_input_refused : ({ exLayout with inputPats := [] } : Layout).inputsOk = false := by decide
theorem test_cfg_noI2C_type_refused : ({ ex with noI2CChipType := 0#2 } : Cfg).noI2CTypeOk = false := by decide
theorem test_cfg_mode_without_pattern_refused :
    ({ ex with devs := ex.devs.set 0 { exDevice 0x48#7 with mode := 16 } } : Cfg).modesOk = false := by decide
theorem test_cfg_ex_admitted : ex.wf = true := by decide

/-- The block refuses to leave reset with an ill-formed configuration (R294). -/
theorem test_release_refuses : State.release { ex with nDev := 0 } = .refused .illFormedConfig := by
  simp [State.release, test_cfg_no_device_refused]

/-! ## Decoding: words written out from R90 and R93 as 13 zeros, REG, DEV, 000, OP -/

theorem test_decode_readReg : decodeTableWord 32 0b0000000000000_1111111_0001_000_00001 = some (.readReg 1 0x7F#7) := by
  decide
theorem test_decode_writeReg : decodeTableWord 32 0b0000000000000_0001011_0000_000_00010 = some (.writeReg 0 0x0B#7) := by
  decide
theorem test_decode_writeBits : decodeTableWord 32 0b0000000000000_0001100_0001_000_00011 = some (.writeBits 1 0x0C#7) := by
  decide
theorem test_decode_devInit : decodeTableWord 32 0b00000000000000000000_1111_000_01000 = some (.devInit 15) := by decide
theorem test_decode_devReset : decodeTableWord 32 0b00000000000000000000_0001_000_01001 = some (.devReset 1) := by decide
theorem test_decode_devLocked : decodeTableWord 32 0b00000000000000000000_0010_000_01010 = some (.devLocked 2) := by decide
theorem test_decode_devAutomuted : decodeTableWord 32 0b00000000000000000000_0100_000_01011 = some (.devAutomuted 4) := by
  decide
theorem test_decode_devMute : decodeTableWord 32 0b00000000000000000000_1000_000_01100 = some (.devMute 8) := by decide
theorem test_decode_devUnmute : decodeTableWord 32 0b00000000000000000000_0011_000_01101 = some (.devUnmute 3) := by decide
theorem test_decode_devSetAtten : decodeTableWord 32 0b00000000000000000000_0110_000_01110 = some (.devSetAtten 6) := by
  decide
theorem test_decode_devSelectInput : decodeTableWord 32 0b00000000000000000000_1100_000_01111 = some (.devSelectInput 12) := by
  decide
theorem test_decode_powerOn : decodeTableWord 32 0b00000000000000000000000000010000 = some .powerOn := by decide
theorem test_decode_powerOff : decodeTableWord 32 0b00000000000000000000000000010001 = some .powerOff := by decide
theorem test_decode_poll : decodeTableWord 32 0b00000000000000000000000000010010 = some .poll := by decide
theorem test_decode_setAttenAll : decodeTableWord 32 0b00000000000000000000000000010011 = some .setAttenAll := by decide
theorem test_decode_muteAll : decodeTableWord 32 0b00000000000000000000000000010100 = some .muteAll := by decide
theorem test_decode_unmuteAll : decodeTableWord 32 0b00000000000000000000000000010101 = some .unmuteAll := by decide
theorem test_decode_selectInputAll : decodeTableWord 32 0b00000000000000000000000000010110 = some .selectInputAll := by
  decide

/-- The answer of the decoder, its refusal reason alone. -/
def refusalOf (w : Word) : Option DecodeError :=
  match decode w with
  | .ok _ => none
  | .error e => some e

theorem test_decode_reserved_opcode : refusalOf 0x00000007#32 = some .reservedOpcode := by decide
theorem test_decode_reserved_bits_before_unused : refusalOf 0x000000F0#32 = some .reservedBits := by decide
theorem test_decode_high_bit : refusalOf 0x80000012#32 = some .reservedBits := by decide
theorem test_decode_unused_reg : refusalOf 0x00001010#32 = some .unusedField := by decide
theorem test_encode_read : encode (.readReg 0 0x10#7) = 0x00010001#32 := by decide
theorem test_encode_reset : encode (.devReset 1) = 0x00000109#32 := by decide

/-! ## Patterns (95_test_vectors.md section 3.2) -/

theorem test_pat_string : asmPat ['0', '1', '*', '*', '1', '0', '*', '1'] = some 0x1A49#16 := by decide
theorem test_pat_touch : patTouch 0x1A49#16 = 0xCD#8 := by decide
theorem test_pat_val : patVal 0x1A49#16 = 0x49#8 := by decide
theorem test_overlay_ff : overlay 0xFF#8 0x1A49#16 = 0x7B#8 := by decide
theorem test_overlay_mode_five : overlay 0xF0#8 0xAA11#16 = 0xF5#8 := by decide
theorem test_pat_invalid_top : patValid 0xEAAA#16 = false := by decide
theorem test_pat_invalid_bottom : patValid 0xAAA7#16 = false := by decide

/-! ## Single steps -/

/-- EX with both devices Initialised, nothing in the shadows. -/
def running : State :=
  ((State.resetWith boardEx).setPhase 0 .initialised).setPhase 1 .initialised

/-- EX right after reset. -/
def fresh : State := State.resetWith boardEx

/-- `s` with an operand latched and the oracle's answers listed. -/
def scripted (larg : Word) (reads : List ReadAnswer) (writes : List WriteAnswer) (s : State) : State :=
  { s with engine := { s.engine with larg := larg }, env := { s.env with reads := reads, writes := writes } }

/-- What the host and the bus see of a command: STATUS, RESULT, DEV_FAIL_MASK, the trace. -/
def seen (o : Host.Outcome State Fault Refusal) : Option (Word × Word × Word × List Action) :=
  match o with
  | .next t => some (t.statusWord, t.host.result, t.host.failMask, t.env.trace)
  | .fault _ => none
  | .refused _ => none

/-- A property of the next state. -/
def after (o : Host.Outcome State Fault Refusal) (p : State → Bool) : Bool :=
  match o with
  | .next t => p t
  | .fault _ => false
  | .refused _ => false

/-- T1. -/
theorem test_readReg_data :
    seen (exec (.readReg 0 0x10#7) (scripted 0 [.data 0x5A#8] [] running)) =
      some (0x006#32, 0x5A#32, 0#32, [.busRd 0x48#7 0x10#7 (.data 0x5A#8)]) := by decide
/-- T2. -/
theorem test_readReg_nack :
    seen (exec (.readReg 0 0x10#7) (scripted 0 [.addrErr .addrNack] [] running)) =
      some (0x262#32, 0#32, 1#32, [.busRd 0x48#7 0x10#7 (.addrErr .addrNack)]) := by decide
/-- T8. -/
theorem test_writeReg_full :
    seen (exec (.writeReg 0 0x0B#7) (scripted 0x1234567C#32 [.data 0x00#8, .data 0x7C#8] [.success] running)) =
      some (0x006#32, 0x7C#32, 0#32,
        [.busRd 0x48#7 0x0B#7 (.data 0x00#8), .busWr 0x48#7 0x0B#7 0x7C#8 .success,
          .busRd 0x48#7 0x0B#7 (.data 0x7C#8)]) := by decide
/-- T11. -/
theorem test_writeReg_verify :
    seen (exec (.writeReg 0 0x0B#7) (scripted 0x7C#32 [.data 0x00#8, .data 0x7D#8] [.success] running)) =
      some (0x082#32, 0x7D#32, 1#32,
        [.busRd 0x48#7 0x0B#7 (.data 0x00#8), .busWr 0x48#7 0x0B#7 0x7C#8 .success,
          .busRd 0x48#7 0x0B#7 (.data 0x7D#8)]) := by decide
/-- B1. -/
theorem test_writeBits_patch :
    seen (exec (.writeBits 0 0x0A#7) (scripted 0xFFFF1A49#32 [.data 0xFF#8, .data 0x7B#8] [.success] running)) =
      some (0x006#32, 0x7B#32, 0#32,
        [.busRd 0x48#7 0x0A#7 (.data 0xFF#8), .busWr 0x48#7 0x0A#7 0x7B#8 .success,
          .busRd 0x48#7 0x0A#7 (.data 0x7B#8)]) := by decide
/-- B5: the pattern is checked before the gate. -/
theorem test_writeBits_invalid :
    seen (exec (.writeBits 0 0x0A#7) (scripted 0xAAAB#32 [] [] fresh)) = some (0x042#32, 0#32, 1#32, []) := by decide
/-- D2. -/
theorem test_devInit_patches :
    seen (exec (.devInit 0)
      (scripted 0 [.data 0x11#8, .data 0x5F#8, .data 0x50#8, .data 0x03#8, .data 0x00#8] [.success, .success] fresh)) =
      some (0x006#32, 0x2011#32, 0#32,
        [.busRd 0x48#7 0x20#7 (.data 0x11#8), .busRd 0x48#7 0x0D#7 (.data 0x5F#8),
          .busWr 0x48#7 0x0D#7 0x50#8 .success, .busRd 0x48#7 0x0D#7 (.data 0x50#8),
          .busRd 0x48#7 0x0E#7 (.data 0x03#8), .busWr 0x48#7 0x0E#7 0x00#8 .success,
          .busRd 0x48#7 0x0E#7 (.data 0x00#8)]) := by decide
/-- D5: a failed mode write rolls back and keeps the chip type. -/
theorem test_devInit_rollback :
    after (exec (.devInit 0) (scripted 0 [.data 0x10#8, .data 0x0F#8] [.error .dataNack] fresh))
      (fun t => t.statusWord == 0x362#32 && t.host.result == 0x1010#32 && !t.healthy 0 &&
        (t.dev 0).chipType == 1#2 && !(t.entry 0 0x0D#7).valid) = true := by decide
/-- D9. -/
theorem test_devReset_clears :
    after (exec (.devReset 1) (running.setShadow 1 0x0D#7 0x50#8))
      (fun t => t.statusWord == 0x006#32 && !t.healthy 1 && !(t.entry 1 0x0D#7).valid && t.healthy 0) = true := by
  decide
/-- D8: BAD_DEV. -/
theorem test_devReset_absent : seen (exec (.devReset 2) running) = some (0x022#32, 0#32, 0#32, []) := by decide
/-- L1. -/
theorem test_devLocked_locked :
    seen (exec (.devLocked 0) (scripted 0 [.data 0x03#8] [] running)) =
      some (0x006#32, 0x103#32, 0#32, [.busRd 0x48#7 0x21#7 (.data 0x03#8)]) := by decide
/-- L4. -/
theorem test_devLocked_uninitialised :
    seen (exec (.devLocked 0) fresh) = some (0x052#32, 0x200#32, 1#32, []) := by decide
/-- M1. -/
theorem test_devAutomuted_muted :
    seen (exec (.devAutomuted 0) (scripted 0 [.data 0x02#8] [] running)) =
      some (0x006#32, 0x402#32, 0#32, [.busRd 0x48#7 0x21#7 (.data 0x02#8)]) := by decide
/-- M3. -/
theorem test_devAutomuted_nack :
    seen (exec (.devAutomuted 0) (scripted 0 [.addrErr .addrNack] [] running)) =
      some (0x262#32, 0x200#32, 1#32, [.busRd 0x48#7 0x21#7 (.addrErr .addrNack)]) := by decide
/-- U2. -/
theorem test_devMute_elided :
    seen (exec (.devMute 0) (scripted 0 [.data 0x01#8] [] running)) =
      some (0x006#32, 0x801#32, 0#32, [.busRd 0x48#7 0x0A#7 (.data 0x01#8)]) := by decide
/-- U4. -/
theorem test_devUnmute_written :
    seen (exec (.devUnmute 0) (scripted 0 [.data 0x01#8, .data 0x00#8] [.success] running)) =
      some (0x006#32, 0x000#32, 0#32,
        [.busRd 0x48#7 0x0A#7 (.data 0x01#8), .busWr 0x48#7 0x0A#7 0x00#8 .success,
          .busRd 0x48#7 0x0A#7 (.data 0x00#8)]) := by decide
/-- The clamp of 200 to 124 (95 section 1.8). -/
theorem test_devSetAtten_clamped :
    seen (exec (.devSetAtten 0) (scripted 0xC8#32 [.data 0x00#8, .data 0x7C#8] [.success] running)) =
      some (0x006#32, 0x7C#32, 0#32,
        [.busRd 0x48#7 0x0B#7 (.data 0x00#8), .busWr 0x48#7 0x0B#7 0x7C#8 .success,
          .busRd 0x48#7 0x0B#7 (.data 0x7C#8)]) := by decide
/-- DATA is the clamped value even on a failure. -/
theorem test_devSetAtten_uninitialised :
    seen (exec (.devSetAtten 0) (scripted 0xC8#32 [] [] fresh)) = some (0x052#32, 0x7C#32, 1#32, []) := by decide
/-- Input 2. -/
theorem test_devSelectInput_written :
    seen (exec (.devSelectInput 0) (scripted 2#32 [.data 0xF0#8, .data 0xF2#8] [.success] running)) =
      some (0x006#32, 0xF2#32, 0#32,
        [.busRd 0x48#7 0x0C#7 (.data 0xF0#8), .busWr 0x48#7 0x0C#7 0xF2#8 .success,
          .busRd 0x48#7 0x0C#7 (.data 0xF2#8)]) := by decide
/-- Input 4 = INPUT_COUNT. -/
theorem test_devSelectInput_out_of_range :
    seen (exec (.devSelectInput 0) (scripted 0x104#32 [] [] fresh)) = some (0x032#32, 0#32, 1#32, []) := by decide

/-- `s` with every event enabled and a tick count. -/
def observed (now : Word) (s : State) : State :=
  { s with now := now, host := { s.host with eventEnable := 0x3FF#10 } }

/-- R190's example. -/
theorem test_powerOn_events :
    after (exec .powerOn (observed 1000#32 fresh)) (fun t =>
      t.ctrlStatusWord == 0x00020221#32 && t.ctl.powerOnTime == 1000#32 && t.host.eventPending == 0x003#10 &&
        t.env.trace == [.ev .beforePowerOn true, .pin .relay true, .ev .afterPowerOn true]) = true := by decide

/-- A powered and initialised EX. -/
def runningOn : State :=
  { running with ctl := { running.ctl with
      power := true, initialised := true, relayOut := true, resetOut := true, powerOnTime := 1000#32 } }

/-- R195's example. -/
theorem test_powerOff_mutes :
    after (exec .powerOff (scripted 0 [.data 0#8, .data 1#8, .data 0#8, .data 1#8] [.success, .success]
      { runningOn with host := { runningOn.host with eventEnable := 0x00C#10 } })) (fun t =>
      t.ctrlStatusWord == 0x00020000#32 && t.ctl.prevLock == lockSentinel && t.devStateWord == 0#32 &&
        t.host.eventPending == 0x00C#10 && t.host.failMask == 0#32 &&
        t.env.trace.drop 6 == [.pin .reset false, .ev .beforePowerOff true, .pin .relay false, .ev .afterPowerOff true])
      = true := by decide

/-- P4's initialisation sequence: device 0 is not recognised, device 1 is unmuted. -/
theorem test_poll_partial_failure :
    after (exec .poll (scripted 0
      [.data 0x33#8, .data 0x11#8, .data 0#8, .data 0#8, .data 0x33#8, .data 1#8, .data 0#8] [.success]
      { observed 1500#32 fresh with
        ctl := { fresh.ctl with power := true, relayOut := true, powerOnTime := 1000#32 } })) (fun t =>
      t.ctrlStatusWord == 0x00020367#32 && t.devStateWord == 2#32 && t.chipTypeWord == 8#32 &&
        t.host.eventPending == 0x100#10 && t.host.failMask == 0x00010001#32 && t.host.result == 0x00010000#32 &&
        t.env.trace.length == 10) = true := by decide +kernel

/-- P3's sample at 1800: the second lock read fails. -/
theorem test_poll_sample :
    after (exec .poll (scripted 0 [.data 1#8, .data 0#8, .data 1#8, .addrErr .addrNack] []
      (observed 1800#32 runningOn))) (fun t =>
      t.ctl.prevLock == 9#32 && t.host.failMask == 0x00020000#32 && t.host.eventPending == 0x040#10 &&
        t.ctl.lastPollTime == 1800#32 && t.host.result == 0x00020000#32) = true := by decide +kernel
/-- The wrapped interval (95 section 3.5): 96 ticks since 0xFFFFFFF0 are too few, 100 are enough. -/
theorem test_elapsed_wrap :
    elapsed 0x50#32 0xFFFFFFF0#32 100#32 = false ∧ elapsed 0x54#32 0xFFFFFFF0#32 100#32 = true := by decide
/-- The lock classes of three bitmasks (95 section 3.5). -/
theorem test_lock_classes :
    lockEvent 2 0x3#32 = .lock ∧ lockEvent 2 0x2#32 = .noLock ∧ lockEvent 16 0x00010000#32 = .lockReadError := by decide

/-- A1. -/
theorem test_setAttenAll_both :
    seen (exec .setAttenAll (scripted 0xC8#32 [.data 0#8, .data 0x7C#8, .data 0#8, .data 0x7C#8] [.success, .success]
      running)) =
      some (0x006#32, 0#32, 0#32,
        [.busRd 0x48#7 0x0B#7 (.data 0#8), .busWr 0x48#7 0x0B#7 0x7C#8 .success, .busRd 0x48#7 0x0B#7 (.data 0x7C#8),
          .busRd 0x49#7 0x0B#7 (.data 0#8), .busWr 0x49#7 0x0B#7 0x7C#8 .success,
          .busRd 0x49#7 0x0B#7 (.data 0x7C#8)]) := by decide
/-- A3. -/
theorem test_muteAll_second_fails :
    seen (exec .muteAll (scripted 0 [.data 0#8, .data 1#8, .data 0#8] [.success, .error .dataNack] running)) =
      some (0x0A2#32, 0#32, 2#32,
        [.busRd 0x48#7 0x0A#7 (.data 0#8), .busWr 0x48#7 0x0A#7 1#8 .success, .busRd 0x48#7 0x0A#7 (.data 1#8),
          .busRd 0x49#7 0x0A#7 (.data 0#8), .busWr 0x49#7 0x0A#7 1#8 (.error .dataNack)]) := by decide
/-- A6. -/
theorem test_unmuteAll_second_elided :
    seen (exec .unmuteAll (scripted 0 [.data 1#8, .data 0#8, .data 0#8] [.success] running)) =
      some (0x006#32, 0#32, 0#32,
        [.busRd 0x48#7 0x0A#7 (.data 1#8), .busWr 0x48#7 0x0A#7 0#8 .success, .busRd 0x48#7 0x0A#7 (.data 0#8),
          .busRd 0x49#7 0x0A#7 (.data 0#8)]) := by decide
/-- A4. -/
theorem test_selectInputAll_out_of_range :
    seen (exec .selectInputAll (scripted 4#32 [] [] running)) = some (0x0A2#32, 0#32, 3#32, []) := by decide
/-- A5, its first device. -/
theorem test_selectInputAll_written :
    after (exec .selectInputAll (scripted 1#32 [.data 0xF0#8, .data 0xF1#8, .data 0xF0#8, .data 0xF1#8]
      [.success, .success] running)) (fun t =>
      t.statusWord == 0x006#32 && (t.entry 0 0x0C#7).val == 0xF1#8 && (t.entry 1 0x0C#7).val == 0xF1#8) = true := by
  decide

/-! ## Host, Timer and Reset -/

/-- P5: a CMD write while busy is dropped. -/
theorem test_overrun :
    after (hostWriteStep 4 0x00 0x12#32 (launch 0x10#32 fresh)) (fun t =>
      t.statusWord == 0x00000009#32 && t.ctrlStatusWord == 0x00020100#32 && t.engine.lcmd == 0x10#32) = true := by
  decide
/-- R22, R23 while BUSY = 1 (log 27): CMD reads as the launched word, ARG as written. -/
theorem test_busy_reads :
    hostReadWord (hostWriteWord 0x04 0x55#32 (launch 0x10#32 fresh)) 0x00 = 0x10#32 ∧
      hostReadWord (hostWriteWord 0x04 0x55#32 (launch 0x10#32 fresh)) 0x04 = 0x55#32 := by decide
/-- R66: an Engine step of an idle block changes nothing. -/
theorem test_engine_idle : agentStep .engine runningOn = .next runningOn := rfl
/-- E5. -/
theorem test_ack_other_bit :
    after (hostWriteStep 4 0x1C 0x010#32 { fresh with host := { fresh.host with eventPending := 0x020#10 } })
      (fun t => t.host.eventPending == 0x020#10 && t.irq) = true := by decide
theorem test_host_width_refused : hostReadStep 2 0x08 fresh = .refused .hostAccessWidth := rfl
theorem test_host_alignment_refused : hostReadStep 4 0x0A fresh = .refused .hostAccessMisaligned := rfl
theorem test_host_outside_faults : hostReadStep 4 0x40 fresh = .fault .outsideHostSpace := rfl
/-- 95 section 3.7. -/
theorem test_reset_values :
    ([0x00, 0x04, 0x08, 0x0C, 0x10, 0x14, 0x18, 0x1C, 0x20, 0x24, 0x28, 0x2C, 0x30, 0x34, 0x38, 0x3C].map
      (hostReadWord fresh)) =
      [0#32, 0#32, 0#32, 0#32, 0x00020000#32, 0xFFFFFFFF#32, 0#32, 0#32, 0#32, 0#32, 0#32, 0#32, 0#32, 0#32, 0#32,
        0#32] := by decide +kernel
/-- 95 section 3.7, EXN. -/
theorem test_reset_values_exN :
    hostReadWord (State.resetWith boardExN) 0x10 = 0x00010000#32 ∧
      hostReadWord (State.resetWith boardExN) 0x2C = 0x00010000#32 := by decide
/-- The timer wraps. -/
theorem test_tick_wraps : (tick { fresh with now := 0xFFFFFFFF#32 }).now = 0#32 := by decide
/-- R291: a Reset step discards the latched command. -/
theorem test_reset_discards : (resetStep (launch 0x10#32 fresh)).statusWord = 0#32 := by decide
/-- A placed word runs as the next step (log 12). -/
theorem test_placed_word_runs :
    after (step (fresh.withFetchWord 32 0x10)) (fun t => t.ctl.power && !t.status.busy) = true := by decide
/-- A placed word that is no command completes with BAD_CMD. -/
theorem test_placed_bad_word :
    seen (step (fresh.withFetchWord 32 0x17)) = some (0x012#32, 0#32, 0#32, []) := by decide

/-! ## Witnesses: for each statement with hypotheses, operands and a state that meet them -/

theorem witness_EncodeUndoesDecode :
    decode 0x0007FF03#32 = .ok (.writeBits 15 0x7F#7) ∧ decode 0x00000001#32 = .ok (.readReg 0 0x00#7) := by
  constructor <;> rfl

/-- `s` busy with the latched word `w`, the Engine to move. -/
def launched (w : Word) (s : State) : State := placeCommand w s

theorem witness_StepRunsDecodedCommand :
    (launched 0x00000712#32 fresh).env.schedule = [.engine] ∧ (launched 0x12#32 fresh).status.busy = true ∧
      decode (launched 0x12#32 fresh).engine.lcmd = .ok .poll := ⟨rfl, rfl, rfl⟩
theorem witness_MalformedWordCompletesBadCmd :
    (launched 0x00080001#32 fresh).status.busy = true ∧ commandWordWf (launched 0x00080001#32 fresh).engine.lcmd = false := by
  decide
theorem witness_StepRunsDecodedCommand_idle : fresh.status.busy = false := rfl
theorem witness_BusyEngineCommits : (launched 0xFFFFFFFF#32 fresh).status.busy = true := rfl
/-- The Engine's turn after a tick and a host read, and a run that a refused access stops. -/
theorem witness_BusyEngineCommits_turn :
    let s : State := { launch 0x10#32 fresh with
      env := { fresh.env with schedule := [.tick, .hostRead 4 0x08, .engine, .hostRead 2 0x08] } }
    after (runSteps 2 s) (fun u => u.status.busy && u.engine == s.engine && nextAction u == .engine) = true ∧
      after (runSteps 3 s) (fun t => !t.status.busy && t.status.done) = true ∧
      runSteps 4 s = .refused .hostAccessWidth := ⟨by decide, by decide, rfl⟩
theorem witness_AbsentDeviceCompletesBadDev :
    (Instr.devReset 2).device? = some 2 ∧ running.nDev ≤ (2 : DevIx).val := by decide
theorem witness_CommitReportsConsistently : ∃ t, exec (.devReset 1) running = .next t := ⟨_, rfl⟩
theorem witness_NoCommandWritesHostSide : ∃ t, exec .powerOn fresh = .next t := ⟨_, rfl⟩
theorem witness_EventsBecomePendingAtCommit :
    ∃ t, exec .powerOn (observed 0#32 fresh) = .next t ∧ Action.ev .beforePowerOn true ∈ t.env.trace := ⟨_, rfl, by decide⟩
theorem witness_ControllerFieldsHaveTheirWriters :
    (∃ t, exec (.devMute 0) running = .next t) ∧ (∃ t, exec .powerOn running = .next t) ∧
      (∃ t, exec .powerOff runningOn = .next t) ∧ ∃ t, exec .poll runningOn = .next t := ⟨⟨_, rfl⟩, ⟨_, rfl⟩, ⟨_, rfl⟩, ⟨_, rfl⟩⟩
theorem witness_DeviceStateHasItsWriters :
    (∃ t, exec .powerOff runningOn = .next t) ∧ (∃ t, exec (.writeReg 1 0x7F#7) running = .next t) ∧
      ∃ t, exec (.devInit 1) fresh = .next t ∧ (Instr.devInit 1).device? = some 1 ∧ (0 : DevIx) ≠ 1 :=
  ⟨⟨_, rfl⟩, ⟨_, rfl⟩, _, rfl, by decide⟩
theorem witness_RegisterCommandFrame :
    targetReg running (.devMute 1) = some (1, 0x0A#7) ∧ onlyReads (.readReg 1 0x7F#7) = true ∧
      (∃ t, exec (.devMute 1) running = .next t) ∧ ∃ t, exec (.readReg 1 0x7F#7) running = .next t :=
  ⟨by decide, rfl, ⟨_, rfl⟩, _, rfl⟩
theorem witness_TransactionsAreBounded :
    ∃ t, exec .poll (scripted 0 [.data 1#8, .timeout, .data 1#8, .data 0#8] [] (observed 1800#32 runningOn)) = .next t ∧
      t.host.result.extractLsb' 16 2 = 2#2 := ⟨_, rfl, by decide +kernel⟩

theorem witness_UninitialisedDeviceGivesNotInit :
    (1 : DevIx).val < fresh.nDev ∧ (fresh.devCfg 1).noI2C = false ∧ fresh.healthy 1 = false ∧
      patValid (operandPattern (scripted 0xAAAA0003#32 [] [] fresh).engine.larg) = false ∧
      patValid (operandPattern (scripted 0xFFFFAA00#32 [] [] fresh).engine.larg) = true ∧
      (operandByte (scripted 0xFFFFFF03#32 [] [] fresh).engine.larg).toNat < (fresh.layout 1).inputPats.length := by
  decide +kernel

/-- EXN right after reset. -/
def debugging : State := State.resetWith boardExN

theorem witness_NoI2CDeviceBypassesTheBus :
    (0 : DevIx).val < debugging.nDev ∧ (debugging.devCfg 0).noI2C = true ∧
      patValid (operandPattern debugging.engine.larg) = true ∧
      (operandByte (scripted 3#32 [] [] debugging).engine.larg).toNat < (debugging.layout 0).inputPats.length := by
  decide +kernel

theorem running_onBus (larg : Word) (reads : List ReadAnswer) (writes : List WriteAnswer) :
    (scripted larg reads writes running).onBus 1 :=
  show running.onBus 1 from ⟨by decide, by decide, by decide⟩

theorem witness_ReadRegReportsItsAnswer :
    (scripted 0 [.data 0xFF#8] [] running).onBus 1 ∧ (scripted 0 [.addrErr .other] [] running).onBus 1 ∧
      (scripted 0 [.timeout] [] running).onBus 1 ∧
      (scripted 0 [.timeout] [] running).env.reads = .timeout :: [] :=
  ⟨running_onBus .., running_onBus .., running_onBus .., rfl⟩
theorem witness_WriteRegElidesKnownValue :
    (scripted 0x17C#32 [.data 0x7C#8] [] running).onBus 1 ∧
      operandByte (scripted 0x17C#32 [.data 0x7C#8] [] running).engine.larg = 0x7C#8 ∧
      ((scripted 0x17C#32 [] [] running).setShadow 1 0x0B#7 0x7C#8).entry 1 0x0B#7 = { val := 0x7C#8, valid := true } ∧
      ¬(((scripted 0x17C#32 [.data 0x7C#8] [] running).entry 1 0x0B#7).valid = true ∧
        ((scripted 0x17C#32 [.data 0x7C#8] [] running).entry 1 0x0B#7).val = 0x7C#8) :=
  ⟨running_onBus .., by decide, by decide +kernel, by decide⟩
theorem witness_WriteRegElidesKnownValue_shadow :
    ((scripted 0x17C#32 [] [] running).setShadow 1 0x0B#7 0x7C#8).onBus 1 := by
  unfold State.onBus
  exact ⟨by decide, by decide, by decide⟩
theorem witness_WriteRegWritesAndVerifies :
    (scripted 0xFF#32 [.data 0#8, .data 0xFF#8] [.success] running).onBus 1 ∧
      operandByte (scripted 0xFF#32 [] [] running).engine.larg = 0xFF#8 ∧
      (scripted 0xFF#32 [.data 0#8, .data 0xFF#8] [.success] running).entry 1 0x7F#7 ≠ { val := 0xFF#8, valid := true } :=
  ⟨running_onBus .., by decide, by decide⟩
theorem witness_WriteRegFailureInvalidatesShadow :
    (∀ f : ReadFault, (scripted 0xFF#32 [f.answer] [] running).onBus 1 ∧
      (scripted 0xFF#32 [.data 0#8, f.answer] [.success] running).onBus 1) ∧
      (scripted 0xFF#32 [.data 0#8, .data 0xFE#8] [.success] running).onBus 1 ∧
      (scripted 0xFF#32 [.data 0#8] [.error .bufferOverflow] running).onBus 1 ∧ operandByte 0xFF#32 = 0xFF#8 ∧
      (scripted 0xFF#32 [.data 0#8, .timeout] [.success] running).entry 1 0#7 ≠ { val := 0xFF#8, valid := true } :=
  ⟨fun _ => ⟨running_onBus .., running_onBus ..⟩, running_onBus .., running_onBus .., by decide, by decide⟩
/-- T9: a failed first read. -/
theorem test_writeReg_unread :
    seen (exec (.writeReg 0 0x0B#7) (scripted 0x7C#32 [.addrErr .other] [] running)) =
      some (0x462#32, 0#32, 1#32, [.busRd 0x48#7 0x0B#7 (.addrErr .other)]) := by decide
/-- A failed verify read. -/
theorem test_writeReg_unverified :
    seen (exec (.writeReg 0 0x0B#7) (scripted 0x7C#32 [.data 0#8, .addrErr .addrNack] [.success] running)) =
      some (0x262#32, 0#32, 1#32,
        [.busRd 0x48#7 0x0B#7 (.data 0#8), .busWr 0x48#7 0x0B#7 0x7C#8 .success,
          .busRd 0x48#7 0x0B#7 (.addrErr .addrNack)]) := by decide
theorem witness_OverlayPatchesBitByBit : (7 : Nat) < 8 := by decide
/-- `s` with an operand latched and the answers of an end listed. -/
def ending (e : WriteEnd) (q : Request) (larg : Word) (s : State) : State := scripted larg (e.reads q) e.writes s

theorem nothing_known : ∀ (d : DevIx) (r : RegAddr), (running.entry d r).valid = false := by decide +kernel

/-- A request that goes to the bus on device 1 of EX. -/
theorem running_reaches (r : RegAddr) (q : Request) (e : WriteEnd) (larg : Word) (hq : q ≠ .noInput) :
    q.reachesBus (ending e q larg running) 1 r := by
  refine ⟨hq, show (running.devCfg 1).noI2C = false by decide, show running.healthy 1 = true by decide, fun h => ?_⟩
  cases q with
  | byte v =>
    have hs : running.entry 1 r = { val := v, valid := true } := h
    have := nothing_known 1 r
    rw [hs] at this
    cases this
  | patch p => exact h
  | noInput => exact h

/-- The ends of a request past its first read, on device 1 of EX, with the byte `cur` in the chip. -/
theorem running_ends (r : RegAddr) (q : Request) (larg : Word) (cur : Byte) (hq : q ≠ .noInput) (hg : q.goal cur ≠ cur) :
    (∀ f, (WriteEnd.unread f).fits (ending (.unread f) q larg running) 1 r q) ∧
      (∀ c, (WriteEnd.unwritten cur c).fits (ending (.unwritten cur c) q larg running) 1 r q) ∧
      (∀ f, (WriteEnd.unverified cur f).fits (ending (.unverified cur f) q larg running) 1 r q) ∧
      (WriteEnd.mismatched cur cur).fits (ending (.mismatched cur cur) q larg running) 1 r q ∧
      (WriteEnd.written cur).fits (ending (.written cur) q larg running) 1 r q :=
  ⟨fun _ => running_reaches r q _ larg hq, fun _ => ⟨running_reaches r q _ larg hq, hg⟩,
    fun _ => ⟨running_reaches r q _ larg hq, hg⟩, ⟨running_reaches r q _ larg hq, hg, hg.symm⟩,
    running_reaches r q _ larg hq, hg⟩

theorem witness_WriteBitsPatchesOrElides :
    let q := Request.patch (operandPattern 0xAAA9#32)
    patValid (operandPattern 0xAAA9#32) = true ∧ q.goal 0xFE#8 ≠ 0xFE#8 ∧ q ≠ .noInput ∧
      WriteEnd.bypassed.fits (ending .bypassed q 0xAAA9#32 debugging) 0 0x0A#7 q ∧
      WriteEnd.gated.fits (ending .gated q 0xAAA9#32 fresh) 1 0x0A#7 q ∧
      (WriteEnd.elided 0xFF#8).fits (ending (.elided 0xFF#8) q 0xAAA9#32 running) 1 0x0A#7 q :=
  ⟨by decide, by decide, by decide, ⟨by decide, by decide⟩, ⟨by decide, by decide, by decide⟩,
    running_reaches _ _ _ _ (by decide), by decide⟩
theorem witness_InvalidPatternIsBadPattern :
    (1 : DevIx).val < fresh.nDev ∧ (0x0000C000#32).getLsbD (2 * 7) = true ∧ (0x0000C000#32).getLsbD (2 * 7 + 1) = true ∧
      (0x3#32).getLsbD (2 * 0) = true ∧ (0x3#32).getLsbD (2 * 0 + 1) = true := by decide
theorem witness_AllKeepPatternNeverWrites :
    operandPattern (scripted 0x1234AAAA#32 [.data 0x5A#8] [] running).engine.larg = 0xAAAA#16 ∧
      ∃ t, exec (.writeBits 1 0x0A#7) (scripted 0x1234AAAA#32 [.data 0x5A#8] [] running) = .next t := ⟨by decide, _, rfl⟩

/-- A chip with 0 in every register. -/
def blankChip : ChipContents := fun _ _ => 0#8

/-- The state before, between and after the two commands of the round trip. -/
theorem witness_WriteThenReadRoundTrip :
    ∃ s t u : State, s.onBus 1 ∧ ((s.entry 1 0x0B#7).valid = true → (s.entry 1 0x0B#7).val = blankChip 0x49#7 0x0B#7) ∧
      exec (.writeReg 1 0x0B#7) s = .next t ∧ t.status.ok = true ∧ (chipAfter t.env.trace blankChip).isSome = true ∧
      exec (.readReg 1 0x0B#7) t = .next u ∧
      (chipAfter (t.env.trace ++ u.env.trace) blankChip).isSome = true :=
  ⟨scripted 0x7C#32 [.data 0#8, .data 0x7C#8, .data 0x7C#8] [.success] running, _, _, running_onBus .., by decide, rfl,
    by decide, by decide, rfl, by decide⟩

/-- Device 1 of EX identified: both patches written (D2), both elided, the mode patch failed (D5). -/
theorem witness_DevInitRecognises :
    let s := ((fresh.dropShadowAll 1).setChipType 1 2#2).setPhase 1 .initialised
    let mode := Request.patch (fresh.modePattern 1)
    let phase := Request.patch (fresh.phasePattern 1)
    idChipType (fresh.layout 1).idMap 0x11#8 = 2#2 ∧ mode.reachesBus s 1 0x0D#7 ∧ phase.reachesBus s 1 0x0E#7 ∧
      mode.goal 0x5F#8 = 0x50#8 ∧ phase.goal 0x03#8 = 0x00#8 ∧ mode.goal 0xF0#8 = 0xF0#8 ∧ phase.goal 0x0C#8 = 0x0C#8 ∧
      (WriteEnd.unwritten 0x5F#8 .dataNack).report.ok = false :=
  ⟨by decide +kernel, ⟨by decide, by decide, by decide, id⟩, ⟨by decide, by decide, by decide, id⟩, by decide +kernel,
    by decide +kernel, by decide +kernel, by decide +kernel, rfl⟩
theorem witness_DevInitFailsFastOnUnknownId :
    (1 : DevIx).val < fresh.nDev ∧ (fresh.devCfg 1).noI2C = false ∧ idChipType (fresh.layout 1).idMap 0x12#8 = 0#2 ∧
      (scripted 0 [.data 0x12#8] [] fresh).env.reads = [.data 0x12#8] ∧
      (scripted 0 [.timeout] [] fresh).env.reads = [ReadFault.timeout.answer] := by decide +kernel
/-- D4: a failed identification read keeps the recorded chip type. -/
theorem test_devInit_unread :
    after (exec (.devInit 0) (scripted 0 [.addrErr .addrNack] [] (fresh.setChipType 0 2#2)))
      (fun t => t.statusWord == 0x262#32 && t.host.result == 0x2000#32 && !t.healthy 0 && (t.dev 0).chipType == 2#2) = true := by
  decide
theorem witness_DevInitSucceedsOrRollsBack :
    (1 : DevIx).val < fresh.nDev ∧ ∃ t, exec (.devInit 1) (scripted 0 [.timeout] [] fresh) = .next t :=
  ⟨by decide, _, rfl⟩
theorem witness_DevResetForcesUninitialised : (1 : DevIx).val < running.nDev := by decide
theorem witness_StatusReadsReportTheirBit :
    (scripted 0 [.data 0x03#8] [] running).onBus 1 ∧ (scripted 0 [.addrErr .bufferOverflow] [] running).onBus 1 ∧
      (scripted 0 [.timeout] [] running).onBus 1 := ⟨running_onBus .., running_onBus .., running_onBus ..⟩
theorem witness_MuteAndUnmutePatchMuteReg :
    let mute := Request.patch (running.layout 1).mutePat
    let unmute := Request.patch (running.layout 1).unmutePat
    mute.goal 0#8 = 1#8 ∧ unmute.goal 1#8 = 0#8 ∧ mute ≠ .noInput ∧ unmute ≠ .noInput ∧
      WriteEnd.bypassed.fits (ending .bypassed mute 0 debugging) 0 0x0A#7 mute ∧
      WriteEnd.gated.fits (ending .gated mute 0 fresh) 1 0x0A#7 mute ∧
      (WriteEnd.elided 1#8).fits (ending (.elided 1#8) mute 0 running) 1 0x0A#7 mute ∧
      (WriteEnd.elided 0#8).fits (ending (.elided 0#8) unmute 0 running) 1 0x0A#7 unmute :=
  ⟨by decide +kernel, by decide +kernel, by decide, by decide, ⟨by decide, by decide⟩, ⟨by decide, by decide, by decide⟩,
    ⟨running_reaches _ _ _ _ (by decide), by decide +kernel⟩, running_reaches _ _ _ _ (by decide), by decide +kernel⟩
theorem witness_SetAttenWritesClampedValue :
    let q := Request.byte (clampAtten (operandByte 125#32) (running.layout 1).attenMax)
    q = .byte 124#8 ∧ clampAtten (operandByte 124#32) (running.layout 1).attenMax = 124#8 ∧ q.goal 0#8 ≠ 0#8 ∧
      q ≠ .noInput ∧ WriteEnd.bypassed.fits (ending .bypassed q 125#32 debugging) 0 0x0B#7 q ∧
      WriteEnd.gated.fits (ending .gated q 125#32 fresh) 1 0x0B#7 q ∧
      (WriteEnd.elided 124#8).fits (ending (.elided 124#8) q 125#32 running) 1 0x0B#7 q :=
  ⟨by decide, by decide, by decide, by decide, ⟨by decide, by decide⟩, ⟨by decide, by decide, by decide⟩,
    running_reaches _ _ _ _ (by decide), by decide⟩
/-- The shadow holds the clamped value. -/
theorem witness_SetAttenWritesClampedValue_coalesced :
    WriteEnd.coalesced.fits ((ending .coalesced (.byte 124#8) 125#32 running).setShadow 1 0x0B#7 124#8) 1 0x0B#7
      (.byte 124#8) := by
  refine ⟨by decide, by decide, ?_⟩
  show State.entry _ _ _ = _
  decide +kernel
/-- On a noI2C device: success without the bus, ELIDED and the clamped value (R173, log 26). -/
theorem test_devSetAtten_noI2C :
    seen (exec (.devSetAtten 0) (scripted 0xC8#32 [] [] debugging)) = some (0x006#32, 0x87C#32, 0#32, []) := by decide
theorem witness_AttenDataIsTheMinimum :
    (1 : DevIx).val < fresh.nDev ∧ ∃ t, exec (.devSetAtten 1) (scripted 0xFF#32 [] [] fresh) = .next t := ⟨by decide, _, rfl⟩
theorem witness_SelectInputPatchesInputReg :
    let q := running.inputRequest 1 (operandByte 3#32)
    q = .patch 0xAAA5#16 ∧ q.goal 0xF0#8 = 0xF3#8 ∧ q ≠ .noInput ∧
      WriteEnd.bypassed.fits (ending .bypassed q 3#32 debugging) 0 0x0C#7 q ∧
      WriteEnd.gated.fits (ending .gated q 3#32 fresh) 1 0x0C#7 q ∧
      (WriteEnd.elided 0xF3#8).fits (ending (.elided 0xF3#8) q 3#32 running) 1 0x0C#7 q ∧
      running.inputRequest 1 (operandByte 0x104#32) = .noInput :=
  ⟨by decide +kernel, by decide +kernel, by decide +kernel, ⟨by decide +kernel, by decide⟩,
    ⟨by decide +kernel, by decide, by decide⟩, ⟨running_reaches _ _ _ _ (by decide +kernel), by decide +kernel⟩,
    by decide +kernel⟩
theorem witness_SelectorOutOfRangeIsBadArg :
    (1 : DevIx).val < fresh.nDev ∧ (fresh.layout 1).inputPats.length ≤ (operandByte 0x104#32).toNat := by decide +kernel

theorem witness_PowerOnPowersUp : fresh.ctl.power = false ∧ runningOn.ctl.power = true := ⟨rfl, rfl⟩
theorem witness_PowerOffShutsDown : runningOn.ctl.power = true ∧ fresh.ctl.power = false := ⟨rfl, rfl⟩

/-- EX powered at tick 1000, its devices Uninitialised. -/
def powered (now : Word) : State :=
  { fresh with now := now, ctl := { fresh.ctl with power := true, relayOut := true, powerOnTime := 1000#32 } }

theorem witness_PollWaits :
    fresh.ctl.power = false ∧
      ((powered 1499#32).ctl.power = true ∧ (powered 1499#32).ctl.initialised = false ∧
        ((powered 1499#32).now - (powered 1499#32).ctl.powerOnTime).toNat < (powered 1499#32).cfg.settleDelay.toNat) ∧
      ({ fresh with ctl := runningOn.ctl } : State).healthy 1 = false ∧
      ((observed 99#32 runningOn).now - (observed 99#32 runningOn).ctl.lastPollTime).toNat <
        (observed 99#32 runningOn).cfg.sampleInterval.toNat := by decide
theorem witness_PollRunsInitSequence :
    (powered 1500#32).ctl.power = true ∧ (powered 1500#32).ctl.initialised = false ∧
      (powered 1500#32).cfg.settleDelay.toNat ≤ ((powered 1500#32).now - (powered 1500#32).ctl.powerOnTime).toNat := by
  decide
theorem witness_PollSamplesEveryDevice :
    let am : DevIx → ReadAnswer := fun d => if d = 0 then .data 2#8 else .timeout
    let lk : DevIx → ReadAnswer := fun d => if d = 0 then .data 1#8 else .addrErr .addrNack
    let s := scripted 0 [.data 2#8, .timeout, .data 1#8, .addrErr .addrNack] [] (observed 100#32 runningOn)
    let onBus := s.devices.filter fun d => !(s.devCfg d).noI2C
    s.ctl.power = true ∧ s.ctl.initialised = true ∧ (∀ d : DevIx, d.val < s.nDev → s.healthy d = true) ∧
      s.cfg.sampleInterval.toNat ≤ (s.now - s.ctl.lastPollTime).toNat ∧
      s.env.reads = onBus.map am ++ (onBus.map lk ++ []) ∧ onBus = [0, 1] := by decide +kernel
/-- A noI2C device alone: nothing is read. -/
theorem witness_PollSamplesEveryDevice_noI2C :
    let s : State := { debugging.setPhase 0 .initialised with now := 100#32, ctl := runningOn.ctl }
    s.ctl.power = true ∧ s.ctl.initialised = true ∧ (∀ d : DevIx, d.val < s.nDev → s.healthy d = true) ∧
      s.cfg.sampleInterval.toNat ≤ (s.now - s.ctl.lastPollTime).toNat ∧ s.env.reads = [] ∧
      (s.devices.filter fun d => !(s.devCfg d).noI2C) = [] := by decide +kernel
theorem witness_SampleFiresOnChangeOnly :
    ∃ t, exec .poll (observed 100#32 runningOn) = .next t ∧ (observed 100#32 runningOn).initSuccess = true ∧
      (observed 100#32 runningOn).cfg.sampleInterval.toNat ≤
        ((observed 100#32 runningOn).now - (observed 100#32 runningOn).ctl.lastPollTime).toNat :=
  ⟨_, rfl, by decide, by decide⟩

/-- The hypotheses of the lock classes, with the bits looked at up to 32. -/
def lockWord (n : Nat) (l : Word) : Bool :=
  ((List.range 32).all fun i => decide (i < 2 * n) || !l.getLsbD i) &&
    (List.range n).all fun i => !(l.getLsbD i && l.getLsbD (i + n))

/-- A word of each class, for 1 and for 16 devices. -/
theorem witness_LockClassesPartition :
    lockWord 1 0x1#32 = true ∧ lockWord 1 0x0#32 = true ∧ lockWord 1 0x2#32 = true ∧ lockWord 16 0xFFFF#32 = true ∧
      lockWord 16 0x7FFF#32 = true ∧ lockWord 16 0x80007FFF#32 = true := by decide
theorem witness_LockClassesPartition_bits :
    (∀ i, 2 * 1 ≤ i → (0x2#32).getLsbD i = false) ∧ ∀ i, i < 1 → ((0x2#32).getLsbD i && (0x2#32).getLsbD (i + 1)) = false := by
  refine ⟨fun i hi => ?_, by decide⟩
  by_cases h : i < 32
  · revert hi; interval_cases i <;> decide
  · exact BitVec.getLsbD_of_ge _ _ (by omega)
theorem witness_LockAggregateIsNeverSentinel : (0 : Nat) < running.nDev := by decide
theorem witness_PowerCycleReentersInitialising :
    ∃ a b c, exec .powerOn fresh = .next a ∧ exec .powerOff a = .next b ∧ exec .powerOn b = .next c :=
  ⟨_, _, _, rfl, rfl, rfl⟩
theorem witness_BroadcastReportsFailedDevices :
    isBroadcast .setAttenAll = true ∧ isBroadcast .muteAll = true ∧ isBroadcast .unmuteAll = true ∧
      isBroadcast .selectInputAll = true ∧ (debugging.devCfg 0).noI2C = true ∧
      (operandByte (scripted 3#32 [] [] debugging).engine.larg).toNat < (debugging.layout 0).inputPats.length := by
  decide +kernel
/-- Device 1 fails and device 0 does not: both hypotheses of the three statements about every device are met. -/
theorem witness_AllReachEveryDevice :
    ∃ t, exec .muteAll (scripted 0 [.data 0#8, .data 1#8] [.success] (running.setPhase 1 .uninitialised)) = .next t ∧
      t.host.failMask.getLsbD 0 = false ∧ (running.setPhase 1 .uninitialised).healthy 1 = false ∧
      patTouch (running.layout 0).mutePat ≠ 0#8 ∧ patTouch (running.layout 0).unmutePat ≠ 0#8 := by
  refine ⟨_, rfl, ?_⟩
  decide +kernel

/-- The ends of a request on both devices of EX: written on device 0, a failed write on device 1. -/
def twoEnds (cur : Byte) : DevIx → WriteEnd := fun d => if d = 0 then .written cur else .unwritten cur .dataNack

/-- Both devices of EX meet the ends, whatever is listed, where the request goes to the bus and changes the byte. -/
theorem running_twoEnds (larg : Word) (reads : List ReadAnswer) (writes : List WriteAnswer) (reg : DevIx → RegAddr)
    (q : DevIx → Request) (cur : Byte) (hq : ∀ d, q d ≠ .noInput) (hg : ∀ d, (q d).goal cur ≠ cur) :
    ∀ d : DevIx, d.val < running.nDev → (twoEnds cur d).fits (scripted larg reads writes running) d (reg d) (q d) := by
  intro d hd
  have hr : (q d).reachesBus (scripted larg reads writes running) d (reg d) := by
    refine ⟨hq d, ?_, ?_, fun h => ?_⟩
    · show (running.devCfg d).noI2C = false
      clear hq hg
      revert d; decide
    · show running.healthy d = true
      clear hq hg
      revert d; decide
    · cases hqd : q d with
      | byte v =>
        rw [hqd] at h
        have hs : running.entry d (reg d) = { val := v, valid := true } := h
        have := nothing_known d (reg d)
        rw [hs] at this
        cases this
      | patch p => rw [hqd] at h; exact h
      | noInput => rw [hqd] at h; exact h
  unfold twoEnds
  split
  · exact ⟨hr, hg d⟩
  · exact ⟨hr, hg d⟩

/-- The answers of those ends, in index order. -/
theorem witness_Broadcasts_answers :
    (running.devices.flatMap fun d => (twoEnds 0#8 d).reads (.patch (running.layout d).mutePat)) =
        [.data 0#8, .data 1#8, .data 0#8] ∧
      (running.devices.flatMap fun d => (twoEnds 0#8 d).writes) = [.success, .error .dataNack] := by decide +kernel

theorem witness_CmdWriteLaunchesOrOverruns :
    fresh.status.busy = false ∧ (launch 0x10#32 fresh).status.busy = true := ⟨rfl, rfl⟩
theorem witness_WritableRegistersTakeTheirBits : (9 : Nat) < 10 := by decide
theorem witness_HostAccessesAreWholeAlignedWords :
    (0x3C % 4 = 0 ∧ 0x3C < 64) ∧ (0x40 % 4 = 0 ∧ 64 ≤ 0x40) ∧ (2 : Nat) ≠ 4 ∧ 0x3D % 4 ≠ 0 ∧ 0x41 % 4 ≠ 0 := by decide
theorem witness_IllFormedConfigIsRefused :
    State.release ex = .next (State.resetWith boardEx) ∧ ({ ex with nDev := 0 } : Cfg).wf = false := ⟨rfl, by decide⟩
/-- EX busy with POLL meets the invariant, and steps. -/
theorem witness_StepKeepsInvariant :
    (launched 0x12#32 fresh).Inv ∧ ∃ t, step (launched 0x12#32 fresh) = .next t := by
  refine ⟨⟨?_, ?_, ?_, ?_, ?_, ?_, ?_, .inl rfl, ?_, rfl⟩, _, rfl⟩
  · unfold State.PhasesSettled; decide
  · unfold State.ShadowsBacked; decide +kernel
  · unfold State.ChipTypesKnown; decide
  · unfold State.AbsentQuiet; decide
  · unfold State.PowerConsistent; decide
  · unfold State.StatusConsistent; decide
  · unfold State.MaskBounded; decide
  · unfold State.ResultShaped; decide
theorem witness_ControllerAndDeviceWordsLayout :
    fresh.status.busy = false ∧
      ((launch 0x10#32 fresh).status.busy = true ∧ (launch 0x10#32 fresh).engine.lcmd = 0x10#32 ∧
        (launch 0x10#32 fresh).engine.lpow = false) ∧
      (launch 0x11#32 runningOn).status.busy = true ∧ (launch 0x11#32 runningOn).engine.lcmd = 0x11#32 ∧
      (launch 0x11#32 runningOn).engine.lpow = true := by decide

end Sys2Proof.Tests
end

/-! PROOF. The configuration check, condition by condition (spec/92_eei_decisions.md D48, 70_reset_and_hazards.md R294). -/

namespace Sys2Proof.Config

theorem mem_allDevIx (d : DevIx) : d ∈ allDevIx := by revert d; decide

/-- D48 for a chip layout, as propositions. -/
def Layout.Good (l : Layout) : Prop :=
  Machine.patValid l.mutePat = true ∧ Machine.patValid l.unmutePat = true ∧
    (∀ p ∈ l.inputPats, Machine.patValid p = true) ∧ (∀ p ∈ l.modePats, Machine.patValid p = true) ∧
    (∀ p ∈ l.phasePats, Machine.patValid p = true) ∧ (∀ e ∈ l.idMap, e.2 ≠ 3#2) ∧ 1 ≤ l.inputPats.length ∧
    l.inputPats.length ≤ 256

/-- The bus devices stand at distinct addresses (D48). -/
def Cfg.AddrsDistinct (c : Cfg) : Prop :=
  ∀ d e : DevIx, d.val < c.nDev → e.val < c.nDev → d ≠ e → c.devs[d].noI2C = false → c.devs[e].noI2C = false →
    c.devs[d].addr ≠ c.devs[e].addr

/-- The mode and the phase of every existing device have a pattern (log 5). -/
def Cfg.ModesListed (c : Cfg) : Prop :=
  ∀ d : DevIx, d.val < c.nDev → c.devs[d].mode < (c.layout c.devs[d].family).modePats.length ∧
    c.devs[d].phase < (c.layout c.devs[d].family).phasePats.length

/-- D48 and log 5 for a configuration, as propositions. -/
def Cfg.Good (c : Cfg) : Prop :=
  1 ≤ c.nDev ∧ c.nDev ≤ 16 ∧ c.AddrsDistinct ∧ c.f18.Good ∧ c.f28.Good ∧
    (c.noI2CChipType = 1#2 ∨ c.noI2CChipType = 2#2) ∧ c.ModesListed

theorem Layout.good_iff (l : Layout) :
    l.Good ↔ l.patsOk = true ∧ l.idMapOk = true ∧ l.inputsOk = true := by
  simp only [Layout.Good, Layout.patsOk, Layout.idMapOk, Layout.inputsOk, Bool.and_eq_true, List.all_eq_true,
    bne_iff_ne, decide_eq_true_eq, and_assoc]

theorem Cfg.countOk_iff (c : Cfg) : c.countOk = true ↔ 1 ≤ c.nDev ∧ c.nDev ≤ 16 := by
  simp [Cfg.countOk]

/-- A disjunct that excuses a pair of devices is a premise on the pair. -/
theorem Cfg.addrsOk_iff (c : Cfg) : c.addrsOk = true ↔ c.AddrsDistinct := by
  simp only [Cfg.addrsOk, Cfg.AddrsDistinct, List.all_eq_true, mem_allDevIx, true_imp_iff, Bool.or_eq_true,
    decide_eq_true_eq, bne_iff_ne, ← Bool.not_eq_true, ← Nat.not_le]
  refine forall_congr' fun d => forall_congr' fun e => ?_
  tauto

theorem Cfg.noI2CTypeOk_iff (c : Cfg) :
    c.noI2CTypeOk = true ↔ c.noI2CChipType = 1#2 ∨ c.noI2CChipType = 2#2 := by
  simp [Cfg.noI2CTypeOk]

theorem Cfg.modesOk_iff (c : Cfg) : c.modesOk = true ↔ c.ModesListed := by
  simp only [Cfg.modesOk, Cfg.ModesListed, List.all_eq_true, mem_allDevIx, true_imp_iff, Bool.or_eq_true,
    Bool.and_eq_true, decide_eq_true_eq, or_iff_not_imp_left, Nat.not_le]

/-- The check `Cfg.wf` decides the conditions of D48. -/
theorem Cfg.wf_iff_good (c : Cfg) : c.wf = true ↔ c.Good := by
  simp only [Cfg.wf, Cfg.Good, Bool.and_eq_true, c.countOk_iff, c.addrsOk_iff, c.noI2CTypeOk_iff, c.modesOk_iff,
    Layout.good_iff]
  tauto

end Sys2Proof.Config

namespace Sys2Proof.Machine

theorem State.release_of_wf {c : Config.Cfg} (h : c.wf = true) :
    State.release c = .next (State.resetWith ⟨c, h⟩) := dif_pos h

theorem State.release_of_not_wf {c : Config.Cfg} (h : ¬ c.wf = true) :
    State.release c = .refused .illFormedConfig := dif_neg h

/-- Settles O58: the check `Cfg.wf` decides the listed conditions, and the release branches on it. -/
theorem illFormedConfigIsRefused : Obligations.IllFormedConfigIsRefused := by
  intro c layoutGood good
  have hgood : c.wf = true ↔ good := c.wf_iff_good
  constructor
  · intro h
    exact ⟨⟨c, hgood.2 h⟩, rfl, State.release_of_wf (hgood.2 h)⟩
  · intro h
    exact State.release_of_not_wf (mt hgood.1 h)

end Sys2Proof.Machine

/-! PROOF. Every Engine step ends with a commit (spec/20_memory.md R66, R67): what that says of the state it leaves. -/

namespace Sys2Proof.Machine

/-! ## The commit -/

/-- `t` is what the commit of an Engine step leaves: the step began on `s`, its procedures kept `EngFrame`, and it committed with a
consistent report (R66, R67). -/
def Commits (s t : State) : Prop :=
  ∃ (rep : Report) (res : CmdResult) (pf sf : DevMask) (u : State),
    rep.Consistent ∧ EngFrame (beginStep s) u ∧ t = finish rep res pf sf u

theorem EngFrame.commits {s u : State} (h : EngFrame (beginStep s) u) {rep : Report} (hr : rep.Consistent)
    (res : CmdResult) (pf sf : DevMask) : Commits s (finish rep res pf sf u) :=
  ⟨rep, res, pf, sf, u, hr, h, rfl⟩

theorem ProcFrame.commits {s u : State} (h : ProcFrame (beginStep s) u) {rep : Report} (hr : rep.Consistent)
    (res : CmdResult) (pf sf : DevMask) : Commits s (finish rep res pf sf u) :=
  h.toEng.commits hr res pf sf

theorem Commits.busy {s t : State} (h : Commits s t) : t.status.busy = false := by
  obtain ⟨_, _, _, _, _, _, _, rfl⟩ := h
  rfl

theorem Commits.done {s t : State} (h : Commits s t) : t.status.done = true := by
  obtain ⟨_, _, _, _, _, _, _, rfl⟩ := h
  rfl

/-- Nothing between the start of an Engine step and its commit writes the host's side, nor does the commit (R47, R62). -/
theorem Commits.commandFrame {s t : State} (h : Commits s t) : CommandFrame s t := by
  obtain ⟨rep, res, pf, sf, u, _, f, rfl⟩ := h
  exact {
    board := f.board
    now := f.now
    arg := (congrArg HostRegs.arg f.host :)
    eventEnable := (congrArg HostRegs.eventEnable f.host :)
    overrun := (congrArg Status.overrun f.status :)
    lcmd := f.lcmd
    larg := f.larg
    lpow := f.lpow
    schedule := f.schedule
    turn := f.turn
    readData := f.readData }

/-! ## The commits of the commands -/

/-- A word that is no command commits with BAD_CMD (R94). -/
theorem completeBadCmd_commits (s : State) : Commits s (completeBadCmd s) :=
  (ProcFrame.refl _).commits (Report.failure_consistent _ (by decide) (by decide)) ..

/-- A command on an absent device commits with BAD_DEV (R95). -/
theorem onDevice_commits {d : DevIx} {body : State → State} {s : State} (h : Commits s (body (beginStep s))) :
    Commits s (onDevice d body s) := by
  unfold onDevice
  split
  · exact h
  · exact (ProcFrame.refl _).commits (Report.failure_consistent _ (by decide) (by decide)) ..

theorem WriteSpec.commits {d e : DevIx} {r : RegAddr} {n : Nat} {s : State} {x : WriteResult × State}
    (h : WriteSpec d r n (beginStep s) x) : Commits s (finishWrite e x) :=
  h.frame.toProcFrame.commits h.report ..

theorem patchRegister_commits (d : DevIx) (r : RegAddr) (p : Pattern) (s : State) :
    Commits s (patchRegister d r p (beginStep s)) := by
  unfold patchRegister
  split
  · exact (bitsCore_spec ..).commits
  · exact (ProcFrame.refl _).commits (Report.failure_consistent _ (by decide) (by decide)) ..

theorem statusResultOf_consistent (n : Nat) {x : ReadResult} (h : x.rep.Consistent) :
    (statusResultOf n x).rep.Consistent := by
  unfold statusResultOf
  split
  · exact Report.success_consistent
  · exact h

/-- A broadcast commits with success or with DEV_FAIL (R254). -/
theorem finishAll_commits {s : State} {x : DevMask × State} (h : ProcFrame (beginStep s) x.2) :
    Commits s (finishAll x) := by
  unfold finishAll
  split
  · exact h.commits Report.success_consistent ..
  · exact h.commits (Report.failure_consistent _ (by decide) (by decide)) ..

theorem forEach_procFrame {f : DevIx → State → Report × State} {n : Nat} (hf : ∀ d s, BodySpec d n s (f d s))
    (l : List DevIx) (s : State) : ProcFrame s (forEach f l s).2 :=
  (forEach_spec hf l s).frame.toProcFrame

theorem powerOffAfterMutes_eng (s : State) : EngFrame s (powerOffAfterMutes s) :=
  ((powerDown_eng s).trans (resetAll_spec s.devices (powerDown s)).1.toEng).trans (setCtl_eng _ _)

theorem initAttempt_eng (s : State) : EngFrame s (initAttempt s) := by
  obtain ⟨t, ht, _, _, _, hp⟩ := initAttempt_spec s
  exact ht.trans hp.frame.toEng

theorem initSequence_eng (s : State) : EngFrame s (initSequence s).2.2 :=
  ((initAttempt_eng s).trans (initVerdict_eng _)).trans (forEach_procFrame unmuteProc_body _ _).toEng

theorem sample_eng (s : State) : EngFrame s (sample s).2.2 :=
  ((((setCtl_eng s _).trans (automuteAggregate_spec _ _).frame.toEng).trans (automuteEdge_eng _ _)).trans
    (lockAggregate_spec _ _).frame.toEng).trans (lockEdge_eng _ _)

/-- POLL commits with success, whether it initialises, samples or does nothing (R200). -/
theorem pollStep_commits (s : State) : Commits s (pollStep (beginStep s)) := by
  have idle : Commits s (finishPoll 0#2 (0#16, 0#16, beginStep s)) :=
    (ProcFrame.refl _).commits Report.success_consistent ..
  unfold pollStep
  split
  · split
    · exact (initSequence_eng _).commits Report.success_consistent ..
    · exact idle
  · split
    · split
      · exact (sample_eng _).commits Report.success_consistent ..
      · exact idle
    · exact idle

/-- Every command runs to its commit (R66, R67, R266). -/
theorem exec_commits (i : Instr) (s : State) : ∃ t, exec i s = .next t ∧ Commits s t := by
  cases i with
  | readReg d r =>
    exact ⟨_, rfl, onDevice_commits ((rdCore_regFrame ..).toProcFrame.commits (rdCore_consistent ..) ..)⟩
  | writeReg d r => exact ⟨_, rfl, onDevice_commits (wrCore_spec ..).commits⟩
  | writeBits d r => exact ⟨_, rfl, onDevice_commits (patchRegister_commits ..)⟩
  | devInit d =>
    have h := initProc_spec d (beginStep s)
    exact ⟨_, rfl, onDevice_commits (h.frame.toProcFrame.commits h.report ..)⟩
  | devReset d =>
    exact ⟨_, rfl, onDevice_commits ((resetProc_spec ..).1.toProcFrame.commits Report.success_consistent ..)⟩
  | devLocked d =>
    exact ⟨_, rfl, onDevice_commits ((lockedProc_regFrame ..).toProcFrame.commits
      (statusResultOf_consistent _ (rdCore_consistent ..)) ..)⟩
  | devAutomuted d =>
    exact ⟨_, rfl, onDevice_commits ((automutedProc_regFrame ..).toProcFrame.commits
      (statusResultOf_consistent _ (rdCore_consistent ..)) ..)⟩
  | devMute d => exact ⟨_, rfl, onDevice_commits (muteProc_spec ..).commits⟩
  | devUnmute d => exact ⟨_, rfl, onDevice_commits (unmuteProc_spec ..).commits⟩
  | devSetAtten d => exact ⟨_, rfl, onDevice_commits (attenProc_spec ..).commits⟩
  | devSelectInput d => exact ⟨_, rfl, onDevice_commits (inputProc_spec ..).commits⟩
  | powerOn =>
    refine ⟨_, rfl, ?_⟩
    split
    · exact (ProcFrame.refl _).commits Report.success_consistent ..
    · exact (powerUp_eng _).commits Report.success_consistent ..
  | powerOff =>
    refine ⟨_, rfl, ?_⟩
    split
    · exact ((forEach_procFrame muteProc_body _ _).toEng.trans (powerOffAfterMutes_eng _)).commits
        Report.success_consistent ..
    · exact (ProcFrame.refl _).commits Report.success_consistent ..
  | poll => exact ⟨_, rfl, pollStep_commits s⟩
  | setAttenAll => exact ⟨_, rfl, finishAll_commits (forEach_procFrame (attenProc_body _) _ _)⟩
  | muteAll => exact ⟨_, rfl, finishAll_commits (forEach_procFrame muteProc_body _ _)⟩
  | unmuteAll => exact ⟨_, rfl, finishAll_commits (forEach_procFrame unmuteProc_body _ _)⟩
  | selectInputAll => exact ⟨_, rfl, finishAll_commits (forEach_procFrame (inputProc_body _) _ _)⟩

/-- What a command leaves is a commit on the state it began in. -/
theorem commits_of_exec {i : Instr} {s t : State} (h : exec i s = .next t) : Commits s t := by
  obtain ⟨u, hu, hc⟩ := exec_commits i s
  rw [hu] at h
  cases h
  exact hc

/-- Settles O9: a command's state is the commit of procedures that keep the host's side. -/
theorem noCommandWritesHostSide : Obligations.NoCommandWritesHostSide :=
  fun _ _ _ h => (commits_of_exec h).commandFrame

end Sys2Proof.Machine

/-! PROOF. The turns of the agents and the step of the Engine (spec/00_scope.md R5, 20_memory.md R66). -/

namespace Sys2Proof.Machine

/-! ## The schedule -/

theorem step_of_schedule {s : State} {a : Config.AgentAction} {rest : List Config.AgentAction}
    (h : s.env.schedule = a :: rest) :
    step s = agentStep a { s with env := { s.env with schedule := rest } } := by
  simp only [step, nextAction, afterAction, h]

theorem step_of_nextAction {s : State} {a : Config.AgentAction} (h : nextAction s = a) :
    step s = agentStep a (afterAction s) := by
  rw [step, h]

@[simp] theorem afterAction_status (s : State) : (afterAction s).status = s.status := by
  unfold afterAction; split <;> rfl

/-! ## The Engine -/

theorem engineStep_of_idle {s : State} (h : s.status.busy = false) : engineStep s = .next s := by
  simp [engineStep, h]

theorem engineStep_of_busy {s : State} (h : s.status.busy = true) : engineStep s = runWord s.engine.lcmd s :=
  if_pos h

theorem runWord_of_decode {w : Word} {i : Instr} (h : decode w = .ok i) (s : State) : runWord w s = exec i s := by
  rw [runWord, h]

/-- Any word runs to a commit: a command to its own, any other to BAD_CMD (R66, R95). -/
theorem runWord_commits (w : Word) (s : State) : ∃ t, runWord w s = .next t ∧ Commits s t := by
  unfold runWord
  split
  · exact exec_commits _ s
  · exact ⟨_, rfl, completeBadCmd_commits s⟩

theorem agentStep_engine_commits {s : State} (h : s.status.busy = true) :
    ∃ t, agentStep .engine s = .next t ∧ Commits s t := by
  obtain ⟨t, ht, hc⟩ := runWord_commits s.engine.lcmd s
  exact ⟨t, (engineStep_of_busy h).trans ht, hc⟩

/-- Settles O4, agent by schedule and Engine by BUSY. -/
theorem stepRunsDecodedCommand : Obligations.StepRunsDecodedCommand := by
  refine ⟨fun s a rest => step_of_schedule, fun s rest i hs hb hd => ?_, fun s => engineStep_of_idle⟩
  calc step s
    _ = engineStep { s with env := { s.env with schedule := rest } } := step_of_schedule hs
    _ = runWord s.engine.lcmd { s with env := { s.env with schedule := rest } } := engineStep_of_busy hb
    _ = exec i { s with env := { s.env with schedule := rest } } := runWord_of_decode hd _

/-- Settles O6: the Engine's own step commits (`agentStep_engine_commits`), and its turn or that of Reset comes unless the run stops
(`getsATurn`). -/
theorem busyEngineCommits : Obligations.BusyEngineCommits := by
  intro s hb
  constructor
  · obtain ⟨t, ht, hc⟩ := agentStep_engine_commits hb
    exact ⟨t, ht, hc.busy, hc.done, hc.commandFrame.overrun, hc.commandFrame.lcmd⟩
  · obtain ⟨n, hturn | hstop⟩ := getsATurn s.env.schedule hb rfl
    · obtain ⟨u, hrun, hbusy, hlatch, hnext | hnext⟩ := hturn
      · obtain ⟨t, ht, hc⟩ := agentStep_engine_commits ((congrArg Status.busy (afterAction_status u)).trans hbusy)
        exact ⟨n, .inl ⟨u, t, hrun, hbusy, hlatch, (step_of_nextAction hnext).trans ht, hc.busy, .inl ⟨hnext, hc.done⟩⟩⟩
      · exact ⟨n, .inl ⟨u, resetStep (afterAction u), hrun, hbusy, hlatch, step_of_nextAction hnext, rfl, .inr hnext⟩⟩
    · exact ⟨n, .inr hstop⟩

end Sys2Proof.Machine

/-! PROOF. What an Engine step does between its start and its commit, command by command (spec/20_memory.md R66, R67), and the masks
and results it commits (10_state.md R25, R37). -/

namespace Sys2Proof.Machine

/-! ## Masks and results -/

/-- Every bit of a device mask is that of a device below `n` (R254). -/
def MaskWithin (n : Nat) (m : DevMask) : Prop := ∀ i, m.getLsbD i = true → i < n

theorem MaskWithin.zero (n : Nat) : MaskWithin n 0#16 := fun _ h => by simp at h

theorem MaskWithin.failBit {n : Nat} {d : DevIx} (h : d.val < n) (ok : Bool) : MaskWithin n (failBit ok d) := by
  intro i hi
  rw [getLsbD_failBit, Bool.and_eq_true, decide_eq_true_eq] at hi
  exact hi.2 ▸ h

theorem MaskWithin.devBit {n : Nat} {d : DevIx} (h : d.val < n) : MaskWithin n (devBit d) := MaskWithin.failBit h false

/-- A mask of listed devices, as the loops over devices give it. -/
theorem MaskWithin.of_devices {s : State} {m : DevMask}
    (h : ∀ i, m.getLsbD i = true → ∃ d ∈ s.devices, d.val = i) : MaskWithin s.nDev m := by
  intro i hi
  obtain ⟨d, hd, rfl⟩ := h i hi
  exact (s.mem_devices d).1 hd

theorem State.maskOf_within (s : State) (p : DevIx → Bool) : MaskWithin s.nDev (s.maskOf p) := by
  intro i hi
  have h16 : i < 16 := BitVec.lt_of_getLsbD hi
  have hbit := s.getLsbD_maskOf p ⟨i, h16⟩
  rw [show (s.maskOf p).getLsbD i = true from hi] at hbit
  simpa using (Bool.and_eq_true_iff.mp hbit.symm).1

/-- DEV_FAIL_MASK with both halves within the devices (R37, R254). -/
theorem failWord_within {n i : Nat} {pf sf : DevMask} (hp : MaskWithin n pf) (hs : MaskWithin n sf) (hi : i < 32)
    (h : (failWord pf sf).getLsbD i = true) : i % 16 < n := by
  rw [getLsbD_failWord] at h
  split at h
  · next hlt =>
    rw [Nat.mod_eq_of_lt hlt]
    exact hp i h
  · next hge =>
    rw [show i % 16 = i - 16 by omega]
    exact hs _ h

/-- POLL_ACTION and CHIPTYPE of a result are not 3 (R25, R42). -/
structure CmdResult.Shaped (r : CmdResult) : Prop where
  pollAction : r.pollAction ≠ 3#2
  chipType : r.chipType ≠ 3#2

theorem resultWord_data (r : CmdResult) : (resultWord r).extractLsb' 0 8 = r.data := by
  refine BitVec.eq_of_getLsbD_eq fun i hi => ?_
  rw [BitVec.getLsbD_extractLsb', getLsbD_resultWord]
  simp [hi]

theorem resultWord_chipType (r : CmdResult) : (resultWord r).extractLsb' 12 2 = r.chipType := by
  refine BitVec.eq_of_getLsbD_eq fun i hi => ?_
  rw [BitVec.getLsbD_extractLsb', getLsbD_resultWord]
  interval_cases i <;> simp

theorem resultWord_pollAction (r : CmdResult) : (resultWord r).extractLsb' 16 2 = r.pollAction := by
  refine BitVec.eq_of_getLsbD_eq fun i hi => ?_
  rw [BitVec.getLsbD_extractLsb', getLsbD_resultWord]
  interval_cases i <;> simp

theorem resultWord_reserved (r : CmdResult) :
    (resultWord r).extractLsb' 18 14 = 0#14 ∧ (resultWord r).extractLsb' 14 2 = 0#2 := by
  constructor <;> refine BitVec.eq_of_getLsbD_eq fun i hi => ?_ <;> rw [BitVec.getLsbD_extractLsb', getLsbD_resultWord]
  · interval_cases i <;> simp
  · interval_cases i <;> simp

/-! ## Devices -/

theorem State.dev_congr {s t : State} (h : t.devs = s.devs) (d : DevIx) : t.dev d = s.dev d := by
  unfold State.dev
  rw [h]

/-! ## The parts of the controller commands, as the controller's fields see them -/

theorem powerUp_ctl (s : State) : (powerUp s).ctl =
    { s.ctl with power := true, initialised := false, powerOnTime := s.now, relayOut := true } := by
  simp [powerUp]

theorem powerUp_devs (s : State) : (powerUp s).devs = s.devs := by simp [powerUp]

theorem powerDown_ctl (s : State) : (powerDown s).ctl =
    { s.ctl with power := false, relayOut := false, resetOut := false } := by
  simp [powerDown]

theorem powerDown_devs (s : State) : (powerDown s).devs = s.devs := by simp [powerDown]

theorem powerOffAfterMutes_ctl (s : State) : (powerOffAfterMutes s).ctl =
    { s.ctl with
      power := false, initialised := false, prevLock := lockSentinel, relayOut := false, resetOut := false } := by
  have h : (resetAll s.devices (powerDown s)).ctl = _ := (resetAll_spec s.devices (powerDown s)).1.ctl
  simp [powerOffAfterMutes, h, powerDown_ctl]

theorem initVerdict_ctl (s : State) : (initVerdict s).ctl =
    { s.ctl with errorInitialising := !s.initSuccess || s.ctl.errorInitialising, initialised := true } := by
  rw [initVerdict_eq]; rfl

theorem initAttempt_ctl (s : State) :
    (initAttempt s).ctl = { s.ctl with errorInitialising := false, resetOut := true } := by
  obtain ⟨t, _, _, _, hctl, hpass⟩ := initAttempt_spec s
  rw [hpass.frame.ctl, hctl]

theorem initSequence_ctl (s : State) : (initSequence s).2.2.ctl =
    { s.ctl with
      errorInitialising := !(initAttempt s).initSuccess, initialised := true, resetOut := true } := by
  have h : (initSequence s).2.2.ctl = _ := (forEach_procFrame unmuteProc_body _ (initVerdict (initAttempt s))).ctl
  simp [h, initVerdict_ctl, initAttempt_ctl]

/-- A sample stores two aggregates, the lock aggregate being that of the state after the automute pass (R210). -/
theorem sample_ctl (s : State) : ∃ (agg : Bool) (v : State), v.board = s.board ∧ (sample s).2.2.ctl =
    { s.ctl with automuted := agg, lastPollTime := s.now, prevLock := (lockAggregate v.devices v).2.1 } := by
  have ham := automuteAggregate_spec (State.devices { s with ctl := { s.ctl with lastPollTime := s.now } })
    { s with ctl := { s.ctl with lastPollTime := s.now } }
  unfold sample
  dsimp only
  rw [(lockEdge_keeps _ _).2.2, (lockAggregate_spec _ _).frame.ctl, (automuteEdge_keeps _ _).2.2, ham.frame.ctl]
  exact ⟨_, _, (automuteEdge_eng _ _).board.trans ham.frame.board, rfl⟩

theorem sample_devs (s : State) : (sample s).2.2.devs = s.devs := by
  unfold sample
  dsimp only
  rw [(lockEdge_keeps _ _).1, (lockAggregate_spec _ _).devs, (automuteEdge_keeps _ _).1, (automuteAggregate_spec _ _).devs]

/-! ## The body of a step -/

/-- What a command does between the start and the commit of its Engine step (R66): `u` is the state it commits on.
- `registers`: reads and writes of chip registers, or nothing, on the device the command names, or on any where it names none;
- the others are the procedures that write a device state, a chip type or a field of the controller. -/
inductive EngineBody (s : State) : Instr → State → Prop
  | registers {i : Instr} {u : State} (frame : LoopFrame (beginStep s) u)
      (others : ∀ d e, i.device? = some d → e ≠ d → u.dev e = s.dev e) : EngineBody s i u
  | init {d : DevIx} (present : d.val < s.nDev) : EngineBody s (.devInit d) (initProc d (beginStep s)).2
  | reset {d : DevIx} : EngineBody s (.devReset d) (resetProc d (beginStep s))
  | powerUp (off : s.ctl.power = false) : EngineBody s .powerOn (powerUp (beginStep s))
  | powerDown (on : s.ctl.power = true) : EngineBody s .powerOff (powerOffAfterMutes (muteEach (beginStep s)).2)
  | initSequence (on : s.ctl.power = true) : EngineBody s .poll (initSequence (beginStep s)).2.2
  | sample (on : s.ctl.power = true) : EngineBody s .poll (sample (beginStep s)).2.2

/-- The commit on `u` that ends the step begun in `s`: its masks name existing devices (R254), and its result is in shape (R25) where no
recorded chip type is 3. -/
def ClosesOn (s u t : State) : Prop :=
  ∃ (rep : Report) (res : CmdResult) (pf sf : DevMask), MaskWithin s.nDev pf ∧ MaskWithin s.nDev sf ∧
    (s.ChipTypesKnown → res.Shaped) ∧ t = finish rep res pf sf u

/-- `t` is what the Engine step of command `i` from `s` leaves: a body and a commit. -/
def EngineRun (s : State) (i : Instr) (t : State) : Prop := ∃ u, EngineBody s i u ∧ ClosesOn s u t

theorem ClosesOn.intro {s u : State} {res : CmdResult} {pf sf : DevMask} (rep : Report) (hp : MaskWithin s.nDev pf)
    (hs : MaskWithin s.nDev sf) (hr : s.ChipTypesKnown → res.Shaped) : ClosesOn s u (finish rep res pf sf u) :=
  ⟨rep, res, pf, sf, hp, hs, hr, rfl⟩

/-- A result that leaves CHIPTYPE and POLL_ACTION 0 is in shape. -/
theorem CmdResult.Shaped.of_zero {r : CmdResult} (hp : r.pollAction = 0#2) (hc : r.chipType = 0#2) : r.Shaped :=
  ⟨by rw [hp]; decide, by rw [hc]; decide⟩

/-- A command that ends at once. -/
theorem engineRun_idle {s : State} {i : Instr} {res : CmdResult} {pf : DevMask} (rep : Report)
    (hp : MaskWithin s.nDev pf) (hr : res.Shaped) : EngineRun s i (finish rep res pf 0#16 (beginStep s)) :=
  ⟨_, .registers (.refl _) fun _ _ _ _ => rfl, .intro rep hp (.zero _) fun _ => hr⟩

/-- A command on an absent device commits at once (R95), so only the command on an existing one is left to see. -/
theorem engineRun_onDevice {s : State} {i : Instr} {d : DevIx} {body : State → State}
    (h : d.val < s.nDev → EngineRun s i (body (beginStep s))) : EngineRun s i (onDevice d body s) := by
  unfold onDevice
  split
  · next hd => exact h hd
  · exact engineRun_idle _ (.zero _) (.of_zero rfl rfl)

/-- A command that reads or writes registers of the existing device it names. -/
theorem engineRun_registers {s u : State} {i : Instr} {d : DevIx} {res : CmdResult} {rep : Report} {ok : Bool}
    (hi : i.device? = some d) (hd : d.val < s.nDev) (hf : LoopFrame (beginStep s) u)
    (ho : ∀ e, e ≠ d → u.dev e = s.dev e) (hr : res.Shaped) :
    EngineRun s i (finish rep res (failBit ok d) 0#16 u) := by
  refine ⟨u, .registers hf fun d' e hd' he => ho e ?_, .intro rep (.failBit hd ok) (.zero _) fun _ => hr⟩
  rw [hi] at hd'
  cases hd'
  exact he

theorem engineRun_write {s : State} {i : Instr} {d : DevIx} {n : Nat} {x : WriteResult × State}
    (hi : i.device? = some d) (hd : d.val < s.nDev) (h : BodySpec d n (beginStep s) (x.1.rep, x.2)) :
    EngineRun s i (finishWrite d x) :=
  engineRun_registers hi hd h.frame h.others (.of_zero rfl rfl)

theorem rdCore_loopFrame (d : DevIx) (r : RegAddr) (s : State) : LoopFrame s (rdCore d r s).2 :=
  .of_devs (rdCore_regFrame d r s).toProcFrame (devs_rdCore d r s)

theorem rdCore_dev (d e : DevIx) (r : RegAddr) (s : State) : (rdCore d r s).2.dev e = s.dev e :=
  State.dev_congr (devs_rdCore d r s) e

theorem patchRegister_run {s : State} {i : Instr} {d : DevIx} (r : RegAddr) (p : Pattern) (hi : i.device? = some d)
    (hd : d.val < s.nDev) : EngineRun s i (patchRegister d r p (beginStep s)) := by
  unfold patchRegister
  split
  · exact engineRun_write hi hd (bitsCore_body ..)
  · exact engineRun_idle _ (.devBit hd) (.of_zero rfl rfl)

/-- A command forwarded to every device names none (R230). -/
theorem engineRun_all {s : State} {i : Instr} {f : DevIx → State → Report × State} {n : Nat} (hi : i.device? = none)
    (hf : ∀ d s, BodySpec d n s (f d s)) : EngineRun s i (finishAll (forEach f (beginStep s).devices (beginStep s))) := by
  have h := forEach_spec hf (beginStep s).devices (beginStep s)
  have hm : MaskWithin s.nDev (forEach f (beginStep s).devices (beginStep s)).1 := .of_devices h.mask
  refine ⟨_, .registers h.frame fun d e hd => by simp [hi] at hd, ?_⟩
  unfold finishAll
  split
  · exact .intro _ (.zero _) (.zero _) fun _ => .of_zero rfl rfl
  · exact .intro _ hm (.zero _) fun _ => .of_zero rfl rfl

theorem muteEach_mask (s : State) : MaskWithin s.nDev (muteEach s).1 :=
  .of_devices (forEach_spec muteProc_body s.devices s).mask

theorem unmuteEach_mask (s : State) : MaskWithin s.nDev (unmuteEach s).1 :=
  .of_devices (forEach_spec unmuteProc_body s.devices s).mask

theorem initSequence_masks (s : State) :
    MaskWithin s.nDev (initSequence s).1 ∧ MaskWithin s.nDev (initSequence s).2.1 := by
  have hn : (initAttempt s).nDev = s.nDev := State.nDev_congr (initAttempt_eng s).board
  have hv : (initVerdict (initAttempt s)).nDev = s.nDev := (State.nDev_congr (initVerdict_eng _).board).trans hn
  constructor
  · have h : MaskWithin _ (initAttempt s).unhealthyMask := State.maskOf_within _ _
    rw [hn] at h
    exact h
  · have h := unmuteEach_mask (initVerdict (initAttempt s))
    rw [hv] at h
    exact h

theorem sample_masks (s : State) : MaskWithin s.nDev (sample s).1 ∧ MaskWithin s.nDev (sample s).2.1 := by
  have ham := automuteAggregate_spec (State.devices { s with ctl := { s.ctl with lastPollTime := s.now } })
    { s with ctl := { s.ctl with lastPollTime := s.now } }
  constructor
  · exact MaskWithin.of_devices ham.mask
  · unfold sample
    dsimp only
    refine (?_ : State.nDev _ = s.nDev) ▸ MaskWithin.of_devices (lockAggregate_spec _ _).mask
    exact State.nDev_congr ((automuteEdge_eng _ _).board.trans ham.frame.board)

/-- POLL does nothing, runs the initialisation sequence, or samples (R200). -/
theorem pollStep_run (s : State) : EngineRun s .poll (pollStep (beginStep s)) := by
  have idle : EngineRun s .poll (finishPoll 0#2 (0#16, 0#16, beginStep s)) :=
    engineRun_idle _ (.zero _) (.of_zero rfl rfl)
  unfold pollStep
  split
  · next hoff =>
    split
    · obtain ⟨hp, hs⟩ := initSequence_masks (beginStep s)
      exact ⟨_, .initSequence hoff.1, .intro _ hp hs fun _ => ⟨by decide, by decide⟩⟩
    · exact idle
  · split
    · next hon =>
      split
      · obtain ⟨hp, hs⟩ := sample_masks (beginStep s)
        exact ⟨_, .sample hon.1, .intro _ hp hs fun _ => ⟨by decide, by decide⟩⟩
      · exact idle
    · exact idle

/-- Every command is a body and a commit (R66, R67). -/
theorem exec_run (i : Instr) (s : State) : ∃ t, exec i s = .next t ∧ EngineRun s i t := by
  cases i with
  | readReg d r =>
    exact ⟨_, rfl, engineRun_onDevice fun hd => engineRun_registers rfl hd (rdCore_loopFrame ..)
      (fun e _ => rdCore_dev ..) (.of_zero rfl rfl)⟩
  | writeReg d r => exact ⟨_, rfl, engineRun_onDevice fun hd => engineRun_write rfl hd (wrCore_body ..)⟩
  | writeBits d r => exact ⟨_, rfl, engineRun_onDevice fun hd => patchRegister_run _ _ rfl hd⟩
  | devInit d =>
    refine ⟨_, rfl, engineRun_onDevice fun hd => ⟨_, .init hd, .intro _ (.failBit hd _) (.zero _) fun hc => ?_⟩⟩
    exact ⟨show 0#2 ≠ 3#2 by decide, ((initProc_spec d (beginStep s)).chipType (hc d)).2⟩
  | devReset d =>
    exact ⟨_, rfl, engineRun_onDevice fun _ => ⟨_, .reset, .intro _ (.zero _) (.zero _) fun _ => .of_zero rfl rfl⟩⟩
  | devLocked d =>
    exact ⟨_, rfl, engineRun_onDevice fun hd => engineRun_registers rfl hd (rdCore_loopFrame ..)
      (fun e _ => rdCore_dev ..) (.of_zero rfl rfl)⟩
  | devAutomuted d =>
    exact ⟨_, rfl, engineRun_onDevice fun hd => engineRun_registers rfl hd (rdCore_loopFrame ..)
      (fun e _ => rdCore_dev ..) (.of_zero rfl rfl)⟩
  | devMute d => exact ⟨_, rfl, engineRun_onDevice fun hd => engineRun_write rfl hd (muteProc_body ..)⟩
  | devUnmute d => exact ⟨_, rfl, engineRun_onDevice fun hd => engineRun_write rfl hd (unmuteProc_body ..)⟩
  | devSetAtten d => exact ⟨_, rfl, engineRun_onDevice fun hd => engineRun_write rfl hd (attenProc_body ..)⟩
  | devSelectInput d => exact ⟨_, rfl, engineRun_onDevice fun hd => engineRun_write rfl hd (inputProc_body ..)⟩
  | powerOn =>
    refine ⟨_, rfl, ?_⟩
    split
    · exact engineRun_idle _ (.zero _) (.of_zero rfl rfl)
    · next h =>
      exact ⟨_, .powerUp (by simpa using h), .intro _ (.zero _) (.zero _) fun _ => .of_zero rfl rfl⟩
  | powerOff =>
    refine ⟨_, rfl, ?_⟩
    split
    · next h =>
      exact ⟨_, .powerDown h, .intro _ (muteEach_mask (beginStep s)) (.zero _) fun _ => .of_zero rfl rfl⟩
    · exact engineRun_idle _ (.zero _) (.of_zero rfl rfl)
  | poll => exact ⟨_, rfl, pollStep_run s⟩
  | setAttenAll => exact ⟨_, rfl, engineRun_all rfl (attenProc_body _)⟩
  | muteAll => exact ⟨_, rfl, engineRun_all rfl muteProc_body⟩
  | unmuteAll => exact ⟨_, rfl, engineRun_all rfl unmuteProc_body⟩
  | selectInputAll => exact ⟨_, rfl, engineRun_all rfl (inputProc_body _)⟩

theorem engineRun_of_exec {i : Instr} {s t : State} (h : exec i s = .next t) : EngineRun s i t := by
  obtain ⟨u, hu, hr⟩ := exec_run i s
  rw [hu] at h
  cases h
  exact hr

end Sys2Proof.Machine

/-! PROOF. The invariant of the block (spec/10_state.md R25-R45, 60_exceptions.md R251-R260) over every step of every agent. -/

namespace Sys2Proof.Machine

/-! ## The lock aggregate -/

/-- The shape of a lock bitmask over the listed devices (R214): bits of listed devices alone, and no device with both of its bits. -/
structure LockShape (n : Nat) (l : List DevIx) (w : Word) : Prop where
  listed : ∀ i, w.getLsbD i = true → ∃ d ∈ l, i = d.val ∨ i = d.val + n
  exclusive : ∀ i, i < n → (w.getLsbD i && w.getLsbD (i + n)) = false

/-- The bits of a device that is not listed are 0. -/
theorem LockShape.absent {n : Nat} {l : List DevIx} {w : Word} (h : LockShape n l w) (hl : ∀ e ∈ l, e.val < n) {d : DevIx}
    (hd : d ∉ l) (hn : d.val < n) : w.getLsbD d.val = false ∧ w.getLsbD (d.val + n) = false := by
  have away : ∀ i, i = d.val ∨ i = d.val + n → w.getLsbD i = false := fun i hi => by
    by_contra hbit
    obtain ⟨e, he, hie⟩ := h.listed i (by simpa using hbit)
    have hlt := hl e he
    have hed : e = d := Fin.ext (by omega)
    exact hd (hed ▸ he)
  exact ⟨away _ (.inl rfl), away _ (.inr rfl)⟩

/-- One more device, with at most one of its two bits. -/
theorem LockShape.cons {n : Nat} {d : DevIx} {ds : List DevIx} {x : StatusResult} {w : Word} (h : LockShape n ds w)
    (hds : ∀ e ∈ ds, e.val < n) (hd : d ∉ ds) (hlt : d.val < n) (hn : n ≤ 16) (hx : (x.bit && x.readErr) = false) :
    LockShape n (d :: ds) (lockBits n d x ||| w) where
  listed i hi := by
    rw [BitVec.getLsbD_or, getLsbD_lockBits n d x i hlt hn, Bool.or_eq_true] at hi
    rcases hi with hi | hi
    · refine ⟨d, List.mem_cons_self, ?_⟩
      simp only [Bool.or_eq_true, Bool.and_eq_true, decide_eq_true_eq] at hi
      exact hi.imp And.right And.right
    · obtain ⟨e, he, hie⟩ := h.listed i hi
      exact ⟨e, List.mem_cons_of_mem _ he, hie⟩
  exclusive i hi := by
    simp only [BitVec.getLsbD_or, getLsbD_lockBits n d x _ hlt hn]
    by_cases hid : i = d.val
    · obtain ⟨h1, h2⟩ := h.absent hds hd hlt
      have hne : ¬ d.val = d.val + n := by omega
      have hne' : ¬ d.val + n = d.val := by omega
      subst hid
      simpa only [h1, h2, hne, hne', decide_true, decide_false, Bool.and_true, Bool.and_false, Bool.or_false,
        Bool.false_or] using hx
    · have hne : ¬ i = d.val + n := by omega
      have hne' : ¬ i + n = d.val := by omega
      simpa [hid, hne, hne'] using h.exclusive i hi

theorem lockAggregate_shape : ∀ (l : List DevIx) (s : State), l.Nodup → (∀ d ∈ l, d.val < s.nDev) →
    LockShape s.nDev l (lockAggregate l s).2.1
  | [], _, _, _ => ⟨fun i hi => by simp [lockAggregate] at hi, fun i _ => by simp [lockAggregate]⟩
  | d :: ds, s, hnd, hl => by
    obtain ⟨hd, hnd⟩ := List.nodup_cons.mp hnd
    have hds : ∀ e ∈ ds, e.val < s.nDev := fun e he => hl e (List.mem_cons_of_mem _ he)
    have hn : (lockedProc d s).2.nDev = s.nDev := (lockedProc_regFrame d s).toProcFrame.nDev
    have ih := lockAggregate_shape ds (lockedProc d s).2 hnd (by rwa [hn])
    rw [hn] at ih
    exact ih.cons hds hd (hl d List.mem_cons_self) s.nDev_range.2 (statusResultOf_exclusive ..)

theorem lockAggregate_devices_shape (s : State) : LockShape s.nDev s.devices (lockAggregate s.devices s).2.1 :=
  lockAggregate_shape s.devices s s.devices_nodup fun d => (s.mem_devices d).1

/-- Settles O43: device 0 exists, and not both of its bits are 1. -/
theorem lockAggregateIsNeverSentinel : Obligations.LockAggregateIsNeverSentinel := by
  intro s
  have h := lockAggregate_devices_shape s
  obtain ⟨h1, h16⟩ := s.nDev_range
  refine ⟨fun hsent => ?_, h.exclusive⟩
  have hbits : ∀ i, i < 32 → lockSentinel.getLsbD i = true := by decide
  have hex := h.exclusive 0 h1
  rw [hsent, hbits 0 (by omega), hbits (0 + s.nDev) (by omega)] at hex
  exact absurd hex (by decide)

/-! ## The parts of the invariant -/

/-- The invariant on one device slot: its phase (R41), its shadow (R40), its chip type (R42), and an absent slot as reset left it. -/
structure State.DevSettled (s : State) (d : DevIx) : Prop where
  phase : (s.dev d).phase ≠ .initialising
  shadow : ∀ q, (s.entry d q).valid = true → s.healthy d = true ∧ (s.devCfg d).noI2C = false
  chipType : (s.dev d).chipType ≠ 3#2
  absent : s.nDev ≤ d.val → (s.dev d).phase = .uninitialised ∧ (s.dev d).chipType = 0#2

/-- The invariant on the devices and the controller: what the body of an Engine step keeps, its commit writing neither. -/
structure State.Settled (s : State) : Prop where
  devs : ∀ d, s.DevSettled d
  power : s.PowerConsistent
  lockAgg : s.LockAggShaped

theorem State.inv_iff (s : State) :
    s.Inv ↔ s.Settled ∧ s.StatusConsistent ∧ s.MaskBounded ∧ s.ResultShaped ∧ s.NothingFired := by
  constructor
  · intro h
    exact ⟨⟨fun d => ⟨h.phases d, h.shadows d, h.chipTypes d, h.absent d⟩, h.power, h.lockAgg⟩, h.status, h.mask,
      h.result, h.fired⟩
  · rintro ⟨hs, hst, hm, hr, hf⟩
    exact {
      phases := fun d => (hs.devs d).phase
      shadows := fun d => (hs.devs d).shadow
      chipTypes := fun d => (hs.devs d).chipType
      absent := fun d => (hs.devs d).absent
      power := hs.power
      status := hst
      mask := hm
      lockAgg := hs.lockAgg
      result := hr
      fired := hf }

theorem State.Settled.chipTypesKnown {s : State} (h : s.Settled) : s.ChipTypesKnown := fun d => (h.devs d).chipType

/-! ## Device slots -/

theorem State.DevSettled.congr {s t : State} {d : DevIx} (hb : t.board = s.board) (hd : t.dev d = s.dev d)
    (h : s.DevSettled d) : t.DevSettled d where
  phase := hd ▸ h.phase
  shadow q hq := by
    have hentry : t.entry d q = s.entry d q := congrArg (Device.entry · q) hd
    have hhealthy : t.healthy d = s.healthy d := congrArg (fun x : Device => x.phase == .initialised) hd
    rw [hhealthy, State.devCfg_congr hb]
    exact h.shadow q (hentry ▸ hq)
  chipType := hd ▸ h.chipType
  absent hn := by
    rw [hd]
    exact h.absent (State.nDev_congr hb ▸ hn)

theorem LoopFrame.devSettled {s t : State} (f : LoopFrame s t) {d : DevIx} (h : s.DevSettled d) : t.DevSettled d where
  phase := f.phases d ▸ h.phase
  shadow q hq := by
    rw [f.healthy, f.devCfg]
    exact (f.backed d q hq).elim (h.shadow q) id
  chipType := f.chipTypes d ▸ h.chipType
  absent hn := by
    rw [f.phases, f.chipTypes]
    exact h.absent (f.nDev ▸ hn)

/-- A device that was reset, its chip type kept (R155). -/
theorem State.DevSettled.of_reset {s t : State} {d : DevIx} (hb : t.board = s.board)
    (hp : (t.dev d).phase = .uninitialised) (hc : (t.dev d).chipType = (s.dev d).chipType)
    (hv : ∀ q, (t.entry d q).valid = false) (h : s.DevSettled d) : t.DevSettled d where
  phase := by rw [hp]; decide
  shadow q hq := by simp [hv q] at hq
  chipType := hc ▸ h.chipType
  absent hn := ⟨hp, hc.trans (h.absent (State.nDev_congr hb ▸ hn)).2⟩

/-- A device that ended Initialised, or Uninitialised with nothing known (R150). -/
theorem State.DevSettled.of_outcome {t : State} {d : DevIx} (hd : d.val < t.nDev)
    (ho : (t.dev d).phase = .initialised ∨ ((t.dev d).phase = .uninitialised ∧ ∀ q, (t.entry d q).valid = false))
    (hb : ∀ q, (t.entry d q).valid = true → (t.devCfg d).noI2C = false) (hc : (t.dev d).chipType ≠ 3#2) :
    t.DevSettled d where
  phase := by rcases ho with hp | ⟨hp, _⟩ <;> rw [hp] <;> decide
  shadow q hq := by
    rcases ho with hp | ⟨_, hv⟩
    · exact ⟨by simp [State.healthy, hp], hb q hq⟩
    · simp [hv q] at hq
  chipType := hc
  absent hn := absurd hd (Nat.not_lt.mpr hn)

theorem initProc_devSettled {s : State} {d : DevIx} (hd : d.val < s.nDev) (h : ∀ e, s.DevSettled e) (e : DevIx) :
    (initProc d s).2.DevSettled e := by
  have hi := initProc_spec d s
  by_cases hed : e = d
  · subst hed
    exact .of_outcome (hi.frame.nDev ▸ hd) (hi.outcome.imp And.right And.right)
      (fun q hq => by rw [hi.frame.devCfg]; exact hi.backed q hq) (hi.chipType (h e).chipType).1
  · exact (h e).congr hi.frame.board (hi.frame.others e hed)

theorem resetProc_devSettled {s : State} {d : DevIx} (h : ∀ e, s.DevSettled e) (e : DevIx) :
    (resetProc d s).DevSettled e := by
  obtain ⟨hf, hp, hc, hv, _⟩ := resetProc_spec d s
  by_cases hed : e = d
  · subst hed
    exact (h e).of_reset hf.board hp hc hv
  · exact (h e).congr hf.board (hf.others e hed)

theorem resetAll_devSettled {s : State} {l : List DevIx} (h : ∀ e, s.DevSettled e) (e : DevIx) :
    (resetAll l s).DevSettled e := by
  obtain ⟨hf, _, hother, hc, hreset⟩ := resetAll_spec l s
  by_cases he : e ∈ l
  · obtain ⟨hp, hv⟩ := hreset e he
    exact (h e).of_reset hf.board hp (hc e) hv
  · exact (h e).congr hf.board (hother e he)

/-- The initialisation passes reach existing devices alone (R201). -/
theorem PassSpec.devSettled {s t : State} {n : Nat} (f : PassSpec s.devices n s t) (h : ∀ e, s.DevSettled e) (e : DevIx) :
    t.DevSettled e := by
  by_cases hd : e.val < s.nDev
  · rcases f.reached e with hsame | houtcome
    · exact (h e).congr f.frame.board hsame
    · refine .of_outcome (f.frame.nDev ▸ hd) houtcome (fun q hq => ?_) (f.chipType (fun g => (h g).chipType) e)
      rw [f.frame.devCfg]
      exact (f.backed e q hq).elim (fun hq => ((h e).shadow q hq).2) id
  · exact (h e).congr f.frame.board (f.others e (.inl fun hm => hd ((s.mem_devices e).1 hm)))

theorem State.devSettled_of_devs {s t : State} (hb : t.board = s.board) (hd : t.devs = s.devs)
    (h : ∀ e, s.DevSettled e) (e : DevIx) : t.DevSettled e :=
  (h e).congr hb (State.dev_congr hd e)

/-! ## The controller's fields -/

theorem State.LockAggShaped.congr {s t : State} (hb : t.board = s.board) (hl : t.ctl.prevLock = s.ctl.prevLock)
    (h : s.LockAggShaped) : t.LockAggShaped := by
  unfold State.LockAggShaped
  rw [hl, State.nDev_congr hb]
  exact h

theorem LockShape.lockAggShaped {s t : State} (hb : t.board = s.board) (h : LockShape s.nDev s.devices t.ctl.prevLock) :
    t.LockAggShaped := by
  refine .inr ⟨fun i hi => ?_, fun i hi => ?_⟩ <;> rw [State.nDev_congr hb] at hi
  · by_contra hbit
    obtain ⟨d, hd, hid⟩ := h.listed i (by simpa using hbit)
    have hlt := (s.mem_devices d).1 hd
    omega
  · rw [State.nDev_congr hb]
    exact h.exclusive i hi

theorem State.Settled.congr {s t : State} (h : s.Settled) (hb : t.board = s.board) (hd : t.devs = s.devs)
    (hc : t.ctl = s.ctl) : t.Settled where
  devs := State.devSettled_of_devs hb hd h.devs
  power := by
    unfold State.PowerConsistent
    rw [hc]
    exact h.power
  lockAgg := h.lockAgg.congr hb (by rw [hc])

/-- A procedure that leaves the controller's fields as they are (R47). -/
theorem State.Settled.of_procFrame {s t : State} (h : s.Settled) (f : ProcFrame s t) (hd : ∀ e, t.DevSettled e) :
    t.Settled where
  devs := hd
  power := by
    unfold State.PowerConsistent
    rw [f.ctl]
    exact h.power
  lockAgg := h.lockAgg.congr f.board (by rw [f.ctl])

theorem LoopFrame.settled {s t : State} (f : LoopFrame s t) (h : s.Settled) : t.Settled :=
  h.of_procFrame f.toProcFrame fun e => f.devSettled (h.devs e)

/-! ## The body of a step keeps the invariant -/

theorem powerUp_settled {s : State} (h : s.Settled) : (powerUp s).Settled where
  devs := State.devSettled_of_devs (powerUp_eng s).board (powerUp_devs s) h.devs
  power := by simp [State.PowerConsistent, powerUp_ctl]
  lockAgg := h.lockAgg.congr (powerUp_eng s).board (by rw [powerUp_ctl])

theorem powerOffAfterMutes_settled {s : State} (h : s.Settled) : (powerOffAfterMutes s).Settled where
  devs := by
    have hdown := State.devSettled_of_devs (powerDown_eng s).board (powerDown_devs s) h.devs
    have hreset : ∀ e, (resetAll s.devices (powerDown s)).DevSettled e := resetAll_devSettled hdown
    exact State.devSettled_of_devs (s := resetAll s.devices (powerDown s)) rfl rfl hreset
  power := by simp [State.PowerConsistent, powerOffAfterMutes_ctl]
  lockAgg := .inl (by rw [powerOffAfterMutes_ctl])

theorem initAttempt_devSettled {s : State} (h : ∀ e, s.DevSettled e) : ∀ e, (initAttempt s).DevSettled e := by
  obtain ⟨t, heng, hdevs, _, _, hpass⟩ := initAttempt_spec s
  rw [← State.devices_congr heng.board] at hpass
  exact hpass.devSettled (State.devSettled_of_devs heng.board hdevs h)

/-- POWER = 1 while the sequence runs, so the reset line may be released and INITIALISED set (R200, R201). -/
theorem initSequence_settled {s : State} (on : s.ctl.power = true) (h : s.Settled) : (initSequence s).2.2.Settled where
  devs e := by
    have hloop : LoopFrame (initVerdict (initAttempt s)) (initSequence s).2.2 := (forEach_spec unmuteProc_body _ _).frame
    exact hloop.devSettled (State.devSettled_of_devs (initVerdict_eng _).board (initVerdict_devs _).1
      (initAttempt_devSettled h.devs) e)
  power := by
    obtain ⟨_, hrelay, _⟩ := h.power
    simp [State.PowerConsistent, initSequence_ctl, on, hrelay]
  lockAgg := h.lockAgg.congr (initSequence_eng s).board (by rw [initSequence_ctl])

theorem sample_settled {s : State} (h : s.Settled) : (sample s).2.2.Settled := by
  obtain ⟨agg, v, hv, hctl⟩ := sample_ctl s
  have hb := (sample_eng s).board
  refine ⟨State.devSettled_of_devs hb (sample_devs s) h.devs, ?_, ?_⟩
  · unfold State.PowerConsistent
    rw [hctl]
    exact h.power
  · refine LockShape.lockAggShaped (hb.trans hv.symm) ?_
    rw [hctl]
    exact lockAggregate_devices_shape v

theorem EngineBody.settled {s u : State} {i : Instr} (b : EngineBody s i u) (h : s.Settled) : u.Settled := by
  have hbegin : (beginStep s).Settled := h.congr rfl rfl rfl
  cases b with
  | registers frame _ => exact frame.settled hbegin
  | init present => exact hbegin.of_procFrame (initProc_spec _ _).frame.toProcFrame (initProc_devSettled present hbegin.devs)
  | reset => exact hbegin.of_procFrame (resetProc_spec _ _).1.toProcFrame (resetProc_devSettled hbegin.devs)
  | powerUp _ => exact powerUp_settled hbegin
  | powerDown _ => exact powerOffAfterMutes_settled ((forEach_spec muteProc_body _ _).frame.settled hbegin)
  | initSequence on => exact initSequence_settled on hbegin
  | sample _ => exact sample_settled hbegin

/-! ## The commit -/

theorem Commits.statusConsistent {s t : State} (h : Commits s t) : t.StatusConsistent := by
  obtain ⟨rep, res, pf, sf, u, hr, _, rfl⟩ := h
  exact ⟨fun hbusy => absurd hbusy (by simp), by simpa using hr.ok, fun _ => rfl, hr.bus, hr.range⟩

theorem Commits.nothingFired {s t : State} (h : Commits s t) : t.NothingFired := by
  obtain ⟨_, _, _, _, _, _, _, rfl⟩ := h
  rfl

/-- A commit of masks of existing devices and of a result in shape, on a settled state. -/
theorem ClosesOn.inv {s u t : State} (c : ClosesOn s u t) (hk : s.ChipTypesKnown) (hu : u.Settled) (hc : Commits s t) :
    t.Inv := by
  have hn : t.nDev = s.nDev := State.nDev_congr hc.commandFrame.board
  refine t.inv_iff.2 ⟨?_, hc.statusConsistent, ?_, ?_, hc.nothingFired⟩ <;>
    obtain ⟨rep, res, pf, sf, hpf, hsf, hres, rfl⟩ := c
  · exact hu.congr rfl rfl rfl
  · intro i hi hbit
    rw [hn]
    exact failWord_within hpf hsf hi hbit
  · obtain ⟨h18, h14⟩ := resultWord_reserved res
    refine ⟨h18, h14, ?_, ?_⟩
    · exact (resultWord_pollAction res).symm ▸ (hres hk).pollAction
    · exact (resultWord_chipType res).symm ▸ (hres hk).chipType

theorem exec_keeps_inv {i : Instr} {s t : State} (hs : s.Inv) (h : exec i s = .next t) : t.Inv := by
  obtain ⟨u, hbody, hclose⟩ := engineRun_of_exec h
  have hsettled := (s.inv_iff.1 hs).1
  exact hclose.inv hs.chipTypes (hbody.settled hsettled) (commits_of_exec h)

theorem completeBadCmd_keeps_inv {s : State} (hs : s.Inv) : (completeBadCmd s).Inv := by
  have hclose : ClosesOn s (beginStep s) (completeBadCmd s) := .intro _ (.zero _) (.zero _) fun _ => .of_zero rfl rfl
  have hsettled := (s.inv_iff.1 hs).1
  exact hclose.inv hs.chipTypes (hsettled.congr rfl rfl rfl) (completeBadCmd_commits s)

/-! ## The agents -/

/-- What the invariant reads of a state. -/
theorem State.Inv.congr {s t : State} (h : s.Inv) (hb : t.board = s.board) (hd : t.devs = s.devs) (hc : t.ctl = s.ctl)
    (hf : t.engine.fired = s.engine.fired) (hr : t.host.result = s.host.result) (hm : t.host.failMask = s.host.failMask)
    (hst : t.StatusConsistent) : t.Inv := by
  obtain ⟨hs, _, hmask, hres, hfired⟩ := s.inv_iff.1 h
  refine t.inv_iff.2 ⟨hs.congr hb hd hc, hst, ?_, ?_, hf.trans hfired⟩
  · unfold State.MaskBounded
    rw [hm, State.nDev_congr hb]
    exact hmask
  · unfold State.ResultShaped
    rw [hr]
    exact hres

/-- OVERRUN is no part of what the invariant says of STATUS. -/
theorem State.Inv.setOverrun {s : State} (o : Bool) (h : s.Inv) :
    State.Inv { s with status := { s.status with overrun := o } } :=
  h.congr rfl rfl rfl rfl rfl rfl h.status

theorem launch_keeps_inv {s : State} (w : Word) (h : s.Inv) : (launch w s).Inv := by
  refine h.congr rfl rfl rfl rfl rfl rfl ?_
  simp [State.StatusConsistent, launch]

theorem writeCmd_keeps_inv {s : State} (w : Word) (h : s.Inv) : (writeCmd w s).Inv := by
  unfold writeCmd
  split
  · exact h.setOverrun true
  · exact launch_keeps_inv w h

theorem writeHostReg_keeps_inv {s : State} (x : HostReg) (v : Word) (h : s.Inv) : (writeHostReg x v s).Inv := by
  cases x with
  | cmd => exact writeCmd_keeps_inv v h
  | status => exact h.setOverrun _
  | arg | eventEnable | eventPending => exact h.congr rfl rfl rfl rfl rfl rfl h.status
  | result | ctrlStatus | lockAgg | now | powerOnTime | lastPollTime | devState | devChipType | devFailMask => exact h

theorem hostWriteWord_keeps_inv {s : State} (off : Nat) (v : Word) (h : s.Inv) : (hostWriteWord off v s).Inv := by
  unfold hostWriteWord
  split
  · exact writeHostReg_keeps_inv _ v h
  · exact h

/-- A host access that completes leaves the state it was checked with (R60). -/
theorem checkedAccess_next {width off : Nat} {s t : State} (h : checkedAccess width off s = .next t) : t = s := by
  rcases checkedAccess_cases width off s with hn | ⟨r, hr⟩ | ⟨r, hr⟩
  · rw [hn] at h
    cases h
    rfl
  · rw [hr] at h
    cases h
  · rw [hr] at h
    cases h

/-- The Reset step meets the invariant from any state (R290). -/
theorem resetStep_inv (s : State) : (resetStep s).Inv := by
  have hdev : ∀ d, (resetStep s).dev d = resetDevice (s.dev d) := fun d => getElem_mapVector ..
  have hentry : ∀ d q, ((resetStep s).entry d q).valid = false := fun d q => by
    rw [State.entry, hdev, resetDevice, Device.dropAll_entry]
  refine (State.inv_iff _).2 ⟨⟨fun d => ?_, ?_, .inl rfl⟩, ?_, ?_, ?_, rfl⟩
  · have hphase : ((resetStep s).dev d).phase = .uninitialised := by rw [hdev]; rfl
    have hchip : ((resetStep s).dev d).chipType = 0#2 := by rw [hdev]; rfl
    exact ⟨by rw [hphase]; decide, fun q hq => by simp [hentry] at hq, by rw [hchip]; decide, fun _ => ⟨hphase, hchip⟩⟩
  · simp [State.PowerConsistent, resetStep, Controller.reset]
  · simp [State.StatusConsistent, resetStep, Status.reset]
  · intro i _ hbit
    simp [resetStep, HostRegs.reset] at hbit
  · unfold State.ResultShaped
    rw [show (resetStep s).host.result = 0#32 from rfl]
    decide

theorem engineStep_keeps_inv {s t : State} (hs : s.Inv) (h : engineStep s = .next t) : t.Inv := by
  unfold engineStep runWord at h
  split at h
  · split at h
    · exact exec_keeps_inv hs h
    · cases h
      exact completeBadCmd_keeps_inv hs
  · cases h
    exact hs

theorem agentStep_keeps_inv {a : Config.AgentAction} {s t : State} (hs : s.Inv) (h : agentStep a s = .next t) :
    t.Inv := by
  cases a with
  | hostRead width off =>
    rw [checkedAccess_next h]
    exact hs.congr rfl rfl rfl rfl rfl rfl hs.status
  | hostWrite width off v =>
    rw [checkedAccess_next h]
    exact hostWriteWord_keeps_inv off v hs
  | engine => exact engineStep_keeps_inv hs h
  | tick =>
    cases h
    exact hs.congr rfl rfl rfl rfl rfl rfl hs.status
  | reset =>
    cases h
    exact resetStep_inv s

/-- Taking an action off the schedule is no change the invariant sees. -/
theorem afterAction_keeps_inv {s : State} (h : s.Inv) : (afterAction s).Inv := by
  unfold afterAction
  split <;> exact h.congr rfl rfl rfl rfl rfl rfl h.status

/-- Settles O60, agent by agent (`agentStep_keeps_inv`); for the Engine, command by command (`EngineBody.settled`, `ClosesOn.inv`). -/
theorem stepKeepsInvariant : Obligations.StepKeepsInvariant :=
  fun _ _ hs h => agentStep_keeps_inv (afterAction_keeps_inv hs) h

end Sys2Proof.Machine

/-! PROOF. The writers of the controller's fields, of a device state and of a chip type (spec/10_state.md R42, R47, 41_device.md R179),
and the power cycle (42_controller.md R240). -/

namespace Sys2Proof.Machine

/-! ## What a commit leaves of the body -/

theorem ClosesOn.ctl {s u t : State} (c : ClosesOn s u t) : t.ctl = u.ctl := by
  obtain ⟨_, _, _, _, _, _, _, rfl⟩ := c
  rfl

theorem ClosesOn.dev {s u t : State} (c : ClosesOn s u t) (d : DevIx) : t.dev d = u.dev d := by
  obtain ⟨_, _, _, _, _, _, _, rfl⟩ := c
  rfl

/-- A body that fires no event makes none pending (R260). -/
theorem ClosesOn.eventPending {s u t : State} (c : ClosesOn s u t) (f : ProcFrame (beginStep s) u) :
    t.host.eventPending = s.host.eventPending := by
  obtain ⟨_, _, _, _, _, _, _, rfl⟩ := c
  simp [f.host, f.engine]

/-! ## The power commands -/

/-- POWER_ON powers up where the power is off, and does nothing else (R190). -/
theorem exec_powerOn_cases {s t : State} (h : exec .powerOn s = .next t) :
    (s.ctl.power = true ∧ t = finish .success {} 0#16 0#16 (beginStep s)) ∨
      (s.ctl.power = false ∧ t = finish .success {} 0#16 0#16 (powerUp (beginStep s))) := by
  simp only [exec, execPowerOn, Host.Outcome.next.injEq] at h
  subst h
  cases hp : s.ctl.power <;> simp

theorem exec_powerOn_ctl {s t : State} (h : exec .powerOn s = .next t) : t.ctl =
    if s.ctl.power then s.ctl
    else { s.ctl with power := true, initialised := false, powerOnTime := s.now, relayOut := true } := by
  rcases exec_powerOn_cases h with ⟨hp, rfl⟩ | ⟨hp, rfl⟩ <;> simp [hp, powerUp_ctl]

theorem exec_powerOn_devs {s t : State} (h : exec .powerOn s = .next t) : t.devs = s.devs := by
  rcases exec_powerOn_cases h with ⟨_, rfl⟩ | ⟨_, rfl⟩ <;> simp [powerUp_devs]

/-- POWER_OFF shuts down where the power is on, and does nothing else (R195). -/
theorem exec_powerOff_ctl {s t : State} (h : exec .powerOff s = .next t) : t.ctl =
    if s.ctl.power then { s.ctl with
      power := false, initialised := false, prevLock := lockSentinel, relayOut := false, resetOut := false }
    else s.ctl := by
  simp only [exec, execPowerOff, Host.Outcome.next.injEq] at h
  subst h
  have hmute : (muteEach (beginStep s)).2.ctl = s.ctl := (forEach_procFrame muteProc_body _ _).ctl
  cases hp : s.ctl.power <;> simp [powerOffAfterMutes_ctl, hmute]

theorem exec_poll_ctl {s t : State} (h : exec .poll s = .next t) : t.ctl =
    { s.ctl with
      initialised := t.ctl.initialised, errorInitialising := t.ctl.errorInitialising, automuted := t.ctl.automuted,
      lastPollTime := t.ctl.lastPollTime, prevLock := t.ctl.prevLock, resetOut := t.ctl.resetOut } := by
  obtain ⟨u, hbody, hclose⟩ := engineRun_of_exec h
  rw [hclose.ctl]
  cases hbody with
  | registers frame _ => rw [frame.ctl]; rfl
  | initSequence _ => rw [initSequence_ctl]; rfl
  | sample _ =>
    obtain ⟨agg, v, _, hctl⟩ := sample_ctl (beginStep s)
    rw [hctl]; rfl

/-! ## Who writes what -/

/-- Only the commands on the controller itself reach outside the devices and the bus (R47). -/
theorem EngineBody.procFrame {s u : State} {i : Instr} (b : EngineBody s i u) (hon : i ≠ .powerOn) (hoff : i ≠ .powerOff)
    (hpoll : i ≠ .poll) : ProcFrame (beginStep s) u := by
  cases b with
  | registers frame _ => exact frame.toProcFrame
  | init _ => exact (initProc_spec ..).frame.toProcFrame
  | reset => exact (resetProc_spec ..).1.toProcFrame
  | powerUp _ => exact absurd rfl hon
  | powerDown _ => exact absurd rfl hoff
  | initSequence _ | sample _ => exact absurd rfl hpoll

/-- Settles O11: a command that is not POWER_ON, POWER_OFF or POLL keeps `ProcFrame`, and each of the three has its equation. -/
theorem controllerFieldsHaveTheirWriters : Obligations.ControllerFieldsHaveTheirWriters := by
  refine ⟨fun i s t hon hoff hpoll h => ?_, fun s t h => ⟨?_, exec_powerOn_devs h⟩, fun s t h => ?_,
    fun s t h => exec_poll_ctl h⟩
  · obtain ⟨u, hbody, hclose⟩ := engineRun_of_exec h
    have hframe := hbody.procFrame hon hoff hpoll
    exact ⟨hclose.ctl.trans hframe.ctl, hclose.eventPending hframe⟩
  · rw [exec_powerOn_ctl h]
    split <;> rfl
  · rw [exec_powerOff_ctl h]
    split <;> rfl

theorem powerOffAfterMutes_chipType (s : State) (e : DevIx) :
    ((powerOffAfterMutes s).dev e).chipType = (s.dev e).chipType := by
  obtain ⟨_, _, _, hchip, _⟩ := resetAll_spec s.devices (powerDown s)
  calc ((powerOffAfterMutes s).dev e).chipType
    _ = ((powerDown s).dev e).chipType := hchip e
    _ = (s.dev e).chipType := congrArg Device.chipType (State.dev_congr (powerDown_devs s) e)

/-- Only identification, in DEV_INIT and POLL, writes a chip type (R42). -/
theorem EngineBody.chipType {s u : State} {i : Instr} (b : EngineBody s i u) (hinit : ∀ d, i ≠ .devInit d)
    (hpoll : i ≠ .poll) (e : DevIx) : (u.dev e).chipType = (s.dev e).chipType := by
  cases b with
  | registers frame _ => exact frame.chipTypes e
  | init _ => exact absurd rfl (hinit _)
  | @reset d =>
    obtain ⟨hframe, _, hchip, _⟩ := resetProc_spec d (beginStep s)
    by_cases hed : e = d
    · exact hed ▸ hchip
    · rw [hframe.others e hed, State.dev_beginStep]
  | powerUp _ => exact congrArg Device.chipType (State.dev_congr (powerUp_devs (beginStep s)) e)
  | powerDown _ =>
    exact (powerOffAfterMutes_chipType _ e).trans ((forEach_spec muteProc_body _ (beginStep s)).frame.chipTypes e)
  | initSequence _ | sample _ => exact absurd rfl hpoll

/-- Only DEV_INIT, DEV_RESET, POWER_OFF and POLL write a device state (R179). -/
theorem EngineBody.phase {s u : State} {i : Instr} (b : EngineBody s i u) (hinit : ∀ d, i ≠ .devInit d)
    (hreset : ∀ d, i ≠ .devReset d) (hoff : i ≠ .powerOff) (hpoll : i ≠ .poll) (e : DevIx) :
    (u.dev e).phase = (s.dev e).phase := by
  cases b with
  | registers frame _ => exact frame.phases e
  | init _ => exact absurd rfl (hinit _)
  | reset => exact absurd rfl (hreset _)
  | powerUp _ => exact congrArg Device.phase (State.dev_congr (powerUp_devs (beginStep s)) e)
  | powerDown _ => exact absurd rfl hoff
  | initSequence _ | sample _ => exact absurd rfl hpoll

/-- A command on one device leaves every other device as it is. -/
theorem EngineBody.otherDev {s u : State} {i : Instr} {d e : DevIx} (b : EngineBody s i u) (hi : i.device? = some d)
    (he : e ≠ d) : u.dev e = s.dev e := by
  cases b with
  | registers _ others => exact others d e hi he
  | init _ =>
    cases hi
    exact (initProc_spec d (beginStep s)).frame.others e he
  | reset =>
    cases hi
    exact (resetProc_spec d (beginStep s)).1.others e he
  | powerUp _ | powerDown _ | initSequence _ | sample _ => cases hi

/-- Settles O12, body by body. -/
theorem deviceStateHasItsWriters : Obligations.DeviceStateHasItsWriters := by
  refine ⟨fun i s t e hinit hpoll h => ?_, fun i s t e hinit hreset hoff hpoll h => ?_, fun i s t d e hi he h => ?_⟩ <;>
    obtain ⟨u, hbody, hclose⟩ := engineRun_of_exec h <;> rw [hclose.dev]
  · exact hbody.chipType hinit hpoll e
  · exact hbody.phase hinit hreset hoff hpoll e
  · exact hbody.otherDev hi he

/-! ## The power cycle -/

theorem stateCode_of_idle {s : State} (hb : s.status.busy = false) :
    s.stateCode = if s.ctl.power = false then 0#3 else if s.ctl.initialised = false then 2#3 else 3#3 := by
  simp [State.stateCode, hb]

/-- Settles O44: POWER_ON leaves the power on, so POWER_OFF turns it off, so the second POWER_ON powers up. -/
theorem powerCycleReentersInitialising : Obligations.PowerCycleReentersInitialising := by
  intro s a b c hon hoff hon'
  have ha : a.ctl.power = true := by
    rw [exec_powerOn_ctl hon]
    cases hp : s.ctl.power <;> simp [hp]
  have hb : b.ctl.power = false := by
    rw [exec_powerOff_ctl hoff, if_pos ha]
  have hc : c.ctl = { b.ctl with power := true, initialised := false, powerOnTime := b.now, relayOut := true } := by
    rw [exec_powerOn_ctl hon', hb]; rfl
  have hnow : b.now = s.now :=
    (commits_of_exec hoff).commandFrame.now.trans (commits_of_exec hon).commandFrame.now
  refine ⟨by rw [hc], ?_, by rw [hc]; exact hnow⟩
  rw [stateCode_of_idle (commits_of_exec hon').busy, hc]
  rfl

end Sys2Proof.Machine

/-! PROOF. A faithful chip behind a write and a read (spec/20_memory.md R69, R136), and the attenuation clamp (41_device.md R172, R173). -/

namespace Sys2Proof.Machine

/-! ## A faithful chip -/

theorem chipAfter_append : ∀ (a b : List Action) (c : ChipContents),
    chipAfter (a ++ b) c = (chipAfter a c).bind (chipAfter b)
  | [], _, _ => rfl
  | .busRd _ _ _ :: a, b, c => by
    simp only [List.cons_append, chipAfter]
    split
    · exact chipAfter_append a b c
    · rfl
  | .busWr _ _ _ _ :: a, b, c => by
    simp only [List.cons_append, chipAfter]
    split
    · exact chipAfter_append a b _
    · rfl
  | .pin _ _ :: a, b, c => chipAfter_append a b c
  | .ev _ _ :: a, b, c => chipAfter_append a b c

theorem ChipContents.store_self (c : ChipContents) (a : BusAddr) (r : RegAddr) (v : Byte) : c.store a r v a r = v := by
  simp [ChipContents.store]

/-- `s` is reached with the chips' contents `c0` before its Engine step and `c` now, every transaction faithful (R69). -/
def ChipsHold (c0 : ChipContents) (s : State) (c : ChipContents) : Prop := chipAfter s.env.trace c0 = some c

/-- A read of a faithful chip answers its content and changes nothing. -/
theorem ChipsHold.of_rawRead {c0 c : ChipContents} {d : DevIx} {r : RegAddr} {s : State}
    (h : ChipsHold c0 (rawRead d r s).2 c) :
    ChipsHold c0 s c ∧ (rawRead d r s).1 = { rep := .success, v := c (s.devCfg d).addr r } := by
  obtain ⟨x, hx, htrace⟩ := rawRead_trace d r s
  rw [ChipsHold, htrace, chipAfter_append, Option.bind_eq_some_iff] at h
  obtain ⟨c1, hc1, hread⟩ := h
  simp only [chipAfter, Option.ite_none_right_eq_some, Option.some.injEq] at hread
  obtain ⟨hans, rfl⟩ := hread
  exact ⟨hc1, by rw [hx, hans]; rfl⟩

/-- A write to a faithful chip is stored. -/
theorem ChipsHold.of_busWrite {c0 c : ChipContents} {a : BusAddr} {r : RegAddr} {v : Byte} {s : State}
    (h : ChipsHold c0 (busWrite a r v s).2 c) : (busWrite a r v s).1 = .success ∧ c a r = v := by
  rw [ChipsHold, busWrite_trace, chipAfter_append, Option.bind_eq_some_iff] at h
  obtain ⟨c1, _, hwrite⟩ := h
  simp only [chipAfter, Option.ite_none_right_eq_some, Option.some.injEq] at hwrite
  obtain ⟨hans, rfl⟩ := hwrite
  exact ⟨hans, c1.store_self a r v⟩

theorem verifyOutcome_trace (d : DevIx) (r : RegAddr) (v : Byte) (x : ReadResult × State) :
    (verifyOutcome d r v x).2.env.trace = x.2.env.trace := by
  rcases verifyOutcome_cases d r v x with ⟨_, _, h⟩ | ⟨_, _, h⟩ | ⟨_, h⟩ <;> rw [h] <;> rfl

/-- After a write that was answered 0, its verify read leaves the chip with the byte (R123). -/
theorem ChipsHold.of_writeVerify {c0 c : ChipContents} {d : DevIx} {r : RegAddr} {v : Byte} {s : State}
    (h : ChipsHold c0 (writeVerify d r v s).2 c) (ho : (writeVerify d r v s).1.rep.ok = true) :
    c (s.devCfg d).addr r = v := by
  rcases writeVerify_cases d r v s with ⟨e, _, he⟩ | ⟨_, he⟩
  · rw [he] at ho
    cases ho
  · rw [he, ChipsHold, verifyOutcome_trace] at h
    exact (ChipsHold.of_busWrite (ChipsHold.of_rawRead h).1).2

/-- A WrCore that succeeds on a bus device leaves the byte in a faithful chip, whether it wrote, found it there, or the shadow, right
about the chip, held it (R124). -/
theorem ChipsHold.of_wrCore {c0 c1 c : ChipContents} {d : DevIx} {r : RegAddr} {v : Byte} {s : State}
    (hn : (s.devCfg d).noI2C = false) (h0 : ChipsHold c0 s c1)
    (hshadow : (s.entry d r).valid = true → (s.entry d r).val = c1 (s.devCfg d).addr r)
    (h : ChipsHold c0 (wrCore d r v s).2 c) (ho : (wrCore d r v s).1.rep.ok = true) : c (s.devCfg d).addr r = v := by
  rcases wrCore_cases d r v s with ⟨hx, _⟩ | ⟨_, _, hvalid, hval, he⟩ | ⟨_, _, _, he⟩ | ⟨_, _, he⟩
  · simp [hn] at hx
  · rw [he] at h
    have hc : c = c1 := Option.some.inj (h.symm.trans h0)
    rw [hc, ← hshadow hvalid, hval]
  · rw [he] at h ho
    rcases writeUnlessEqual_cases d r v (rawRead d r s) with ⟨_, heq, hw⟩ | ⟨_, _, hw⟩ | ⟨hfail, hw⟩ <;> rw [hw] at h ho
    · have hread := (ChipsHold.of_rawRead (d := d) (r := r) (s := s) h).2
      rw [← heq, hread]
    · exact ChipsHold.of_writeVerify (s := (rawRead d r s).2) h ho
    · simp [hfail] at ho
  · rw [he] at ho
    cases ho

/-! ## WRITE_REG and READ_REG -/

theorem exec_writeReg {s : State} {d : DevIx} (hd : d.val < s.nDev) (r : RegAddr) : exec (.writeReg d r) s =
    .next (finishWrite d (wrCore d r (operandByte s.engine.larg) (beginStep s))) := by
  simp only [exec, execWriteReg, onDevice, if_pos hd, beginStep_engine]

theorem exec_readReg {s : State} {d : DevIx} (hd : d.val < s.nDev) (r : RegAddr) : exec (.readReg d r) s =
    .next (finishRead d (rdCore d r (beginStep s))) := by
  simp only [exec, execReadReg, onDevice, if_pos hd]

/-- A result of DATA alone. -/
theorem resultWord_of_data (v : Byte) : resultWord { data := v } = v.setWidth 32 := by
  refine BitVec.eq_of_getLsbD_eq fun i hi => ?_
  rw [getLsbD_resultWord, BitVec.getLsbD_setWidth]
  by_cases h8 : i < 8
  · simp [h8, hi]
  · simp [h8, BitVec.getLsbD_of_ge v i (by omega)]

/-- READ_REG of a faithful chip on an Initialised bus device returns its content (R130). -/
theorem exec_readReg_faithful {s t : State} {d : DevIx} {r : RegAddr} {c c' : ChipContents} (hd : s.onBus d)
    (h : exec (.readReg d r) s = .next t) (hc : chipAfter t.env.trace c = some c') :
    t.status.ok = true ∧ t.host.result = (c (s.devCfg d).addr r).setWidth 32 := by
  obtain ⟨hlt, hbus, hhealthy⟩ := hd
  have hcore : rdCore d r (beginStep s) = rawRead d r (beginStep s) := by simp [rdCore, hbus, hhealthy]
  rw [exec_readReg hlt, hcore] at h
  cases h
  obtain ⟨hstart, hread⟩ := ChipsHold.of_rawRead (s := beginStep s) hc
  have hcc : c = c' := Option.some.inj hstart
  refine ⟨congrArg (fun x => x.rep.ok) hread, ?_⟩
  simp only [finishRead, finish_host, hread, hcc]
  exact resultWord_of_data _

/-- What a WRITE_REG that succeeds leaves of an Initialised bus device with a faithful chip: the device, and the byte (R132). -/
theorem exec_writeReg_faithful {s t : State} {d : DevIx} {r : RegAddr} {c c' : ChipContents} (hd : s.onBus d)
    (hshadow : (s.entry d r).valid = true → (s.entry d r).val = c (s.devCfg d).addr r)
    (h : exec (.writeReg d r) s = .next t) (ho : t.status.ok = true) (hc : chipAfter t.env.trace c = some c') :
    t.onBus d ∧ c' (t.devCfg d).addr r = operandByte s.engine.larg := by
  obtain ⟨hlt, hbus, hhealthy⟩ := hd
  rw [exec_writeReg hlt] at h
  cases h
  have hframe := (wrCore_spec d r (operandByte s.engine.larg) (beginStep s)).frame
  have hcfg : (wrCore d r (operandByte s.engine.larg) (beginStep s)).2.devCfg d = s.devCfg d := hframe.devCfg d
  refine ⟨⟨?_, (congrArg Config.DevCfg.noI2C hcfg).trans hbus, (hframe.healthy d).trans hhealthy⟩, ?_⟩
  · exact Nat.lt_of_lt_of_eq hlt hframe.nDev.symm
  · exact (congrArg (fun x : Config.DevCfg => c' x.addr r) hcfg).trans
      (ChipsHold.of_wrCore (s := beginStep s) (c0 := c) hbus rfl hshadow hc ho)

/-- Settles O25: the write leaves the byte in the chip, and the read answers what the chip holds. -/
theorem writeThenReadRoundTrip : Obligations.WriteThenReadRoundTrip := by
  intro s t u d r c c' c'' hd hshadow hwrite hok hchip hread hchip'
  obtain ⟨htbus, hbyte⟩ := exec_writeReg_faithful hd hshadow hwrite hok hchip
  obtain ⟨huok, hresult⟩ := exec_readReg_faithful htbus hread hchip'
  exact ⟨huok, hbyte ▸ hresult⟩

/-! ## The attenuation -/

/-- The clamp is the unsigned minimum (R172). -/
theorem clampAtten_toNat (v m : Byte) : (clampAtten v m).toNat = min v.toNat m.toNat := by
  unfold clampAtten
  split <;> omega

theorem operandByte_toNat (w : Word) : (operandByte w).toNat = w.toNat % 256 := by
  simp [operandByte, BitVec.extractLsb'_toNat]

/-- AttenProc returns the clamped value, however the write ends (R172). -/
theorem attenProc_data (d : DevIx) (v : Byte) (s : State) :
    (attenProc d v s).1.data = clampAtten v (s.layout d).attenMax := rfl

/-- Settles O33. -/
theorem attenDataIsTheMinimum : Obligations.AttenDataIsTheMinimum := by
  intro s t d hd h
  have ht : t = finishWrite d (attenProc d (operandByte s.engine.larg) (beginStep s)) := by
    simp only [exec, execDevSetAtten, onDevice, if_pos hd, beginStep_engine, Host.Outcome.next.injEq] at h
    exact h.symm
  calc (t.host.result.extractLsb' 0 8).toNat
    _ = (clampAtten (operandByte s.engine.larg) (s.layout d).attenMax).toNat := by
      rw [ht, finishWrite, finish_host, resultWord_data, attenProc_data, State.layout_beginStep]
    _ = min (s.engine.larg.toNat % 256) (s.layout d).attenMax.toNat := by rw [clampAtten_toNat, operandByte_toNat]

end Sys2Proof.Machine

/-! PROOF. The host register window: which accesses complete, and the words it reads as (spec/10_state.md R22-R38, R45, 20_memory.md
R60-R62, 60_exceptions.md R251, R262). -/

namespace Sys2Proof.Machine

/-! ## Accesses -/

theorem checkedAccess_of_width {width : Nat} (h : width ≠ 4) (off : Nat) (s : State) :
    checkedAccess width off s = .refused .hostAccessWidth := if_pos h

theorem checkedAccess_of_misaligned {off : Nat} (h : off % 4 ≠ 0) (s : State) :
    checkedAccess 4 off s = .refused .hostAccessMisaligned := by
  simp [checkedAccess, h]

theorem checkedAccess_of_outside {off : Nat} (h : off % 4 = 0) (ho : 64 ≤ off) (s : State) :
    checkedAccess 4 off s = .fault .outsideHostSpace := by
  simp [checkedAccess, h, ho]

theorem checkedAccess_of_inside {off : Nat} (h : off % 4 = 0) (ho : off < 64) (s : State) :
    checkedAccess 4 off s = .next s := by
  simp [checkedAccess, h, ho]

/-- Settles O52: the registers by the offset map, the accesses by the check (R60) they share. -/
theorem hostAccessesAreWholeAlignedWords : Obligations.HostAccessesAreWholeAlignedWords := by
  refine ⟨fun s => ⟨rfl, rfl, rfl, rfl, rfl, rfl, rfl, rfl, rfl, rfl⟩, fun s width off v => ⟨?_, ?_, ?_, ?_⟩⟩
  · rintro rfl hal hin
    exact ⟨checkedAccess_of_inside hal hin _, _, checkedAccess_of_inside hal hin _⟩
  · intro hw
    exact ⟨checkedAccess_of_width hw off _, checkedAccess_of_width hw off _⟩
  · rintro rfl hal
    exact ⟨checkedAccess_of_misaligned hal _, checkedAccess_of_misaligned hal _⟩
  · rintro rfl hal hout
    exact ⟨checkedAccess_of_outside hal hout _, checkedAccess_of_outside hal hout _⟩

/-- The registers no host write reaches (R61). -/
def HostReg.isReadOnly : HostReg → Bool
  | .result | .ctrlStatus | .lockAgg | .now | .powerOnTime | .lastPollTime | .devState | .devChipType | .devFailMask => true
  | .cmd | .arg | .status | .eventEnable | .eventPending => false

theorem writeHostReg_readOnly {x : HostReg} (h : x.isReadOnly = true) (v : Word) (s : State) : writeHostReg x v s = s := by
  cases x with
  | cmd | arg | status | eventEnable | eventPending => cases h
  | result | ctrlStatus | lockAgg | now | powerOnTime | lastPollTime | devState | devChipType | devFailMask => rfl

theorem hostWriteWord_ignored {off : Nat} (h : ∀ x, hostRegAt off = some x → x.isReadOnly = true) (v : Word) (s : State) :
    hostWriteWord off v s = s := by
  unfold hostWriteWord
  split
  · next x hx => exact writeHostReg_readOnly (h x hx) v s
  · rfl

/-- Settles O51: each listed offset is in the window, and holds a read-only register or none. -/
theorem readOnlyRegistersIgnoreWrites : Obligations.ReadOnlyRegistersIgnoreWrites := by
  intro s v
  refine ⟨fun off hoff => ?_, rfl, rfl⟩
  have hlisted : ∀ o ∈ [0x0C, 0x10, 0x14, 0x20, 0x24, 0x28, 0x2C, 0x30, 0x34, 0x38, 0x3C],
      o % 4 = 0 ∧ o < 64 ∧ (hostRegAt o).all HostReg.isReadOnly = true := by decide
  obtain ⟨hal, hin, hro⟩ := hlisted off hoff
  have hignored : hostWriteWord off v s = s := hostWriteWord_ignored (fun x hx => by simpa [hx] using hro) v s
  rw [hostWriteStep, hignored, checkedAccess_of_inside hal hin]

/-! ## STATUS -/

theorem State.irq_iff (s : State) : s.irq = true ↔ s.host.eventPending ≠ 0#10 := by
  simp [State.irq]

/-- The one-bit fields of STATUS (R24). -/
theorem State.statusWord_flags (s : State) :
    s.statusWord.getLsbD 0 = s.status.busy ∧ s.statusWord.getLsbD 1 = s.status.done ∧
      s.statusWord.getLsbD 2 = s.status.ok ∧ s.statusWord.getLsbD 3 = s.status.overrun ∧
      s.statusWord.getLsbD 11 = s.irq := by
  unfold State.statusWord
  refine ⟨?_, ?_, ?_, ?_, ?_⟩ <;> simp only [BitVec.getLsbD_append] <;> simp

/-- The wider fields of STATUS, each past the fields below it (R24). -/
theorem State.statusWord_fields (s : State) :
    s.statusWord.extractLsb' 4 4 = errCode s.status.err ∧ s.statusWord.extractLsb' 8 3 = s.status.buscode ∧
      s.statusWord.extractLsb' 12 20 = 0#20 := by
  unfold State.statusWord
  refine ⟨?_, ?_, ?_⟩ <;>
    simp (disch := decide) only [BitVec.extractLsb'_append_eq_of_le, BitVec.extractLsb'_append_eq_of_add_le] <;>
    simp

/-- Settles O53. -/
theorem statusWordLayout : Obligations.StatusWordLayout := by
  refine ⟨rfl, rfl, fun s => ?_⟩
  obtain ⟨hbusy, hdone, hok, hoverrun, hirq⟩ := s.statusWord_flags
  obtain ⟨herr, hbuscode, hreserved⟩ := s.statusWord_fields
  exact ⟨rfl, hbusy, hdone, hok, hoverrun, herr, hbuscode, by rw [hirq, s.irq_iff], hreserved⟩

/-! ## CTRL_STATUS, DEV_STATE, DEV_CHIPTYPE -/

/-- The one-bit fields of CTRL_STATUS, bit 7 reserved (R26). -/
theorem State.ctrlStatusWord_flags (s : State) :
    s.ctrlStatusWord.getLsbD 0 = s.ctl.power ∧ s.ctrlStatusWord.getLsbD 1 = s.ctl.initialised ∧
      s.ctrlStatusWord.getLsbD 2 = s.ctl.errorInitialising ∧ s.ctrlStatusWord.getLsbD 3 = s.initSuccess ∧
      s.ctrlStatusWord.getLsbD 4 = s.ctl.automuted ∧ s.ctrlStatusWord.getLsbD 5 = s.ctl.relayOut ∧
      s.ctrlStatusWord.getLsbD 6 = s.ctl.resetOut ∧ s.ctrlStatusWord.getLsbD 7 = false := by
  unfold State.ctrlStatusWord
  refine ⟨?_, ?_, ?_, ?_, ?_, ?_, ?_, ?_⟩ <;> simp only [BitVec.getLsbD_append] <;> simp

/-- The wider fields of CTRL_STATUS, each past the fields below it (R26). -/
theorem State.ctrlStatusWord_fields (s : State) :
    s.ctrlStatusWord.extractLsb' 8 3 = s.stateCode ∧ s.ctrlStatusWord.extractLsb' 11 5 = 0#5 ∧
      s.ctrlStatusWord.extractLsb' 16 5 = BitVec.ofNat 5 s.nDev ∧ s.ctrlStatusWord.extractLsb' 21 11 = 0#11 := by
  unfold State.ctrlStatusWord
  refine ⟨?_, ?_, ?_, ?_⟩ <;>
    simp (disch := decide) only [BitVec.extractLsb'_append_eq_of_le, BitVec.extractLsb'_append_eq_of_add_le] <;>
    simp

theorem State.healthy_iff (s : State) (d : DevIx) : s.healthy d = true ↔ (s.dev d).phase = .initialised := by
  simp [State.healthy]

/-- INIT_SUCCESS (R33). -/
theorem State.initSuccess_iff (s : State) :
    s.initSuccess = true ↔ ∀ d : DevIx, d.val < s.nDev → (s.dev d).phase = .initialised := by
  simp only [State.initSuccess, List.all_eq_true, s.mem_devices, s.healthy_iff]

theorem State.stateCode_of_poweringOn {s : State} (hb : s.status.busy = true) (hl : s.engine.lcmd = powerOnWord)
    (hp : s.engine.lpow = false) : s.stateCode = 1#3 := if_pos ⟨hb, hl, hp⟩

theorem State.stateCode_of_poweringOff {s : State} (hb : s.status.busy = true) (hl : s.engine.lcmd = powerOffWord)
    (hp : s.engine.lpow = true) : s.stateCode = 4#3 := by
  have hne : ¬ powerOffWord = powerOnWord := by decide
  simp [State.stateCode, hb, hl, hp, hne]

/-- Past POWER_ON and POWER_OFF, STATE is by the flags (R45). -/
theorem State.stateCode_of_flags {s : State} (h : s.status.busy = true →
    ¬(s.engine.lcmd = powerOnWord ∧ s.engine.lpow = false) ∧ ¬(s.engine.lcmd = powerOffWord ∧ s.engine.lpow = true)) :
    s.stateCode = if s.ctl.power = false then 0#3 else if s.ctl.initialised = false then 2#3 else 3#3 := by
  unfold State.stateCode
  rw [if_neg fun hon => (h hon.1).1 hon.2, if_neg fun hoff => (h hoff.1).2 hoff.2]

/-- The two halves of DEV_STATE (R34). -/
theorem State.devStateWord_bits (s : State) (d : DevIx) :
    s.devStateWord.getLsbD d.val = (decide (d.val < s.nDev) && s.healthy d) ∧
      s.devStateWord.getLsbD (16 + d.val) = (decide (d.val < s.nDev) && (s.devCfg d).noI2C) := by
  have hd := d.isLt
  constructor <;> rw [State.devStateWord, BitVec.getLsbD_append]
  · rw [if_pos hd, State.getLsbD_maskOf]
  · rw [if_neg (by omega), Nat.add_sub_cancel_left, State.getLsbD_maskOf]
    rfl

/-- The two bits of a device in DEV_CHIPTYPE (R36). -/
theorem State.chipTypeWord_field (s : State) (d : DevIx) :
    s.chipTypeWord.extractLsb' (2 * d.val) 2 = if d.val < s.nDev then (s.dev d).chipType else 0#2 := by
  refine BitVec.eq_of_getLsbD_eq fun i hi => ?_
  have hlt : 2 * d.val + i < 32 := by omega
  have hdiv : (2 * d.val + i) / 2 = d.val := by omega
  have hmod : (2 * d.val + i) % 2 = i := by omega
  have hdev : chipTypeDev ⟨2 * d.val + i, hlt⟩ = d := Fin.ext hdiv
  rw [BitVec.getLsbD_extractLsb', State.chipTypeWord, BitVec.getLsbD_ofFnLE]
  simp only [hlt, dif_pos, hdev, hdiv, hmod, hi, decide_true, Bool.true_and]
  by_cases hn : d.val < s.nDev <;> simp [hn]

/-- Settles O54. -/
theorem controllerAndDeviceWordsLayout : Obligations.ControllerAndDeviceWordsLayout := by
  intro s
  obtain ⟨hpower, hinit, herror, hsuccess, hmuted, hrelay, hreset, h7⟩ := s.ctrlStatusWord_flags
  obtain ⟨hstate, h11, hn, h21⟩ := s.ctrlStatusWord_fields
  have hnDev : (s.ctrlStatusWord.extractLsb' 16 5).toNat = s.nDev := by
    obtain ⟨_, h16⟩ := s.nDev_range
    rw [hn, BitVec.toNat_ofNat]
    omega
  refine ⟨⟨hpower, hinit, herror, hsuccess ▸ s.initSuccess_iff, hmuted, hrelay, hreset, h7, h11, h21,
    fun hb hl hp => hstate.trans (State.stateCode_of_poweringOn hb hl hp),
    fun hb hl hp => hstate.trans (State.stateCode_of_poweringOff hb hl hp),
    fun h => hstate.trans (State.stateCode_of_flags h), hnDev⟩, fun d => ?_⟩
  obtain ⟨hhealthy, hnoI2C⟩ := s.devStateWord_bits d
  refine ⟨?_, ?_, s.chipTypeWord_field d⟩
  · rw [show hostReadWord s 0x2C = s.devStateWord from rfl, hhealthy, Bool.and_eq_true, decide_eq_true_eq, s.healthy_iff]
  · rw [show hostReadWord s 0x2C = s.devStateWord from rfl, hnoI2C, Bool.and_eq_true, decide_eq_true_eq]

end Sys2Proof.Machine

/-! PROOF. Launch and commit (spec/20_memory.md R63, R67): what a host write to CMD does, and what the commit of the launched command
reports and makes pending. -/

namespace Sys2Proof.Machine

/-! ## The commit -/

/-- Every commit is done, so its OK is by its error alone (R67, R251). -/
theorem Commits.ok_iff {s t : State} (h : Commits s t) : t.status.ok = true ↔ t.status.err = .noErr := by
  obtain ⟨_, hok, _⟩ := h.statusConsistent
  simpa [h.done] using hok

/-- Settles O8: a command commits, and the status of a commit is consistent. -/
theorem commitReportsConsistently : Obligations.CommitReportsConsistently := by
  intro i s t h
  have hcommit := commits_of_exec h
  obtain ⟨_, _, _, hbus, hrange⟩ := hcommit.statusConsistent
  exact ⟨hcommit.busy, hcommit.done, hcommit.ok_iff, hbus, hrange⟩

/-- The step began with no event fired and an empty trace, so the enabled events of the event set are the delivered ones of the trace
(R260). -/
theorem Commits.events {s t : State} (h : Commits s t) :
    t.host.eventPending = s.host.eventPending ||| deliveredBits t.env.trace ∧
      ∀ k b, Action.ev k b ∈ t.env.trace → b = s.enabled k := by
  obtain ⟨rep, res, pf, sf, u, _, frame, rfl⟩ := h
  obtain ⟨acts, htrace, hfired, hbits⟩ := frame.trace
  have hacts : u.env.trace = acts := by simpa using htrace
  have hdelivered : u.engine.fired &&& s.host.eventEnable = deliveredBits acts := by simpa using hfired
  have hhost : u.host = s.host := frame.host
  rw [finish_env, finish_host, hacts, hhost, hdelivered]
  exact ⟨rfl, hbits⟩

/-- Settles O10. -/
theorem eventsBecomePendingAtCommit : Obligations.EventsBecomePendingAtCommit :=
  fun _ _ _ h => (commits_of_exec h).events

/-! ## The launch -/

theorem writeCmd_of_idle {s : State} (h : s.status.busy = false) (w : Word) : writeCmd w s = launch w s := by
  simp [writeCmd, h]

theorem writeCmd_of_busy {s : State} (h : s.status.busy = true) (w : Word) :
    writeCmd w s = { s with status := { s.status with overrun := true } } := if_pos h

/-- A word written at the offset of CMD is admitted, and goes to CMD (R22, R60). -/
theorem hostWriteStep_cmd (w : Word) (s : State) : hostWriteStep 4 0x00 w s = .next (writeCmd w s) :=
  checkedAccess_of_inside (by decide) (by decide) _

/-- Settles O49. -/
theorem cmdWriteLaunchesOrOverruns : Obligations.CmdWriteLaunchesOrOverruns := by
  intro s w
  rw [hostWriteStep_cmd]
  constructor
  · intro hidle
    rw [writeCmd_of_idle hidle, launch]
  · intro hbusy
    rw [writeCmd_of_busy hbusy]

end Sys2Proof.Machine

/-! PROOF. The decoder and the encoder of command words (spec/30_encoding.md R90-R98, R106), the words and devices that end a command
before it begins (R94, R95), and the patterns bit by bit (R100, R101). -/

namespace Sys2Proof

/-! ## The fields of a word -/

/-- A word is its five fields, REG and DEV between the reserved ones (R90). -/
theorem word_eq_fields (w : Word) :
    wordReservedHigh w ++ wordReg w ++ wordDev w ++ wordReservedLow w ++ wordOp w = w := by
  unfold wordReservedHigh wordReg wordDev wordReservedLow wordOp
  rw [BitVec.extractLsb'_append_extractLsb'_eq_extractLsb' (start₂ := 19) rfl,
    BitVec.extractLsb'_append_extractLsb'_eq_extractLsb' (start₂ := 12) rfl,
    BitVec.extractLsb'_append_extractLsb'_eq_extractLsb' (start₂ := 8) rfl,
    BitVec.extractLsb'_append_extractLsb'_eq_extractLsb' (start₂ := 5) rfl]
  exact BitVec.extractLsb'_eq_self

/-- A word with 0 in its reserved fields is its REG, DEV and OP (R90, R106). -/
theorem word_eq_of_reserved_zero {w : Word} (hlow : wordReservedLow w = 0#3) (hhigh : wordReservedHigh w = 0#13) :
    0#13 ++ wordReg w ++ wordDev w ++ 0#3 ++ wordOp w = w := by
  rw [← hlow, ← hhigh]
  exact word_eq_fields w

@[simp] theorem wordOp_encode (i : Instr) : wordOp (encode i) = opcode i :=
  BitVec.extractLsb'_append_eq_right

@[simp] theorem wordReservedLow_encode (i : Instr) : wordReservedLow (encode i) = 0#3 :=
  (BitVec.extractLsb'_append_eq_of_le (by decide)).trans BitVec.extractLsb'_append_eq_right

@[simp] theorem wordDev_encode (i : Instr) : wordDev (encode i) = devField i :=
  (BitVec.extractLsb'_append_eq_of_le (by decide)).trans
    ((BitVec.extractLsb'_append_eq_of_le (by decide)).trans BitVec.extractLsb'_append_eq_right)

@[simp] theorem wordReg_encode (i : Instr) : wordReg (encode i) = regField i :=
  (BitVec.extractLsb'_append_eq_of_le (by decide)).trans ((BitVec.extractLsb'_append_eq_of_le (by decide)).trans
    ((BitVec.extractLsb'_append_eq_of_le (by decide)).trans BitVec.extractLsb'_append_eq_right))

@[simp] theorem wordReservedHigh_encode (i : Instr) : wordReservedHigh (encode i) = 0#13 :=
  (BitVec.extractLsb'_append_eq_of_le (by decide)).trans ((BitVec.extractLsb'_append_eq_of_le (by decide)).trans
    ((BitVec.extractLsb'_append_eq_of_le (by decide)).trans BitVec.extractLsb'_append_eq_left))

/-! ## The fields of a command -/

theorem devIxOfField_ofNat (d : DevIx) : devIxOfField (BitVec.ofNat 4 d.val) = d :=
  Fin.ext (Nat.mod_eq_of_lt d.isLt)

theorem ofNat_devIxOfField (f : BitVec 4) : BitVec.ofNat 4 (devIxOfField f).val = f :=
  BitVec.eq_of_toNat_eq (Nat.mod_eq_of_lt f.isLt)

/-- The DEV field of a command that names the device of a field is that field (R91). -/
theorem devField_of_device {i : Instr} {f : BitVec 4} (h : i.device? = some (devIxOfField f)) : devField i = f := by
  rw [devField, h]
  exact ofNat_devIxOfField f

theorem devField_of_controller {i : Instr} : i.family = .controller → devField i = 0#4 := by
  cases i <;> simp [Instr.family, devField, Instr.device?]

theorem regField_of_not_transport {i : Instr} : i.family ≠ .transport → regField i = 0#7 := by
  cases i <;> simp [Instr.family, regField]

/-- The opcode map reads a command back from its opcode and its fields (R93). -/
theorem commandOfOpcode_opcode (i : Instr) :
    commandOfOpcode (opcode i) (devIxOfField (devField i)) (regField i) = some i := by
  cases i <;> simp only [devField, Instr.device?, devIxOfField_ofNat] <;> rfl

/-- A command of the opcode map has the opcode and, of device and register, those its family uses (R91, R93). -/
theorem fields_of_commandOfOpcode {op : BitVec 5} {d : DevIx} {r : RegAddr} {i : Instr}
    (h : commandOfOpcode op d r = some i) :
    opcode i = op ∧ (i.family ≠ .controller → i.device? = some d) ∧ (i.family = .transport → regField i = r) := by
  unfold commandOfOpcode at h
  split at h <;> cases h <;> simp [opcode, Instr.device?, regField, Instr.family, BitVec.toNat_eq, *]

/-- The fields left to check are REG outside the transport family, and DEV in the controller family (R91). -/
theorem unusedFieldsZero_iff (fam : CmdFamily) (w : Word) :
    unusedFieldsZero fam w = true ↔ (fam ≠ .transport → wordReg w = 0#7) ∧ (fam = .controller → wordDev w = 0#4) := by
  cases fam <;> simp [unusedFieldsZero]

/-! ## The decoder -/

/-- What the decoder asks of a word (R94, R95). -/
theorem decode_eq_ok_iff {w : Word} {i : Instr} :
    decode w = .ok i ↔ commandOfOpcode (wordOp w) (devIxOfField (wordDev w)) (wordReg w) = some i ∧
      wordReservedLow w = 0#3 ∧ wordReservedHigh w = 0#13 ∧ unusedFieldsZero i.family w = true := by
  unfold decode
  cases commandOfOpcode (wordOp w) (devIxOfField (wordDev w)) (wordReg w) with
  | none => simp
  | some j =>
    dsimp only
    split_ifs <;> grind

/-- Settles O1: the encoder puts every field where the decoder reads it, and leaves 0 in those the command does not use. -/
theorem decodeUndoesEncode : Obligations.DecodeUndoesEncode := by
  intro i
  have hunused : unusedFieldsZero i.family (encode i) = true := by
    rw [unusedFieldsZero_iff, wordReg_encode, wordDev_encode]
    exact ⟨regField_of_not_transport, devField_of_controller⟩
  rw [decode_eq_ok_iff, wordOp_encode, wordDev_encode, wordReg_encode]
  exact ⟨commandOfOpcode_opcode i, wordReservedLow_encode i, wordReservedHigh_encode i, hunused⟩

/-- Settles O2: the fields a command uses are the word's, and the others are 0 in both. -/
theorem encodeUndoesDecode : Obligations.EncodeUndoesDecode := by
  intro w i h
  obtain ⟨hcommand, hlow, hhigh, hunused⟩ := decode_eq_ok_iff.mp h
  obtain ⟨hop, hdevice, hregUsed⟩ := fields_of_commandOfOpcode hcommand
  obtain ⟨hregUnused, hdevUnused⟩ := (unusedFieldsZero_iff i.family w).mp hunused
  have hreg : regField i = wordReg w := by
    by_cases ht : i.family = .transport
    · exact hregUsed ht
    · rw [regField_of_not_transport ht, hregUnused ht]
  have hdev : devField i = wordDev w := by
    by_cases hc : i.family = .controller
    · rw [devField_of_controller hc, hdevUnused hc]
    · exact devField_of_device (hdevice hc)
  rw [encode, hop, hdev, hreg]
  exact word_eq_of_reserved_zero hlow hhigh

/-- The word of a command, read as a table word (R97). -/
theorem decodeTableWord_of_encode {i : Instr} {n : Nat} (h : (encode i).toNat = n) : decodeTableWord 32 n = some i := by
  have hword : BitVec.ofNat 32 (n % 2 ^ 32) = encode i := by
    rw [← h, Nat.mod_eq_of_lt (encode i).isLt, BitVec.ofNat_toNat, BitVec.setWidth_eq]
  rw [decodeTableWord, hword, decodeUndoesEncode i]

/-- Settles O3: each word is the encoding of its command. -/
theorem decodesWrittenWords : Obligations.DecodesWrittenWords :=
  ⟨decodeTableWord_of_encode rfl, decodeTableWord_of_encode rfl, decodeTableWord_of_encode rfl,
    decodeTableWord_of_encode rfl, decodeTableWord_of_encode rfl, decodeTableWord_of_encode rfl⟩

/-- The word of a command is well-formed (R94). -/
theorem commandWordWf_encode (i : Instr) : commandWordWf (encode i) = true := by
  cases i with
  | readReg d r => exact Laws.EncodesWellFormed.readReg d r
  | writeReg d r => exact Laws.EncodesWellFormed.writeReg d r
  | writeBits d r => exact Laws.EncodesWellFormed.writeBits d r
  | devInit d => exact Laws.EncodesWellFormed.devInit d
  | devReset d => exact Laws.EncodesWellFormed.devReset d
  | devLocked d => exact Laws.EncodesWellFormed.devLocked d
  | devAutomuted d => exact Laws.EncodesWellFormed.devAutomuted d
  | devMute d => exact Laws.EncodesWellFormed.devMute d
  | devUnmute d => exact Laws.EncodesWellFormed.devUnmute d
  | devSetAtten d => exact Laws.EncodesWellFormed.devSetAtten d
  | devSelectInput d => exact Laws.EncodesWellFormed.devSelectInput d
  | powerOn => exact Laws.EncodesWellFormed.powerOn
  | powerOff => exact Laws.EncodesWellFormed.powerOff
  | poll => exact Laws.EncodesWellFormed.poll
  | setAttenAll => exact Laws.EncodesWellFormed.setAttenAll
  | muteAll => exact Laws.EncodesWellFormed.muteAll
  | unmuteAll => exact Laws.EncodesWellFormed.unmuteAll
  | selectInputAll => exact Laws.EncodesWellFormed.selectInputAll

/-- A word that is not well-formed is no command: every command's one word is (R94). -/
theorem decode_of_not_wf {w : Word} (h : commandWordWf w = false) : ∃ e, decode w = .error e := by
  cases hdecode : decode w with
  | error e => exact ⟨e, rfl⟩
  | ok i =>
    have hwf : commandWordWf w = true := encodeUndoesDecode w i hdecode ▸ commandWordWf_encode i
    rw [h] at hwf
    cases hwf

end Sys2Proof

namespace Sys2Proof.Machine

/-! ## Commands that end before they begin -/

theorem failWord_devBit (d : DevIx) : failWord (devBit d) 0#16 = primaryBit d := by
  revert d; decide

/-- An error raised at the start of a step, without a result, changes nothing but what a completion reports (R252, R253). -/
theorem raiseCmdError_beginStep (code : CmdErr) (bc : BitVec 3) (pf : DevMask) (s : State) :
    raiseCmdError code bc {} pf 0#16 (beginStep s) =
      s.completed (errStatus s code bc) 0#32 (failWord pf 0#16) { s.env with trace := [] } := by
  have hpending : s.host.eventPending ||| (0#10 &&& s.host.eventEnable) = s.host.eventPending := by simp
  simp only [raiseCmdError, finish, beginStep, hpending, resultWord_of_data]
  rfl

theorem runWord_of_error {w : Word} {e : DecodeError} (h : decode w = .error e) (s : State) :
    runWord w s = .next (completeBadCmd s) := by
  rw [runWord, h]

/-- Settles O5: such a word does not decode. -/
theorem malformedWordCompletesBadCmd : Obligations.MalformedWordCompletesBadCmd := by
  intro s hbusy hwf
  obtain ⟨e, he⟩ := decode_of_not_wf hwf
  calc agentStep .engine s
    _ = runWord s.engine.lcmd s := engineStep_of_busy hbusy
    _ = .next (completeBadCmd s) := runWord_of_error he s
    _ = .next (s.completed (errStatus s .badCmd 0#3) 0#32 0#32 { s.env with trace := [] }) :=
      congrArg _ (raiseCmdError_beginStep .badCmd 0#3 0#16 s)

/-- A command that names a device runs on that device (R95). -/
theorem exec_of_device {i : Instr} {d : DevIx} (h : i.device? = some d) (s : State) :
    ∃ body, exec i s = .next (onDevice d body s) := by
  cases i <;> cases h <;> exact ⟨_, rfl⟩

theorem onDevice_of_absent {s : State} {d : DevIx} (h : s.nDev ≤ d.val) (body : State → State) :
    onDevice d body s = raiseCmdError .badDev 0#3 {} 0#16 0#16 (beginStep s) :=
  if_neg (Nat.not_lt.mpr h)

/-- Settles O7: whatever the command's body is, it does not run. -/
theorem absentDeviceCompletesBadDev : Obligations.AbsentDeviceCompletesBadDev := by
  intro i d s hdevice habsent
  obtain ⟨body, hexec⟩ := exec_of_device hdevice s
  rw [hexec, onDevice_of_absent habsent, raiseCmdError_beginStep]
  rfl

/-! ## Patterns -/

theorem getLsbD_patTouch (p : Pattern) {i : Nat} (hi : i < 8) : (patTouch p).getLsbD i = !p.getLsbD (2 * i + 1) := by
  rw [patTouch, BitVec.getLsbD_ofFnLE, dif_pos hi]

theorem getLsbD_patVal (p : Pattern) {i : Nat} (hi : i < 8) :
    (patVal p).getLsbD i = (p.getLsbD (2 * i) && !p.getLsbD (2 * i + 1)) := by
  rw [patVal, BitVec.getLsbD_ofFnLE, dif_pos hi]

/-- Settles O21, by the high bit of the symbol: an untouched bit is the register's, a touched one the pattern's. -/
theorem overlayPatchesBitByBit : Obligations.OverlayPatchesBitByBit := by
  intro cur p i hi
  rw [overlay, BitVec.getLsbD_or, BitVec.getLsbD_and, BitVec.getLsbD_not, getLsbD_patTouch p hi, getLsbD_patVal p hi]
  cases p.getLsbD (2 * i + 1) <;> simp [hi]

/-- A symbol coded 11 makes a pattern invalid (R101). -/
theorem patValid_of_symbol_three {p : Pattern} {i : Nat} (hi : i < 8) (hlow : p.getLsbD (2 * i) = true)
    (hhigh : p.getLsbD (2 * i + 1) = true) : patValid p = false := by
  refine List.all_eq_false.mpr ⟨i, ?_, by simp [hlow, hhigh]⟩
  interval_cases i <;> decide

/-- The pattern operand is the low half of LARG (R92). -/
theorem getLsbD_operandPattern (w : Word) {n : Nat} (hn : n < 16) : (operandPattern w).getLsbD n = w.getLsbD n := by
  simp [operandPattern, hn]

theorem exec_writeBits {s : State} {d : DevIx} (hd : d.val < s.nDev) (r : RegAddr) : exec (.writeBits d r) s =
    .next (patchRegister d r (operandPattern s.engine.larg) (beginStep s)) := by
  simp only [exec, execWriteBits, onDevice, if_pos hd, beginStep_engine]

theorem patchRegister_of_invalid {p : Pattern} (h : patValid p = false) (d : DevIx) (r : RegAddr) (s : State) :
    patchRegister d r p s = raiseCmdError .badPattern 0#3 {} (devBit d) 0#16 s := by
  simp [patchRegister, h]

/-- Settles O23: the pattern is checked before the bypass and the gate (`patchRegister_of_invalid`). -/
theorem invalidPatternIsBadPattern : Obligations.InvalidPatternIsBadPattern := by
  intro s d r i hd hi hlow hhigh
  have hinvalid : patValid (operandPattern s.engine.larg) = false := by
    refine patValid_of_symbol_three hi ?_ ?_
    · rw [getLsbD_operandPattern _ (by omega), hlow]
    · rw [getLsbD_operandPattern _ (by omega), hhigh]
  rw [exec_writeBits hd, patchRegister_of_invalid hinvalid, raiseCmdError_beginStep, failWord_devBit]

end Sys2Proof.Machine

/-! PROOF. The register commands on an existing device (spec/40_transport.md R120-R137, 41_device.md R168-R176): the commit of a step
whose answers are listed, and every way a write ends. -/

namespace Sys2Proof.Machine

/-! ## The commit of a step whose answers are listed -/

/-- A commit on the start of the step, but for devices, answers and trace (R67): the step began with no event fired and an empty trace. -/
theorem finish_went (rep : Report) (res : CmdResult) (pf sf : DevMask) (s : State) (rest : List Config.ReadAnswer)
    (wrest : List Config.WriteAnswer) (acts : List Action) :
    finish rep res pf sf ((beginStep s).went rest wrest acts) =
      s.completed (rep.status s) (resultWord res) (failWord pf sf) (s.env.after rest wrest acts) := by
  have hpending : s.host.eventPending ||| (0#10 &&& s.host.eventEnable) = s.host.eventPending := by simp
  simp only [finish, beginStep, State.went, hpending, List.nil_append]
  rfl

/-- The same where no answer is used up. -/
theorem finish_beginStep (rep : Report) (res : CmdResult) (pf sf : DevMask) (s : State) :
    finish rep res pf sf (beginStep s) =
      s.completed (rep.status s) (resultWord res) (failWord pf sf) { s.env with trace := [] } :=
  finish_went rep res pf sf s s.env.reads s.env.writes []

/-- The mask of a command on one device: its bit where the command failed (R254). -/
theorem failWord_failBit (ok : Bool) (d : DevIx) :
    failWord (failBit ok d) 0#16 = if ok then 0#32 else primaryBit d := by
  cases ok
  · exact failWord_devBit d
  · exact (failWord_eq_zero _).2 rfl

/-- A result of DATA and the four flags (R25). -/
theorem resultWord_of_flags (v : Byte) (l r a e : Bool) :
    resultWord { data := v, locked := l, readErr := r, automuted := a, elided := e } =
      (if l then 0x100#32 else 0#32) ||| (if r then 0x200#32 else 0#32) ||| (if a then 0x400#32 else 0#32) |||
        (if e then 0x800#32 else 0#32) ||| v.setWidth 32 := by
  refine BitVec.eq_of_getLsbD_eq fun i hi => ?_
  rw [getLsbD_resultWord, BitVec.getLsbD_or, BitVec.getLsbD_setWidth]
  by_cases h8 : i < 8
  · have : ((if l then 0x100#32 else 0#32) ||| (if r then 0x200#32 else 0#32) ||| (if a then 0x400#32 else 0#32) |||
        (if e then 0x800#32 else 0#32)).getLsbD i = false := by
      clear hi; revert l r a e; revert i; decide
    rw [if_pos h8, this, Bool.false_or, decide_eq_true hi, Bool.true_and]
  · rw [BitVec.getLsbD_of_ge v i (by omega)]
    simp only [h8]
    clear h8; revert l r a e; revert i; decide

/-! ## The ends of a write, as commands -/

/-- The start of a step and what an end leaves do not touch the same fields. -/
theorem WriteEnd.leave_beginStep (e : WriteEnd) (d : DevIx) (r : RegAddr) (q : Request) (s : State) :
    e.leave d r q (beginStep s) = beginStep (e.leave d r q s) := by
  cases e with
  | elided cur => simp only [WriteEnd.leave]; split <;> rfl
  | _ => rfl

/-- The commit of a write that ended as `e`, with this DATA. -/
theorem WriteEnd.finishWrite_eq (e : WriteEnd) (s : State) (d : DevIx) (r : RegAddr) (q : Request) (data : Byte)
    (rest : List Config.ReadAnswer) (wrest : List Config.WriteAnswer) :
    finishWrite d ({ rep := e.report, elided := e.isElided, data := data }, (e.outcome (beginStep s) d r q rest wrest).2) =
      e.finished s d r q data rest wrest := by
  have hstatus : (e.leave d r q s).status = s.status := (e.leave_regFrame d r q s).status
  unfold finishWrite WriteEnd.outcome WriteEnd.finished
  dsimp only
  rw [WriteEnd.leave_beginStep, finish_went, failWord_failBit, resultWord_of_flags, WriteEnd.leave_env, State.devCfg_beginStep]
  simp [Report.status, hstatus]

/-- A write procedure that does what its end says makes a command that does. -/
theorem WriteEnd.finishWrite_outcome (e : WriteEnd) (s : State) (d : DevIx) (r : RegAddr) (q : Request)
    (rest : List Config.ReadAnswer) (wrest : List Config.WriteAnswer) :
    finishWrite d (e.outcome (beginStep s) d r q rest wrest) = e.finished s d r q (e.data q) rest wrest :=
  e.finishWrite_eq s d r q (e.data q) rest wrest

theorem WriteEnd.fits_beginStep {e : WriteEnd} {s : State} {d : DevIx} {r : RegAddr} {q : Request} (h : e.fits s d r q) :
    e.fits (beginStep s) d r q := WriteEnd.fits_congr rfl rfl h

theorem exec_devMute {s : State} {d : DevIx} (hd : d.val < s.nDev) :
    exec (.devMute d) s = .next (finishWrite d (muteProc d (beginStep s))) :=
  congrArg Host.Outcome.next (if_pos hd)

theorem exec_devUnmute {s : State} {d : DevIx} (hd : d.val < s.nDev) :
    exec (.devUnmute d) s = .next (finishWrite d (unmuteProc d (beginStep s))) :=
  congrArg Host.Outcome.next (if_pos hd)

theorem exec_devSetAtten {s : State} {d : DevIx} (hd : d.val < s.nDev) :
    exec (.devSetAtten d) s = .next (finishWrite d (attenProc d (operandByte s.engine.larg) (beginStep s))) :=
  congrArg Host.Outcome.next (if_pos hd)

theorem exec_devSelectInput {s : State} {d : DevIx} (hd : d.val < s.nDev) :
    exec (.devSelectInput d) s = .next (finishWrite d (inputProc d (operandByte s.engine.larg) (beginStep s))) :=
  congrArg Host.Outcome.next (if_pos hd)

/-- WRITE_REG of an existing device, for every way it can end (R132). -/
theorem exec_writeReg_end {s : State} {d : DevIx} {r : RegAddr} {e : WriteEnd} {v : Byte} {rest : List Config.ReadAnswer}
    {wrest : List Config.WriteAnswer} (hd : d.val < s.nDev) (hv : operandByte s.engine.larg = v)
    (hf : e.fits s d r (.byte v)) (hr : s.env.reads = e.reads (.byte v) ++ rest) (hw : s.env.writes = e.writes ++ wrest) :
    exec (.writeReg d r) s = .next (e.finished s d r (.byte v) (e.data (.byte v)) rest wrest) := by
  rw [exec_writeReg hd, hv, wrCore_end (WriteEnd.fits_beginStep hf) hr hw, WriteEnd.finishWrite_outcome]

/-- Settles O22. -/
theorem writeBitsPatchesOrElides : Obligations.WriteBitsPatchesOrElides := by
  intro s d r e rest wrest hd hvalid q hf hr hw
  rw [exec_writeBits hd, patchRegister, if_pos hvalid, bitsCore_end (WriteEnd.fits_beginStep hf) hr hw,
    WriteEnd.finishWrite_outcome]

/-- Settles O31: both are a patch of MUTE_REG. -/
theorem muteAndUnmutePatchMuteReg : Obligations.MuteAndUnmutePatchMuteReg := by
  intro s d e rest wrest hd hw r mute unmute
  constructor
  · intro hf hr
    rw [exec_devMute hd, muteProc, State.layout_beginStep, bitsCore_end (WriteEnd.fits_beginStep hf) hr hw,
      WriteEnd.finishWrite_outcome]
  · intro hf hr
    rw [exec_devUnmute hd, unmuteProc, State.layout_beginStep, bitsCore_end (WriteEnd.fits_beginStep hf) hr hw,
      WriteEnd.finishWrite_outcome]

/-- Settles O32: WrCore ends as `e`, and the clamped value takes the place of its data. -/
theorem setAttenWritesClampedValue : Obligations.SetAttenWritesClampedValue := by
  intro s d e rest wrest hd r vc hf hr hw
  rw [exec_devSetAtten hd, attenProc, State.layout_beginStep, wrCore_end (WriteEnd.fits_beginStep hf) hr hw,
    ← WriteEnd.finishWrite_eq]
  rfl

/-- Settles O34. -/
theorem selectInputPatchesInputReg : Obligations.SelectInputPatchesInputReg := by
  intro s d e rest wrest hd r q hf hr hw
  rw [exec_devSelectInput hd]
  exact congrArg Host.Outcome.next ((congrArg (finishWrite d)
    (inputProc_end (s := beginStep s) (WriteEnd.fits_beginStep hf) hr hw)).trans (e.finishWrite_outcome ..))

/-! ## WRITE_REG -/

/-- A request on an Initialised bus device that the shadow does not answer goes to the bus (R124). -/
theorem State.onBus.reachesBus {s : State} {d : DevIx} {r : RegAddr} {v : Byte} (h : s.onBus d)
    (he : s.entry d r ≠ { val := v, valid := true }) : (Request.byte v).reachesBus s d r :=
  ⟨nofun, h.2.1, h.2.2, he⟩

/-- Settles O18: the ends `coalesced` and `elided`. -/
theorem writeRegElidesKnownValue : Obligations.WriteRegElidesKnownValue := by
  intro s d r v hd hv
  obtain ⟨hlt, hbus, hhealthy⟩ := hd
  constructor
  · intro hheld
    exact exec_writeReg_end (e := .coalesced) hlt hv ⟨hbus, hhealthy, hheld⟩ rfl rfl
  · intro rest hne hr
    have hentry : s.entry d r ≠ { val := v, valid := true } := fun h => hne (by rw [h]; exact ⟨rfl, rfl⟩)
    have hreach := State.onBus.reachesBus ⟨hlt, hbus, hhealthy⟩ hentry
    exact exec_writeReg_end (e := .elided v) hlt hv ⟨hreach, rfl⟩ hr rfl

/-- A command that completes without ELIDED reports DATA alone. -/
theorem WriteEnd.finished_of_unelided {e : WriteEnd} (h : e.isElided = false) (s : State) (d : DevIx) (r : RegAddr) (q : Request)
    (data : Byte) (rest : List Config.ReadAnswer) (wrest : List Config.WriteAnswer) :
    e.finished s d r q data rest wrest =
      (e.leave d r q s).completed (e.report.status s) (data.setWidth 32) (if e.report.ok then 0#32 else primaryBit d)
        (s.env.after rest wrest (e.trace (s.devCfg d).addr r q)) := by
  rw [WriteEnd.finished, h, if_neg Bool.false_ne_true, BitVec.zero_or]

/-- Settles O19: the end `written`. -/
theorem writeRegWritesAndVerifies : Obligations.WriteRegWritesAndVerifies := by
  intro s d r v cur rest wrest hd hv hentry hcur hr hw
  rw [exec_writeReg_end (e := .written cur) hd.1 hv ⟨hd.reachesBus hentry, hcur.symm⟩ hr hw,
    WriteEnd.finished_of_unelided rfl]
  rfl

/-- Settles O20: the ends `unread`, `unwritten`, `mismatched` and `unverified`. -/
theorem writeRegFailureInvalidatesShadow : Obligations.WriteRegFailureInvalidatesShadow := by
  intro s d r v cur rest wrest hd hv hentry hcur
  have hreach := hd.reachesBus hentry
  refine ⟨fun f hr => ?_, fun c hr hw => ?_, fun rb hrb hr hw => ?_, fun f hr hw => ?_⟩
  · rw [exec_writeReg_end (e := .unread f) hd.1 hv hreach hr rfl, WriteEnd.finished_of_unelided rfl]
    rfl
  · rw [exec_writeReg_end (e := .unwritten cur c) hd.1 hv ⟨hreach, hcur.symm⟩ hr hw, WriteEnd.finished_of_unelided rfl]
    rfl
  · rw [exec_writeReg_end (e := .mismatched cur rb) hd.1 hv ⟨hreach, hcur.symm, hrb⟩ hr hw,
      WriteEnd.finished_of_unelided rfl]
    rfl
  · rw [exec_writeReg_end (e := .unverified cur f) hd.1 hv ⟨hreach, hcur.symm⟩ hr hw, WriteEnd.finished_of_unelided rfl]
    rfl

end Sys2Proof.Machine

/-! PROOF. The reads, the gates of the register commands (spec/40_transport.md R120-R122, 41_device.md R160-R165, R175), what a register
command leaves as it is, and the pattern that keeps every bit (40_transport.md R137). -/

namespace Sys2Proof.Machine

/-! ## Reads -/

theorem exec_devLocked {s : State} {d : DevIx} (hd : d.val < s.nDev) :
    exec (.devLocked d) s = .next (finishLocked d (lockedProc d (beginStep s))) :=
  congrArg Host.Outcome.next (if_pos hd)

theorem exec_devAutomuted {s : State} {d : DevIx} (hd : d.val < s.nDev) :
    exec (.devAutomuted d) s = .next (finishAutomuted d (automutedProc d (beginStep s))) :=
  congrArg Host.Outcome.next (if_pos hd)

theorem rdCore_of_noI2C {s : State} {d : DevIx} (h : (s.devCfg d).noI2C = true) (r : RegAddr) :
    rdCore d r s = ({ rep := .success, v := s.cfg.noI2CReadValue }, s) := if_pos h

theorem rdCore_of_onBus {s : State} {d : DevIx} (hn : (s.devCfg d).noI2C = false) (hh : s.healthy d = true) (r : RegAddr) :
    rdCore d r s = rawRead d r s := by
  simp [rdCore, hn, hh]

theorem rdCore_of_gated {s : State} {d : DevIx} (hn : (s.devCfg d).noI2C = false) (hh : s.healthy d = false) (r : RegAddr) :
    rdCore d r s = ({ rep := .failure .notInit 0#3, v := 0#8 }, s) := by
  simp [rdCore, hn, hh]

/-- The commit of a status read that answers the byte `v` (R160, R161). -/
theorem finishLocked_success (d : DevIx) (v : Byte) (s : State) :
    finishLocked d (statusResultOf lockBit { rep := .success, v := v }, s) =
      finish .success { data := v, locked := v.getLsbD 0 } 0#16 0#16 s := rfl

theorem finishAutomuted_success (d : DevIx) (n : Nat) (v : Byte) (s : State) :
    finishAutomuted d (statusResultOf n { rep := .success, v := v }, s) =
      finish .success { data := v, automuted := v.getLsbD n } 0#16 0#16 s := rfl

/-- The commit of a status read that fails: READERR alone (R160, R161). -/
theorem finishLocked_failure (d : DevIx) (n : Nat) (err : CmdErr) (bc : BitVec 3) (v : Byte) (s : State) :
    finishLocked d (statusResultOf n { rep := .failure err bc, v := v }, s) =
      finish (.failure err bc) { readErr := true } (devBit d) 0#16 s := rfl

theorem finishAutomuted_failure (d : DevIx) (n : Nat) (err : CmdErr) (bc : BitVec 3) (v : Byte) (s : State) :
    finishAutomuted d (statusResultOf n { rep := .failure err bc, v := v }, s) =
      finish (.failure err bc) { readErr := true } (devBit d) 0#16 s := rfl

theorem resultWord_of_readErr : resultWord { readErr := true } = 0x200#32 := by decide

theorem resultWord_of_locked (v : Byte) (b : Bool) :
    resultWord { data := v, locked := b } = v.setWidth 32 ||| if b then 0x100#32 else 0#32 := by
  rw [resultWord_of_flags, BitVec.or_comm (v.setWidth 32)]
  simp

theorem resultWord_of_automuted (v : Byte) (b : Bool) :
    resultWord { data := v, automuted := b } = v.setWidth 32 ||| if b then 0x400#32 else 0#32 := by
  rw [resultWord_of_flags, BitVec.or_comm (v.setWidth 32)]
  simp

/-- Settles O17: the raw read takes the listed answer, and each of the three commits as it reports. -/
theorem readRegReportsItsAnswer : Obligations.ReadRegReportsItsAnswer := by
  intro s d r a rest hd hr env
  obtain ⟨hlt, hbus, hhealthy⟩ := hd
  have hread : exec (.readReg d r) s = .next (finishRead d (readResultOf a,
      (beginStep s).went rest s.env.writes [.busRd (s.devCfg d).addr r a])) := by
    rw [exec_readReg hlt, rdCore_of_onBus (s := beginStep s) hbus hhealthy, rawRead_went (s := beginStep s) hr]
    rfl
  rw [hread]
  refine ⟨?_, ?_, ?_⟩
  · rintro b rfl
    rw [finishRead, finish_went, failWord_failBit, resultWord_of_data]
    rfl
  · rintro c rfl
    rw [finishRead, finish_went, failWord_failBit, resultWord_of_data]
    rfl
  · rintro rfl
    rw [finishRead, finish_went, failWord_failBit, resultWord_of_data]
    rfl

/-! ## The gates -/

/-- Settles O15: the reads by their gate, the writes by the end `gated`. -/
theorem uninitialisedDeviceGivesNotInit : Obligations.UninitialisedDeviceGivesNotInit := by
  intro s d r hd hn hh done
  have gated : ∀ (q : Request) (x : RegAddr) (v : Byte),
      Host.Outcome.next (WriteEnd.gated.finished s d x q v s.env.reads s.env.writes) = done (v.setWidth 32) := fun q x v => by
    rw [WriteEnd.finished_of_unelided rfl]
    rfl
  refine ⟨?_, ?_, fun hvalid => ?_, ?_, ?_, ?_, ?_, ?_, fun hsel => ?_⟩
  · rw [exec_readReg hd, rdCore_of_gated (s := beginStep s) hn hh, finishRead, finish_beginStep, failWord_failBit,
      resultWord_of_data]
    rfl
  · exact (exec_writeReg_end (e := .gated) hd rfl ⟨nofun, hn, hh⟩ rfl rfl).trans (gated ..)
  · exact (writeBitsPatchesOrElides s d r .gated _ _ hd hvalid ⟨nofun, hn, hh⟩ rfl rfl).trans (gated ..)
  · rw [exec_devLocked hd, lockedProc, rdCore_of_gated (s := beginStep s) hn hh, finishLocked_failure, finish_beginStep,
      failWord_devBit, resultWord_of_readErr]
    rfl
  · rw [exec_devAutomuted hd, automutedProc, rdCore_of_gated (s := beginStep s) hn hh, finishAutomuted_failure, finish_beginStep,
      failWord_devBit, resultWord_of_readErr]
    rfl
  · exact ((muteAndUnmutePatchMuteReg s d .gated _ _ hd rfl).1 ⟨nofun, hn, hh⟩ rfl).trans (gated ..)
  · exact ((muteAndUnmutePatchMuteReg s d .gated _ _ hd rfl).2 ⟨nofun, hn, hh⟩ rfl).trans (gated ..)
  · exact (setAttenWritesClampedValue s d .gated _ _ hd ⟨nofun, hn, hh⟩ rfl rfl).trans (gated ..)
  · refine (selectInputPatchesInputReg s d .gated _ _ hd ⟨?_, hn, hh⟩ rfl rfl).trans (gated ..)
    simp [State.inputRequest, hsel]

/-- InitProc of a noI2C device, without the bus (R150, R280). -/
theorem initProc_of_noI2C {s : State} {d : DevIx} (h : (s.devCfg d).noI2C = true) :
    initProc d s = ({ rep := .success, idb := 0#8, ct := s.cfg.noI2CChipType },
      ((s.setPhase d .initialised).setChipType d s.cfg.noI2CChipType).dropShadowAll d) := if_pos h

theorem resultWord_of_chipType (t : BitVec 2) : resultWord { chipType := t } = t.setWidth 32 <<< 12 := by
  revert t; decide

/-- DEV_INIT of an existing noI2C device (R151, R280). -/
theorem exec_devInit_of_noI2C {s : State} {d : DevIx} (hd : d.val < s.nDev) (h : (s.devCfg d).noI2C = true) :
    exec (.devInit d) s = .next (finish .success { chipType := s.cfg.noI2CChipType } 0#16 0#16
      ((((beginStep s).setPhase d .initialised).setChipType d s.cfg.noI2CChipType).dropShadowAll d)) := by
  have hinit := congrArg (finishInit d) (initProc_of_noI2C (s := beginStep s) h)
  exact congrArg Host.Outcome.next ((if_pos hd).trans hinit)

/-- Settles O16: the reads by their bypass, the writes by the end `bypassed`, DEV_INIT by its own. -/
theorem noI2CDeviceBypassesTheBus : Obligations.NoI2CDeviceBypassesTheBus := by
  intro s d r hd hn done v
  have bypassed : ∀ (q : Request) (x : RegAddr) (b : Byte),
      Host.Outcome.next (WriteEnd.bypassed.finished s d x q b s.env.reads s.env.writes) =
        done (0x800#32 ||| b.setWidth 32) := fun _ _ _ => rfl
  have silent : ∀ (q : Request) (x : RegAddr),
      Host.Outcome.next (WriteEnd.bypassed.finished s d x q 0#8 s.env.reads s.env.writes) = done 0x800#32 := fun q x =>
    (bypassed q x 0#8).trans (congrArg done (by decide))
  refine ⟨?_, ?_, fun hvalid => ?_, ?_, ?_, ?_, ?_, ?_, fun hsel => ?_, ?_⟩
  · rw [exec_readReg hd, rdCore_of_noI2C (s := beginStep s) hn, finishRead, finish_beginStep, failWord_failBit,
      resultWord_of_data]
    rfl
  · exact (exec_writeReg_end (e := .bypassed) hd rfl ⟨nofun, hn⟩ rfl rfl).trans (silent ..)
  · exact (writeBitsPatchesOrElides s d r .bypassed _ _ hd hvalid ⟨nofun, hn⟩ rfl rfl).trans (silent ..)
  · rw [exec_devLocked hd, lockedProc, rdCore_of_noI2C (s := beginStep s) hn, finishLocked_success, finish_beginStep,
      (failWord_eq_zero _).2 rfl, resultWord_of_locked]
    rfl
  · rw [exec_devAutomuted hd, automutedProc, rdCore_of_noI2C (s := beginStep s) hn, finishAutomuted_success,
      finish_beginStep, (failWord_eq_zero _).2 rfl, resultWord_of_automuted]
    rfl
  · exact ((muteAndUnmutePatchMuteReg s d .bypassed _ _ hd rfl).1 ⟨nofun, hn⟩ rfl).trans (silent ..)
  · exact ((muteAndUnmutePatchMuteReg s d .bypassed _ _ hd rfl).2 ⟨nofun, hn⟩ rfl).trans (silent ..)
  · exact (setAttenWritesClampedValue s d .bypassed _ _ hd ⟨nofun, hn⟩ rfl rfl).trans (bypassed ..)
  · refine (selectInputPatchesInputReg s d .bypassed _ _ hd ⟨?_, hn⟩ rfl rfl).trans (silent ..)
    simp [State.inputRequest, hsel]
  · refine ⟨_, exec_devInit_of_noI2C hd hn, rfl, resultWord_of_chipType _, (failWord_eq_zero _).2 rfl, rfl, ?_, ?_,
      fun q => ?_, fun e he => ?_⟩
    · simp
    · simp
    · exact congrArg ShadowEntry.valid (State.entry_dropShadowAll _ d q)
    · have hframe := (initProc_spec d (beginStep s)).frame.others e he
      rwa [initProc_of_noI2C (s := beginStep s) hn] at hframe

/-- Settles O35: the end `rejected`, which asks nothing of the device. -/
theorem selectorOutOfRangeIsBadArg : Obligations.SelectorOutOfRangeIsBadArg := by
  intro s d hd hsel
  have hrejected : s.inputRequest d (operandByte s.engine.larg) = .noInput := by simp [State.inputRequest, hsel]
  refine (selectInputPatchesInputReg s d .rejected _ _ hd hrejected rfl rfl).trans (congrArg Host.Outcome.next ?_)
  rw [WriteEnd.finished_of_unelided rfl]
  rfl

/-! ## The frame -/

/-- `t` is what a command on register `r` of device `d` leaves: reads and writes of that register alone, and a commit. -/
def RegisterRun (s : State) (i : Instr) (d : DevIx) (r : RegAddr) (t : State) : Prop :=
  ∃ (rep : Report) (res : CmdResult) (pf : DevMask) (u : State),
    RegFrame d r (beginStep s) u ∧ (onlyReads i = true → u.devs = s.devs) ∧ t = finish rep res pf 0#16 u

theorem registerRun_onDevice {s : State} {i : Instr} {d : DevIx} {r : RegAddr} {body : State → State}
    (h : RegisterRun s i d r (body (beginStep s))) : RegisterRun s i d r (onDevice d body s) := by
  unfold onDevice
  split
  · exact h
  · exact ⟨_, _, _, _, .refl d r _, fun _ => rfl, rfl⟩

theorem WriteSpec.registerRun {s : State} {i : Instr} {d : DevIx} {r : RegAddr} {n : Nat} {x : WriteResult × State}
    (h : WriteSpec d r n (beginStep s) x) (hi : onlyReads i = false) : RegisterRun s i d r (finishWrite d x) :=
  ⟨_, _, _, _, h.frame, fun ho => absurd (hi.symm.trans ho) nofun, rfl⟩

/-- A register-level command is a run on the register it addresses (R130-R176). -/
theorem registerRun_of_exec {i : Instr} {s t : State} {d : DevIx} {r : RegAddr} (ht : targetReg s i = some (d, r))
    (h : exec i s = .next t) : RegisterRun s i d r t := by
  cases i <;> cases ht <;> cases h <;> refine registerRun_onDevice ?_
  case readReg => exact ⟨_, _, _, _, rdCore_regFrame .., fun _ => devs_rdCore .., rfl⟩
  case writeReg => exact (wrCore_spec ..).registerRun rfl
  case writeBits =>
    unfold patchRegister
    split
    · exact (bitsCore_spec ..).registerRun rfl
    · exact ⟨_, _, _, _, .refl .., fun _ => rfl, rfl⟩
  case devLocked => exact ⟨_, _, _, _, lockedProc_regFrame d (beginStep s), fun _ => devs_lockedProc d (beginStep s), rfl⟩
  case devAutomuted => exact ⟨_, _, _, _, automutedProc_regFrame d (beginStep s), fun _ => devs_automutedProc d (beginStep s), rfl⟩
  case devMute => exact (muteProc_spec ..).registerRun rfl
  case devUnmute => exact (unmuteProc_spec ..).registerRun rfl
  case devSetAtten => exact (attenProc_spec ..).registerRun rfl
  case devSelectInput => exact (inputProc_spec ..).registerRun rfl

/-- Settles O13. -/
theorem registerCommandFrame : Obligations.RegisterCommandFrame := by
  intro i s t d r ht h
  have hcommand := (commits_of_exec h).commandFrame
  obtain ⟨rep, res, pf, u, hframe, hreads, rfl⟩ := registerRun_of_exec ht h
  refine ⟨hcommand, hframe.ctl, ?_, hframe.others, hframe.phase, hframe.chipType, hframe.entries, hreads⟩
  simp [hframe.host, hframe.engine]

/-! ## The pattern that keeps every bit -/

theorem patTouch_keep : patTouch 0xAAAA#16 = 0#8 := by decide

/-- A pattern of eight `*` changes nothing (R101). -/
theorem overlay_keep (cur : Byte) : overlay cur 0xAAAA#16 = cur := by
  have hval : patVal 0xAAAA#16 = 0#8 := by decide
  rw [overlay, patTouch_keep, hval, BitVec.or_zero, BitVec.not_zero, BitVec.and_allOnes]

/-- A patch with it ends with its read (R125). -/
theorem patchUnlessEqual_keep (d : DevIx) (r : RegAddr) (x : ReadResult × State) :
    (patchUnlessEqual d r 0xAAAA#16 x).2 = x.2 := by
  rcases patchUnlessEqual_cases d r 0xAAAA#16 x with ⟨_, _, htouch, _⟩ | ⟨_, _, _, h⟩ | ⟨_, hne, _⟩ | ⟨_, h⟩
  · exact absurd patTouch_keep htouch
  · rw [h]
  · exact absurd (overlay_keep _) hne
  · rw [h]

theorem bitsCore_keep (d : DevIx) (r : RegAddr) (s : State) :
    (bitsCore d r 0xAAAA#16 s).2 = s ∨ (bitsCore d r 0xAAAA#16 s).2 = (rawRead d r s).2 := by
  rcases bitsCore_cases d r 0xAAAA#16 s with ⟨_, h⟩ | ⟨_, _, h⟩ | ⟨_, _, h⟩ <;> rw [h]
  · exact .inl rfl
  · exact .inr (patchUnlessEqual_keep ..)
  · exact .inl rfl

/-- Settles O24: the trace is empty, or the one read. -/
theorem allKeepPatternNeverWrites : Obligations.AllKeepPatternNeverWrites := by
  intro s t d r hp h a ha
  have hvalid : patValid 0xAAAA#16 = true := by decide
  by_cases hd : d.val < s.nDev
  · rw [exec_writeBits hd, hp, patchRegister, if_pos hvalid] at h
    cases h
    rw [finishWrite, finish_env] at ha
    rcases bitsCore_keep d r (beginStep s) with hk | hk <;> rw [hk] at ha
    · cases ha
    · obtain ⟨x, _, htrace⟩ := rawRead_trace d r (beginStep s)
      rw [htrace] at ha
      cases List.mem_singleton.mp ha
      rfl
  · rw [absentDeviceCompletesBadDev (.writeBits d r) d s rfl (Nat.not_lt.mp hd)] at h
    cases h
    cases ha

end Sys2Proof.Machine

/-! PROOF. The broadcast commands (spec/42_controller.md R230-R236) and the sampling POLL (R200, R210-R216). -/

namespace Sys2Proof.Machine

/-! ## Broadcast commands -/

theorem bitsCore_of_noI2C {s : State} {d : DevIx} (h : (s.devCfg d).noI2C = true) (r : RegAddr) (p : Pattern) :
    bitsCore d r p s = ({ rep := .success, elided := true, data := 0#8 }, s) := if_pos h

theorem wrCore_of_noI2C {s : State} {d : DevIx} (h : (s.devCfg d).noI2C = true) (r : RegAddr) (v : Byte) :
    wrCore d r v s = ({ rep := .success, elided := true, data := 0#8 }, s) := if_pos h

/-- What a broadcast command forwards to each device (R230-R236): a loop body, which a noI2C device does not fail but for a selector that
is out of range (R122). -/
structure BroadcastBody (i : Instr) (sel : Byte) (f : DevIx → State → Report × State) : Prop where
  body : ∀ d s, BodySpec d 3 s (f d s)
  bypass : ∀ d s, (s.devCfg d).noI2C = true → (i = .selectInputAll → sel.toNat < (s.layout d).inputPats.length) →
    (f d s).1.ok = true

/-- A broadcast command is a loop over the devices and its commit (R241, R254). -/
theorem exec_broadcast {i : Instr} {s : State} (h : isBroadcast i = true) :
    ∃ f, BroadcastBody i (operandByte s.engine.larg) f ∧
      exec i s = .next (finishAll (forEach f s.devices (beginStep s))) := by
  cases i <;> cases h
  case setAttenAll =>
    refine ⟨_, ⟨attenProc_body (operandByte s.engine.larg), fun d u hn _ => ?_⟩, rfl⟩
    rw [attenEach.attenProc', attenProc, wrCore_of_noI2C hn]
    rfl
  case muteAll =>
    refine ⟨_, ⟨muteProc_body, fun d u hn _ => ?_⟩, rfl⟩
    rw [muteEach.muteProc', muteProc, bitsCore_of_noI2C hn]
    rfl
  case unmuteAll =>
    refine ⟨_, ⟨unmuteProc_body, fun d u hn _ => ?_⟩, rfl⟩
    rw [unmuteEach.unmuteProc', unmuteProc, bitsCore_of_noI2C hn]
    rfl
  case selectInputAll =>
    refine ⟨_, ⟨inputProc_body (operandByte s.engine.larg), fun d u hn hsel => ?_⟩, rfl⟩
    rw [inputEach.inputProc', inputProc, if_pos (hsel rfl), bitsCore_of_noI2C hn]
    rfl

/-- The commit of a broadcast: its mask, and DEV_FAIL unless the mask is 0 (R254). -/
theorem finishAll_eq (x : DevMask × State) :
    finishAll x = finish (if x.1 = 0#16 then .success else .failure .devFail 0#3) {} x.1 0#16 x.2 := by
  by_cases h : x.1 = 0#16 <;> simp [finishAll, raiseCmdError, h]

/-- The bit of a noI2C device in the mask of a broadcast (R122). -/
theorem BroadcastBody.mask_of_noI2C {s : State} {i : Instr} {f : DevIx → State → Report × State}
    (hf : BroadcastBody i (operandByte s.engine.larg) f) {d : DevIx} (hn : (s.devCfg d).noI2C = true)
    (hsel : i = .selectInputAll → (operandByte s.engine.larg).toNat < (s.layout d).inputPats.length) :
    (forEach f s.devices (beginStep s)).1.getLsbD d.val = false := by
  by_cases hd : d ∈ s.devices
  · obtain ⟨u, hframe, _, hbit, _⟩ := forEach_reaches hf.body s.devices (beginStep s) s.devices_nodup d hd
    have hok := hf.bypass d u (by rwa [State.devCfg_congr hframe.board])
      (by rwa [State.layout_congr hframe.board])
    rw [hbit, hok]
    rfl
  · by_contra hbit
    obtain ⟨e, he, hval⟩ := (forEach_spec hf.body s.devices (beginStep s)).mask d.val (by simpa using hbit)
    exact hd (Fin.ext hval ▸ he)

/-- DEV_FAIL_MASK with PRIMARY bits alone (R37). -/
theorem getLsbD_failWord_primary (m : DevMask) (i : Nat) : (failWord m 0#16).getLsbD i = m.getLsbD i := by
  rw [getLsbD_failWord]
  split
  · rfl
  · next h => rw [BitVec.getLsbD_of_ge m i (by omega)]; simp

/-- Settles O45: the loop keeps `LoopFrame`, and its mask names devices it listed. -/
theorem broadcastReportsFailedDevices : Obligations.BroadcastReportsFailedDevices := by
  intro i s hi
  obtain ⟨f, hf, hexec⟩ := exec_broadcast (s := s) hi
  rw [finishAll_eq] at hexec
  have hloop := forEach_spec hf.body s.devices (beginStep s)
  have hbypass := fun d => hf.mask_of_noI2C (d := d)
  generalize forEach f s.devices (beginStep s) = x at hexec hloop hbypass
  have hframe := hloop.frame
  obtain ⟨acts, htrace, hbus⟩ := hframe.trace
  refine ⟨_, hexec, (commits_of_exec hexec).commandFrame, resultWord_of_data 0#8, ?_, fun n hn => ?_, fun d hn hsel => ?_,
    hframe.ctl, ?_, fun a ha => ?_, fun d => ⟨hframe.phases d, hframe.chipTypes d, fun hd => hloop.others d fun hmem => ?_⟩⟩
  · by_cases hm : x.1 = 0#16
    · simp [hm, failWord_eq_zero, okStatus, Report.success, hframe.status]
    · simp [hm, failWord_eq_zero, errStatus, Report.failure, hframe.status]
  · rw [finish_host, getLsbD_failWord_primary]
    by_contra hbit
    exact absurd (MaskWithin.of_devices hloop.mask n (by simpa using hbit)) (Nat.not_lt.mpr hn)
  · rw [finish_host, getLsbD_failWord_primary]
    exact hbypass d hn hsel
  · simp [hframe.host, hframe.engine]
  · rw [finish_env, htrace] at ha
    exact hbus a ha
  · exact absurd ((s.mem_devices d).1 hmem) (Nat.not_lt.mpr hd)

/-! ## The passes of a sample -/

/-- The automute pass of a sample and its edge detector (R211, R212): the failed reads, and the state. -/
def automutePass (s : State) : DevMask × State :=
  ((automuteAggregate s.devices s).1, automuteEdge (automuteAggregate s.devices s).2.1 (automuteAggregate s.devices s).2.2)

/-- The lock pass of a sample and its edge detector (R214, R215). -/
def lockPass (s : State) : DevMask × State :=
  ((lockAggregate s.devices s).1, lockEdge (lockAggregate s.devices s).2.1 (lockAggregate s.devices s).2.2)

/-- The timestamp of a sample (R210). -/
def State.stampPoll (s : State) : State := { s with ctl := { s.ctl with lastPollTime := s.now } }

/-- A sample is its timestamp and its two passes (R210). -/
theorem sample_eq (s : State) : sample s =
    ((automutePass s.stampPoll).1, (lockPass (automutePass s.stampPoll).2).1, (lockPass (automutePass s.stampPoll).2).2) := rfl

/-- The devices that satisfy `p`, as a mask, at an existing device. -/
theorem State.any_devices (s : State) (p : DevIx → Bool) {d : DevIx} (hd : d.val < s.nDev) :
    (s.devices.any fun e => p e && decide (d.val = e.val)) = p d := by
  rw [Bool.eq_iff_iff, List.any_eq_true]
  constructor
  · rintro ⟨e, _, he⟩
    rw [Bool.and_eq_true, decide_eq_true_eq] at he
    exact Fin.ext he.2 ▸ he.1
  · intro hp
    exact ⟨d, (s.mem_devices d).2 hd, by simp [hp]⟩

/-- The automute pass with its answers listed (R211, R212). -/
theorem automutePass_listed {s : State} {a : DevIx → Config.ReadAnswer} {rest : List Config.ReadAnswer}
    (hr : s.env.reads = (s.busOnly s.devices).map a ++ rest) (hh : ∀ d ∈ s.devices, s.healthy d = true) :
    (automutePass s).2.env = { s.env with
        reads := rest
        trace := s.env.trace ++ ((s.busOnly s.devices).map fun d => .busRd (s.devCfg d).addr (s.layout d).automuteReg (a d)) ++
          if (automutePass s).2.ctl.automuted = s.ctl.automuted then []
          else [.ev .automuteChanged (s.host.eventEnable.getLsbD 9)] } ∧
      (automutePass s).2.ctl = { s.ctl with automuted := (automutePass s).2.ctl.automuted } ∧
      ((automutePass s).2.ctl.automuted = true ↔ ∀ d : DevIx, d.val < s.nDev →
        ∃ b, s.statusByte d (a d) = some b ∧ b.getLsbD (s.layout d).automuteBit.val = true) ∧
      ∀ d : DevIx, d.val < s.nDev → ((automutePass s).1.getLsbD d.val = true ↔ s.statusByte d (a d) = none) := by
  obtain ⟨hstate, hagg, hmask⟩ := automuteAggregate_listed a s.devices s rest hr hh
  have hctl : (automutePass s).2.ctl = { s.ctl with automuted := (automuteAggregate s.devices s).2.1 } := by
    rw [automutePass, (automuteEdge_keeps _ _).2.2, hstate]
    rfl
  refine ⟨?_, by rw [hctl], ?_, fun d hd => ?_⟩
  · rw [hctl, automutePass, automuteEdge_env, hstate]
    rfl
  · simp only [hctl, hagg, List.all_eq_true, State.mem_devices, statusBit_eq_true]
  · rw [automutePass, hmask, s.any_devices _ hd, Option.isNone_iff_eq_none]

/-- The lock pass with its answers listed (R214, R215). -/
theorem lockPass_listed {s : State} {a : DevIx → Config.ReadAnswer} {rest : List Config.ReadAnswer}
    (hr : s.env.reads = (s.busOnly s.devices).map a ++ rest) (hh : ∀ d ∈ s.devices, s.healthy d = true) :
    (lockPass s).2.env = { s.env with
        reads := rest
        trace := s.env.trace ++ ((s.busOnly s.devices).map fun d => .busRd (s.devCfg d).addr (s.layout d).statusReg (a d)) ++
          if (lockPass s).2.ctl.prevLock = s.ctl.prevLock then []
          else [.ev (lockEvent s.nDev (lockPass s).2.ctl.prevLock)
            (s.host.eventEnable.getLsbD (eventNumber (lockEvent s.nDev (lockPass s).2.ctl.prevLock)))] } ∧
      (lockPass s).2.ctl = { s.ctl with prevLock := (lockPass s).2.ctl.prevLock } ∧
      (∀ i, 2 * s.nDev ≤ i → (lockPass s).2.ctl.prevLock.getLsbD i = false) ∧
      ∀ d : DevIx, d.val < s.nDev →
        ((lockPass s).2.ctl.prevLock.getLsbD d.val = true ↔
          ∃ b, s.statusByte d (a d) = some b ∧ b.getLsbD lockBit = true) ∧
        ((lockPass s).2.ctl.prevLock.getLsbD (d.val + s.nDev) = true ↔ s.statusByte d (a d) = none) ∧
        ((lockPass s).1.getLsbD d.val = true ↔ s.statusByte d (a d) = none) := by
  obtain ⟨hstate, hagg, hmask⟩ := lockAggregate_listed a s.devices s rest hr hh fun d => (s.mem_devices d).1
  have hctl : (lockPass s).2.ctl = { s.ctl with prevLock := (lockAggregate s.devices s).2.1 } := by
    rw [lockPass, (lockEdge_keeps _ _).2.2, hstate]
    rfl
  have hbit : ∀ i, (lockAggregate s.devices s).2.1.getLsbD i = true ↔ ∃ e : DevIx, e.val < s.nDev ∧
      (statusBit lockBit (s.statusByte e (a e)) = true ∧ i = e.val ∨ s.statusByte e (a e) = none ∧ i = e.val + s.nDev) :=
    fun i => by simp [hagg, State.mem_devices]
  refine ⟨?_, by rw [hctl], fun i hi => ?_, fun d hd => ⟨?_, ?_, ?_⟩⟩
  · rw [hctl, lockPass, lockEdge_env, hstate]
    rfl
  · rw [hctl]
    by_contra hb
    obtain ⟨e, he, ⟨_, h⟩ | ⟨_, h⟩⟩ := (hbit i).1 (by simpa using hb) <;> omega
  · rw [hctl, hbit, ← statusBit_eq_true]
    constructor
    · rintro ⟨e, he, ⟨hb, h⟩ | ⟨_, h⟩⟩
      · exact Fin.ext h ▸ hb
      · omega
    · exact fun hb => ⟨d, hd, .inl ⟨hb, rfl⟩⟩
  · rw [hctl, hbit]
    constructor
    · rintro ⟨e, he, ⟨_, h⟩ | ⟨hb, h⟩⟩
      · omega
      · have hde : d = e := Fin.ext (by omega)
        exact hde ▸ hb
    · exact fun hb => ⟨d, hd, .inr ⟨hb, rfl⟩⟩
  · rw [lockPass, hmask, s.any_devices _ hd, Option.isNone_iff_eq_none]

/-! ## The sampling POLL -/

/-- POLL with a sample due, every device Initialised (R200). -/
theorem exec_poll_sampling {s : State} (hpower : s.ctl.power = true) (hinit : s.ctl.initialised = true)
    (hall : s.initSuccess = true) (hdue : s.cfg.sampleInterval.toNat ≤ (s.now - s.ctl.lastPollTime).toNat) :
    exec .poll s = .next (finishPoll 2#2 (sample (beginStep s))) := by
  have hgoal : pollStep (beginStep s) = finishPoll 2#2 (sample (beginStep s)) := by
    have hdue' : elapsed s.now s.ctl.lastPollTime s.cfg.sampleInterval = true := decide_eq_true hdue
    have hall' : (beginStep s).initSuccess = true := hall
    simp [pollStep, hpower, hinit, hall', hdue']
  exact congrArg Host.Outcome.next hgoal

section
variable (action : BitVec 2) (pf sf : DevMask) (u : State)

theorem finishPoll_ctl : (finishPoll action (pf, sf, u)).ctl = u.ctl := rfl

theorem finishPoll_env : (finishPoll action (pf, sf, u)).env = u.env := rfl

theorem finishPoll_status : (finishPoll action (pf, sf, u)).status = Report.success.status u := rfl

theorem finishPoll_primary (d : DevIx) :
    (finishPoll action (pf, sf, u)).host.failMask.getLsbD d.val = pf.getLsbD d.val :=
  (getLsbD_failWord pf sf d.val).trans (if_pos d.isLt)

theorem finishPoll_secondary (d : DevIx) :
    (finishPoll action (pf, sf, u)).host.failMask.getLsbD (16 + d.val) = sf.getLsbD d.val := by
  rw [finishPoll, finish_host, getLsbD_failWord, if_neg (by omega), Nat.add_sub_cancel_left]

end

theorem resultWord_of_sample : resultWord { pollAction := 2#2 } = 0x00020000#32 := by decide

theorem automutePass_board (s : State) : (automutePass s).2.board = s.board :=
  (automuteEdge_eng _ _).board.trans (automuteAggregate_spec _ _).frame.board

theorem automutePass_devs (s : State) : (automutePass s).2.devs = s.devs :=
  (automuteEdge_keeps _ _).1.trans (automuteAggregate_spec _ _).devs

theorem automutePass_host (s : State) : (automutePass s).2.host = s.host :=
  (automuteEdge_eng _ _).host.trans (automuteAggregate_spec _ _).frame.host

theorem lockPass_devs (s : State) : (lockPass s).2.devs = s.devs :=
  (lockEdge_keeps _ _).1.trans (lockAggregate_spec _ _).devs

/-- Settles O40: a timestamp, the automute pass and the lock pass, each with its answers listed. -/
theorem pollSamplesEveryDevice : Obligations.PollSamplesEveryDevice := by
  intro s am lk rest hpower hinit hall hdue onBus hr
  have hexec := exec_poll_sampling hpower hinit (s.initSuccess_iff.2 fun d hd => (s.healthy_iff d).1 (hall d hd)) hdue
  have hhealthy : ∀ d ∈ s.devices, s.healthy d = true := fun d hd => hall d ((s.mem_devices d).1 hd)
  rw [sample_eq] at hexec
  obtain ⟨henv, hctl, hmuted, hmask⟩ := automutePass_listed (s := (beginStep s).stampPoll) hr hhealthy
  have hboard : (automutePass (beginStep s).stampPoll).2.board = s.board := automutePass_board _
  have hdevs : (automutePass (beginStep s).stampPoll).2.devs = s.devs := automutePass_devs _
  have hhost : (automutePass (beginStep s).stampPoll).2.host = s.host := automutePass_host _
  generalize automutePass (beginStep s).stampPoll = x at hexec henv hctl hmuted hmask hboard hdevs hhost
  have hlock := lockPass_listed (s := x.2) (a := lk) (rest := rest)
    (by rw [henv, State.devices_congr hboard, State.busOnly_congr hboard]; rfl)
    (fun d hd => by
      rw [State.devices_congr hboard] at hd
      rw [State.healthy, State.dev_congr hdevs]
      exact hhealthy d hd)
  have hdevs' := (lockPass_devs x.2).trans hdevs
  simp only [State.devices_congr hboard, State.busOnly_congr hboard, State.devCfg_congr hboard, State.layout_congr hboard,
    State.nDev_congr hboard, State.statusByte_congr hboard, hhost] at hlock
  generalize lockPass x.2 = y at hexec hlock hdevs'
  obtain ⟨henv', hctl', habove, hlock⟩ := hlock
  have hcommand := (commits_of_exec hexec).commandFrame
  have hauto : y.2.ctl.automuted = x.2.ctl.automuted := by rw [hctl']
  have hprev : x.2.ctl.prevLock = s.ctl.prevLock := by rw [hctl]; rfl
  refine ⟨_, hexec, ?_, ?_, ?_, hdevs', hcommand, ?_, ?_, habove, fun d hd => ?_⟩
  · rw [finishPoll_status, Report.status, show y.2.status.overrun = s.status.overrun from hcommand.overrun]
    rfl
  · exact resultWord_of_sample
  · simp only [finishPoll_ctl, hauto]
    rw [hctl', hctl]
    rfl
  · have hpolled : x.2.env.trace = (onBus.map fun d => .busRd (s.devCfg d).addr (s.layout d).automuteReg (am d)) ++
        if x.2.ctl.automuted = s.ctl.automuted then []
        else [.ev .automuteChanged (s.host.eventEnable.getLsbD 9)] := congrArg Env.trace henv
    simp only [finishPoll_env, finishPoll_ctl, hauto, henv', hprev, hpolled]
    rw [henv]
    rfl
  · simp only [finishPoll_ctl, hauto]
    exact hmuted
  · obtain ⟨hbit, hfail, hmask'⟩ := hlock d hd
    rw [finishPoll_primary, finishPoll_secondary]
    exact ⟨hbit, hfail, hmask d hd, hmask'⟩

end Sys2Proof.Machine

/-! PROOF. DEV_INIT, DEV_RESET and the status reads of an existing device (spec/41_device.md R150-R166). -/

namespace Sys2Proof.Machine

/-! ## The commit of procedures on one device -/

theorem ProcFrame.finish_status {s u : State} (h : ProcFrame (beginStep s) u) (rep : Report) (res : CmdResult) (pf sf : DevMask) :
    (finish rep res pf sf u).status = rep.status s := by
  rw [Machine.finish_status, h.status]
  rfl

/-- No procedure fires an event, so the commit makes none pending (R67, R260). -/
theorem ProcFrame.finish_host {s u : State} (h : ProcFrame (beginStep s) u) (rep : Report) (res : CmdResult) (pf sf : DevMask) :
    (finish rep res pf sf u).host = { s.host with result := resultWord res, failMask := failWord pf sf } := by
  rw [Machine.finish_host, h.host, h.engine]
  simp

/-! ## DEV_RESET -/

theorem exec_devReset {s : State} {d : DevIx} (hd : d.val < s.nDev) :
    exec (.devReset d) s = .next (finish .success {} 0#16 0#16 (resetProc d (beginStep s))) :=
  congrArg Host.Outcome.next (if_pos hd)

/-- Settles O29. -/
theorem devResetForcesUninitialised : Obligations.DevResetForcesUninitialised := by
  intro s d hd
  obtain ⟨hframe, hphase, hchip, hshadow, _, henv⟩ := resetProc_spec d (beginStep s)
  have hexec := exec_devReset hd
  exact ⟨_, hexec, hframe.finish_status .., hframe.finish_host .., hframe.ctl, (commits_of_exec hexec).commandFrame, henv, hphase,
    hchip, hshadow, hframe.others⟩

/-! ## DEV_INIT -/

theorem exec_devInit {s : State} {d : DevIx} (hd : d.val < s.nDev) :
    exec (.devInit d) s = .next (finishInit d (initProc d (beginStep s))) :=
  congrArg Host.Outcome.next (if_pos hd)

/-- A result of DATA and CHIPTYPE (R25). -/
theorem resultWord_of_init (v : Byte) (c : BitVec 2) :
    resultWord { data := v, chipType := c } = v.setWidth 32 ||| c.setWidth 32 <<< 12 := by
  rw [← resultWord_of_data, ← resultWord_of_chipType]
  refine BitVec.eq_of_getLsbD_eq fun i _ => ?_
  rw [BitVec.getLsbD_or, getLsbD_resultWord, getLsbD_resultWord, getLsbD_resultWord]
  split_ifs <;> simp

/-- The entries of a device are those of its slot. -/
theorem State.entry_congr {s t : State} {d : DevIx} (h : t.dev d = s.dev d) (q : RegAddr) : t.entry d q = s.entry d q :=
  congrArg (fun x : Device => x.entry q) h

/-- `t` is what DEV_INIT of device `d` leaves where its InitProc ended as `x` (R150, R151). -/
structure DevInitRun (d : DevIx) (s : State) (x : InitResult × State) (t : State) : Prop where
  exec : exec (.devInit d) s = .next t
  status : t.status = x.1.rep.status s
  host : t.host = { s.host with
    result := x.1.idb.setWidth 32 ||| x.1.ct.setWidth 32 <<< 12, failMask := if x.1.rep.ok then 0#32 else primaryBit d }
  ctl : t.ctl = s.ctl
  frame : CommandFrame s t
  env : t.env = x.2.env
  devs : t.devs = x.2.devs
  initialised : x.1.rep.ok = true → (t.dev d).phase = .initialised
  rolledBack : x.1.rep.ok = false → (t.dev d).phase = .uninitialised ∧ ∀ q, (t.entry d q).valid = false
  others : ∀ e, e ≠ d → t.dev e = s.dev e

theorem devInitRun_of_initProc {s : State} {d : DevIx} {x : InitResult × State} (hd : d.val < s.nDev)
    (hinit : initProc d (beginStep s) = x) : ∃ t, DevInitRun d s x t := by
  have hexec := exec_devInit hd
  obtain ⟨hframe, _, _, houtcome, _, _⟩ := initProc_spec d (beginStep s)
  rw [hinit] at hexec hframe houtcome
  have hhost := hframe.finish_host x.1.rep { data := x.1.idb, chipType := x.1.ct } (failBit x.1.rep.ok d) 0#16
  rw [resultWord_of_init, failWord_failBit] at hhost
  refine ⟨_, hexec, hframe.finish_status .., hhost, hframe.ctl, (commits_of_exec hexec).commandFrame, rfl, rfl,
    fun hok => ?_, fun hok => ?_, hframe.others⟩
  · rcases houtcome with ⟨_, hphase⟩ | ⟨hfail, _⟩
    · exact hphase
    · cases hfail.symm.trans hok
  · rcases houtcome with ⟨hsuccess, _⟩ | ⟨_, hback⟩
    · cases hsuccess.symm.trans hok
    · exact hback

/-- Settles O28. -/
theorem devInitSucceedsOrRollsBack : Obligations.DevInitSucceedsOrRollsBack := by
  intro s t d hd h
  obtain ⟨u, hrun⟩ := devInitRun_of_initProc hd rfl
  cases hrun.exec.symm.trans h
  rw [hrun.status, hrun.host]
  cases hok : (initProc d (beginStep s)).1.rep.ok with
  | true => exact .inl ⟨hok, hrun.initialised hok, rfl⟩
  | false =>
    obtain ⟨hphase, hshadow⟩ := hrun.rolledBack hok
    exact .inr ⟨hok, hphase, hshadow, rfl⟩

/-- Settles O27: InitProc ends with its identification read. -/
theorem devInitFailsFastOnUnknownId : Obligations.DevInitFailsFastOnUnknownId := by
  intro s d rest hd hn failsFast
  constructor
  · intro id hid hr
    obtain ⟨t, hrun⟩ := devInitRun_of_initProc hd (initProc_unknown (s := beginStep s) hn hid hr)
    obtain ⟨hphase, hshadow⟩ := hrun.rolledBack rfl
    have hhost := hrun.host
    rw [BitVec.setWidth_zero, BitVec.zero_shiftLeft, BitVec.or_zero] at hhost
    refine ⟨t, hrun.exec, hrun.status, hhost, hrun.ctl, hrun.frame, hrun.env, hphase, ?_, hshadow, hrun.others⟩
    rw [State.dev_congr hrun.devs]
    simp
  · intro f hr
    obtain ⟨t, hrun⟩ := devInitRun_of_initProc hd (initProc_unread (s := beginStep s) hn hr)
    obtain ⟨hphase, hshadow⟩ := hrun.rolledBack rfl
    have hhost := hrun.host
    rw [BitVec.setWidth_zero, BitVec.zero_or] at hhost
    refine ⟨t, hrun.exec, hrun.status, hhost, hrun.ctl, hrun.frame, hrun.env, hphase, ?_, hshadow, hrun.others⟩
    rw [State.dev_congr hrun.devs]
    simp

/-! ## The patches of DEV_INIT -/

/-- What the mode patch and the phase patch leave, the second made only where the first succeeded (R150). -/
def State.patched (s : State) (d : DevIx) (m p : WriteEnd) (mreg preg : RegAddr) (mode phase : Request) : State :=
  if m.report.ok then p.leave d preg phase (m.leave d mreg mode s) else m.leave d mreg mode s

section
variable (s : State) (d : DevIx) (m p : WriteEnd) (mreg preg : RegAddr) (mode phase : Request)

theorem State.patched_env : (s.patched d m p mreg preg mode phase).env = s.env := by
  unfold State.patched
  split <;> simp only [WriteEnd.leave_env]

theorem State.patched_chipType : ((s.patched d m p mreg preg mode phase).dev d).chipType = (s.dev d).chipType := by
  have hmode := (m.leave_regFrame d mreg mode s).chipType
  unfold State.patched
  split
  · exact ((p.leave_regFrame d preg phase _).chipType).trans hmode
  · exact hmode

end

/-- A state kept on success and rolled back on a failure (R150). -/
def State.keptIf (u : State) (ok : Bool) (d : DevIx) : State := if ok then u else resetProc d u

theorem State.keptIf_env (u : State) (ok : Bool) (d : DevIx) : (u.keptIf ok d).env = u.env := by
  cases ok <;> rfl

theorem State.keptIf_chipType (u : State) (ok : Bool) (d : DevIx) : ((u.keptIf ok d).dev d).chipType = (u.dev d).chipType := by
  obtain ⟨_, _, hreset, _⟩ := resetProc_spec d u
  cases ok
  · exact hreset
  · rfl

/-- Settles O26: the two ends give InitProc (`initProc_known`), and each leaves one shadow entry of the device. -/
theorem devInitRecognises : Obligations.DevInitRecognises := by
  intro s d id m p rest wrest hd hn ct mode phase s1 hct hm hp hr hw rep
  let u := (beginStep s1).patched d m p (s.layout d).modeReg (s.layout d).phaseReg mode phase
  have hinit : initProc d (beginStep s) = ({ rep := rep, idb := id, ct := ct }, (u.keptIf rep.ok d).went rest wrest _) :=
    initProc_known (s := beginStep s) hn hct (WriteEnd.fits_beginStep hm) (WriteEnd.fits_beginStep hp) hr hw
  obtain ⟨t, hrun⟩ := devInitRun_of_initProc hd hinit
  have henv : (u.keptIf rep.ok d).env = (beginStep s).env := (u.keptIf_env ..).trans (State.patched_env ..)
  refine ⟨t, hrun.exec, hrun.status, hrun.host, hrun.ctl, hrun.frame, ?_, ?_, fun hok => ⟨hrun.initialised hok, fun q => ?_⟩,
    hrun.rolledBack, hrun.others⟩
  · rw [hrun.env, State.went, henv]
    rfl
  · calc (t.dev d).chipType
      _ = ((u.keptIf rep.ok d).dev d).chipType := congrArg Device.chipType (State.dev_congr hrun.devs d)
      _ = ((beginStep s1).dev d).chipType := (u.keptIf_chipType ..).trans (State.patched_chipType ..)
      _ = ct := by simp [s1]
  · have hmode : m.report.ok = true := by
      cases hm : m.report.ok with
      | true => rfl
      | false => simp [rep, hm] at hok
    have hu : u = beginStep (p.leave d (s.layout d).phaseReg phase (m.leave d (s.layout d).modeReg mode s1)) := by
      rw [← WriteEnd.leave_beginStep, ← WriteEnd.leave_beginStep]
      exact if_pos hmode
    calc t.entry d q
      _ = (u.keptIf rep.ok d).entry d q := State.entry_congr (State.dev_congr hrun.devs d) q
      _ = u.entry d q := by rw [hok]; rfl
      _ = (p.leave d (s.layout d).phaseReg phase (m.leave d (s.layout d).modeReg mode s1)).entry d q := by
        rw [hu, State.entry_beginStep]

/-! ## The status reads -/

/-- The commit of a status read that fails (R160, R161). -/
theorem finish_failedRead (err : CmdErr) (bc : BitVec 3) (d : DevIx) (s : State) (rest : List Config.ReadAnswer)
    (wrest : List Config.WriteAnswer) (acts : List Action) :
    finish (.failure err bc) { readErr := true } (devBit d) 0#16 ((beginStep s).went rest wrest acts) =
      s.completed (errStatus s err bc) 0x200#32 (primaryBit d) (s.env.after rest wrest acts) := by
  rw [finish_went, failWord_devBit, resultWord_of_readErr]
  rfl

/-- Settles O30: the gated read takes the listed answer, and each of the three commits as it reports. -/
theorem statusReadsReportTheirBit : Obligations.StatusReadsReportTheirBit := by
  intro s d a rest hd hr lockEnv autoEnv
  obtain ⟨hlt, hbus, hhealthy⟩ := hd
  have hread : ∀ r, rdCore d r (beginStep s) =
      (readResultOf a, (beginStep s).went rest s.env.writes [.busRd (s.devCfg d).addr r a]) := fun r => by
    rw [rdCore_of_onBus (s := beginStep s) hbus hhealthy, rawRead_went (s := beginStep s) hr]
    rfl
  rw [exec_devLocked hlt, exec_devAutomuted hlt, lockedProc, automutedProc, hread, hread, State.layout_beginStep]
  refine ⟨?_, ?_, ?_⟩
  · rintro b rfl
    constructor
    · rw [readResultOf, finishLocked_success, finish_went, (failWord_eq_zero _).2 rfl, resultWord_of_locked]
      rfl
    · rw [readResultOf, finishAutomuted_success, finish_went, (failWord_eq_zero _).2 rfl, resultWord_of_automuted]
      rfl
  · rintro c rfl
    rw [readResultOf, finishLocked_failure, finishAutomuted_failure, finish_failedRead, finish_failedRead]
    exact ⟨rfl, rfl⟩
  · rintro rfl
    rw [readResultOf, finishLocked_failure, finishAutomuted_failure, finish_failedRead, finish_failedRead]
    exact ⟨rfl, rfl⟩

end Sys2Proof.Machine

/-! PROOF. The initialisation sequence of POLL (spec/42_controller.md R200-R206) as the commands it stands for: DEV_INIT in two passes,
the event, UNMUTE_ALL. -/

namespace Sys2Proof.Machine

/-! ## The two passes -/

/-- DEV_INIT as commands of their own on every device that is not Initialised, and once more on those still not: the state after, and
the traces one after the other (R201). -/
def initTwice (s : State) : State × List Action :=
  ((initEach s.devices (initEach s.devices s).1).1, (initEach s.devices s).2 ++ (initEach s.devices (initEach s.devices s).1).2)

theorem CommandFrame.trans {s t u : State} (h : CommandFrame s t) (k : CommandFrame t u) : CommandFrame s u where
  board := k.board.trans h.board
  now := k.now.trans h.now
  arg := k.arg.trans h.arg
  eventEnable := k.eventEnable.trans h.eventEnable
  overrun := k.overrun.trans h.overrun
  lcmd := k.lcmd.trans h.lcmd
  larg := k.larg.trans h.larg
  lpow := k.lpow.trans h.lpow
  schedule := k.schedule.trans h.schedule
  turn := k.turn.trans h.turn
  readData := k.readData.trans h.readData

theorem State.healthy_congr {s t : State} {d : DevIx} (h : t.dev d = s.dev d) : t.healthy d = s.healthy d := by
  rw [State.healthy, h]
  rfl

/-- A device that is not Initialised afterwards was not before, where an Initialised one is left as it is. -/
theorem State.unhealthy_of_kept {s t : State} {d : DevIx} (hkept : s.healthy d = true → t.dev d = s.dev d)
    (hfail : t.healthy d = false) : s.healthy d = false := by
  cases hh : s.healthy d with
  | false => rfl
  | true => exact hh.symm.trans ((State.healthy_congr (hkept hh)).symm.trans hfail)

/-- What the commands of one pass over every device can do (`initEach_spec`). -/
theorem initEach_devices (s : State) :
    CommandFrame s (initEach s.devices s).1 ∧ (∀ a ∈ (initEach s.devices s).2, a.isBus = true) ∧
    (∀ d, s.healthy d = true ∨ d ∉ s.devices → (initEach s.devices s).1.dev d = s.dev d) ∧
    ∀ d ∈ s.devices, s.healthy d = false → (s.devCfg d).noI2C = false →
      1 ≤ ((initEach s.devices s).2.filter (Action.isReadOf (s.devCfg d).addr (s.layout d).idReg)).length :=
  initEach_spec s.devices s (fun d => (s.mem_devices d).1) s.devices_nodup

/-- What the commands of both passes can do: a device that stays not Initialised had its identification read in each (R150, R201). -/
theorem initTwice_spec (s : State) :
    CommandFrame s (initTwice s).1 ∧ (∀ a ∈ (initTwice s).2, a.isBus = true) ∧
    (∀ d, s.healthy d = true ∨ d ∉ s.devices → (initTwice s).1.dev d = s.dev d) ∧
    ∀ d ∈ s.devices, (s.devCfg d).noI2C = false → (initTwice s).1.healthy d = false →
      2 ≤ ((initTwice s).2.filter (Action.isReadOf (s.devCfg d).addr (s.layout d).idReg)).length := by
  obtain ⟨hframe, hbus, hkept, hreads⟩ := initEach_devices s
  have hsecond := initEach_devices (initEach s.devices s).1
  rw [State.devices_congr hframe.board] at hsecond
  obtain ⟨hframe', hbus', hkept', hreads'⟩ := hsecond
  refine ⟨hframe.trans hframe', fun a ha => (List.mem_append.mp ha).elim (hbus a) (hbus' a), fun d hd => ?_, fun d hd hn hfail => ?_⟩
  · have hfirst := hkept d hd
    exact (hkept' d (hd.imp_left (State.healthy_congr hfirst).trans)).trans hfirst
  · have hfirst := State.unhealthy_of_kept (fun hh => hkept' d (.inl hh)) hfail
    have hstart := State.unhealthy_of_kept (fun hh => hkept d (.inl hh)) hfirst
    have honce := hreads d hd hstart hn
    have hagain := hreads' d hd hfirst (by rwa [State.devCfg_congr hframe.board])
    rw [State.devCfg_congr hframe.board, State.layout_congr hframe.board] at hagain
    rw [initTwice, List.filter_append, List.length_append]
    omega

/-! ## The attempts of the sequence -/

/-- Where the first pass of the sequence starts: the flag cleared, the reset line released (R201). -/
def State.initStart (s : State) : State := State.setPin { s with ctl := { s.ctl with errorInitialising := false } } .reset true

/-- The trace of the reset line (R275). -/
def State.resetRelease (s : State) : List Action := if s.cfg.resetPin = 255#8 then [] else [.pin .reset true]

theorem initAttempt_eq (s : State) : initAttempt s = initPass s.devices (initPass s.devices s.initStart) := by
  have hdevices : s.initStart.devices = s.devices := State.devices_congr (State.setPin_board ..)
  rw [← hdevices]
  exact initPasses_two _

/-- An output of the block stands in the trace where its pin is connected (R275). -/
theorem State.setPin_env (s : State) (p : OutPin) (lv : Bool) : (s.setPin p lv).env =
    { s.env with trace := s.env.trace ++ if s.pinNumber p = 255#8 then [] else [.pin p lv] } := by
  unfold State.setPin
  split <;> simp

/-- Only the trace of the sequence's start differs, by the reset line, from that of a command. -/
theorem State.initStart_agree (s : State) : Agree s.resetRelease (beginStep s).initStart (beginStep s) := by
  have henv : (beginStep s).initStart.env = { s.env with trace := s.resetRelease } := State.setPin_env ..
  exact {
    board := State.setPin_board ..
    devs := State.setPin_devs ..
    reads := (congrArg Env.reads henv :)
    writes := (congrArg Env.writes henv :)
    busTurn := (congrArg Env.busTurn henv :)
    trace := (congrArg Env.trace henv).trans (List.append_nil _).symm }

/-- `Agree` with the start of a step, from what the passes as commands give. -/
theorem Agree.to_beginStep {pre : List Action} {s t : State} (h : Agree pre s { t with env := { t.env with trace := [] } }) :
    Agree pre s (beginStep t) := ⟨h.board, h.devs, h.reads, h.writes, h.busTurn, h.trace⟩

theorem Agree.of_beginStep {pre : List Action} {s t : State} (h : Agree pre s (beginStep t)) :
    Agree pre s { t with env := { t.env with trace := [] } } := ⟨h.board, h.devs, h.reads, h.writes, h.busTurn, h.trace⟩

/-- The sequence up to its verdict is the reset line and the two passes of commands (R201). -/
theorem initAttempt_agree (s : State) :
    Agree (s.resetRelease ++ (initTwice s).2) (initAttempt (beginStep s)) (beginStep (initTwice s).1) := by
  have hlisted : ∀ d ∈ s.devices, d.val < s.nDev := fun d => (s.mem_devices d).1
  obtain ⟨hframe, _⟩ := initEach_devices s
  have hfirst := initPass_eq_commands s.devices hlisted s.initStart_agree.of_beginStep
  have hsecond := initPass_eq_commands s.devices (by rwa [State.nDev_congr hframe.board]) hfirst
  rw [initAttempt_eq, initTwice, ← List.append_assoc]
  exact hsecond.to_beginStep

/-- After the two passes a noI2C device is Initialised, with NOI2C_CHIP_TYPE where it was not before (R150, R280). -/
theorem initTwice_noI2C {s : State} {d : DevIx} (hd : d ∈ s.devices) (hn : (s.devCfg d).noI2C = true) :
    (initTwice s).1.healthy d = true ∧
      (s.healthy d = false → ((initTwice s).1.dev d).chipType = s.cfg.noI2CChipType) := by
  have hagree := initAttempt_agree s
  have hstart := s.initStart_agree
  have hpass := initPass_spec s.devices s.devices (fun _ h => h) (beginStep s).initStart
  have hdev : ((beginStep s).initStart).dev d = s.dev d := hstart.dev d
  have hcfg : ((beginStep s).initStart).devCfg d = s.devCfg d := hstart.devCfg d
  obtain ⟨hhealthy, hchip⟩ := initPass_noI2C d s.devices (beginStep s).initStart hd (by rwa [hcfg])
  obtain ⟨hhealthy', hchip'⟩ := initPass_noI2C d s.devices (initPass s.devices (beginStep s).initStart) hd
    (by rwa [hpass.frame.devCfg, hcfg])
  have hend : (initAttempt (beginStep s)).dev d = (initTwice s).1.dev d := hagree.dev d
  rw [initAttempt_eq] at hend
  refine ⟨(State.healthy_congr hend).symm.trans hhealthy', fun hfail => ?_⟩
  rw [hhealthy, if_pos rfl, hchip, State.healthy_congr hdev, hfail] at hchip'
  exact (congrArg Device.chipType hend).symm.trans (hchip'.trans (congrArg Config.Cfg.noI2CChipType hstart.cfg))

/-! ## The verdict and the unmutes -/

/-- The event of the verdict (R203-R205). -/
def verdictEvent (ok : Bool) : EventKind := if ok then .initialised else .notInitialised

/-- The verdict appends its event to the trace (R201). -/
theorem Agree.initVerdict {pre : List Action} {s t : State} (h : Agree pre s (beginStep t)) :
    Agree (pre ++ [.ev (verdictEvent t.initSuccess) (s.enabled (verdictEvent t.initSuccess))]) (Machine.initVerdict s) (beginStep t) := by
  have hsuccess : s.initSuccess = t.initSuccess := h.initSuccess
  have hpre : s.env.trace = pre := h.trace.trans (List.append_nil _)
  rw [initVerdict_eq]
  refine ⟨h.board, h.devs, h.reads, h.writes, h.busTurn, ?_⟩
  rw [State.emit_env, hpre, hsuccess]
  exact (List.append_nil _).symm

/-- The whole sequence is the reset line, the two passes of commands, the event and UNMUTE_ALL (R201, R206). -/
theorem initSequence_agree (s : State) :
    Agrees (s.resetRelease ++ (initTwice s).2 ++
        [.ev (verdictEvent (initTwice s).1.initSuccess) (s.enabled (verdictEvent (initTwice s).1.initSuccess))])
      (initSequence (beginStep s)).2 (unmuteEach (beginStep (initTwice s).1)) := by
  have henabled : ∀ k, (initAttempt (beginStep s)).enabled k = s.enabled k := fun k => by
    have hhost : (initAttempt (beginStep s)).host = s.host := (initAttempt_eng (beginStep s)).host
    rw [State.enabled, hhost, State.enabled]
  have hverdict := (initAttempt_agree s).initVerdict
  rw [henabled] at hverdict
  exact hverdict.unmuteEach

/-- UNMUTE on every device leaves all shadow entries but those of MUTE_REG (R170, R206). -/
theorem unmuteEach_entry_other (s : State) (d : DevIx) {q : RegAddr} (hq : q ≠ (s.layout d).muteReg) :
    (unmuteEach s).2.entry d q = s.entry d q := by
  by_cases hd : d ∈ s.devices
  · obtain ⟨u, hframe, hdev, _, hend⟩ := forEach_reaches unmuteProc_body s.devices s s.devices_nodup d hd
    have hentry := (unmuteProc_spec d u).frame.entries q (by rwa [hframe.layout])
    exact (State.entry_congr hend q).trans (hentry.trans (State.entry_congr hdev q))
  · exact State.entry_congr ((forEach_spec unmuteProc_body s.devices s).others d hd) q

/-- UNMUTE of a bus device that succeeds found it Initialised, and leaves the unmute pattern known (R125, R170). -/
theorem unmuteEach_known {s : State} {d : DevIx} (hd : d ∈ s.devices) (hn : (s.devCfg d).noI2C = false)
    (hbit : (unmuteEach s).1.getLsbD d.val = false) :
    s.healthy d = true ∧ (patTouch (s.layout d).unmutePat ≠ 0#8 →
      ((unmuteEach s).2.entry d (s.layout d).muteReg).valid = true ∧
        overlay ((unmuteEach s).2.entry d (s.layout d).muteReg).val (s.layout d).unmutePat =
          ((unmuteEach s).2.entry d (s.layout d).muteReg).val) := by
  obtain ⟨u, hframe, hdev, hfail, hend⟩ := forEach_reaches unmuteProc_body s.devices s s.devices_nodup d hd
  have hok : (unmuteProc d u).1.rep.ok = true := by
    rw [unmuteEach, hfail] at hbit
    simpa [unmuteEach.unmuteProc'] using hbit
  have hknown := bitsCore_known (by rwa [hframe.devCfg]) hok
  rw [hframe.layout, State.healthy_congr hdev] at hknown
  have hentry : ∀ q, (unmuteEach s).2.entry d q = (unmuteProc d u).2.entry d q := State.entry_congr hend
  rw [hentry, unmuteProc, hframe.layout]
  exact hknown

/-! ## The POLL that runs the sequence -/

theorem exec_poll_initialising {s : State} (hpower : s.ctl.power = true) (hinit : s.ctl.initialised = false)
    (hdue : s.cfg.settleDelay.toNat ≤ (s.now - s.ctl.powerOnTime).toNat) :
    exec .poll s = .next (finishPoll 1#2 (initSequence (beginStep s))) := by
  have hgoal : pollStep (beginStep s) = finishPoll 1#2 (initSequence (beginStep s)) := by
    have hdue' : elapsed s.now s.ctl.powerOnTime s.cfg.settleDelay = true := decide_eq_true hdue
    simp [pollStep, hpower, hinit, hdue']
  exact congrArg Host.Outcome.next hgoal

theorem exec_unmuteAll (s : State) : exec .unmuteAll s = .next (finishAll (unmuteEach (beginStep s))) := rfl

theorem resultWord_of_initialisation : resultWord { pollAction := 1#2 } = 0x00010000#32 := by decide

/-- States that agree have the same surroundings but for the trace, where no command wrote the rest. -/
theorem Agree.env_eq {pre : List Action} {s t : State} (h : Agree pre s t) (hschedule : s.env.schedule = t.env.schedule)
    (hturn : s.env.turn = t.env.turn) (hread : s.env.readData = t.env.readData) :
    s.env = { t.env with trace := pre ++ t.env.trace } := by
  obtain ⟨_, _, hreads, hwrites, hbusTurn, htrace⟩ := h
  calc s.env
    _ = ⟨s.env.schedule, s.env.turn, s.env.reads, s.env.writes, s.env.busTurn, s.env.readData, s.env.trace⟩ := rfl
    _ = { t.env with trace := pre ++ t.env.trace } := by
      rw [hschedule, hturn, hread, hreads, hwrites, hbusTurn, htrace]

/-- What the sequence shows before the unmutes: the reset line, the attempts, the event (R201). -/
def State.initTrace (s : State) : List Action :=
  s.resetRelease ++ (initTwice s).2 ++
    [.ev (verdictEvent (initTwice s).1.initSuccess) (s.enabled (verdictEvent (initTwice s).1.initSuccess))]

/-- The unmutes of the sequence, as UNMUTE_ALL makes them after the attempts (R206). -/
def State.initUnmutes (s : State) : DevMask × State := unmuteEach (beginStep (initTwice s).1)

/-- `t` is what POLL leaves of `s` where it runs the initialisation sequence, by the commands it stands for (R200, R201). -/
structure SequenceRun (s t : State) : Prop where
  exec : exec .poll s = .next t
  frame : CommandFrame s t
  status : t.status = okStatus s
  result : t.host.result = 0x00010000#32
  devs : t.devs = s.initUnmutes.2.devs
  ctl : t.ctl = { s.ctl with
    initialised := true, errorInitialising := !(initTwice s).1.initSuccess, resetOut := true }
  env : t.env = { s.initUnmutes.2.env with trace := s.initTrace ++ s.initUnmutes.2.env.trace }
  primary : ∀ d : DevIx, t.host.failMask.getLsbD d.val = (decide (d.val < s.nDev) && !(initTwice s).1.healthy d)
  secondary : ∀ d : DevIx, t.host.failMask.getLsbD (16 + d.val) = s.initUnmutes.1.getLsbD d.val

theorem State.initUnmutes_spec (s : State) : LoopSpec s.devices 3 (beginStep (initTwice s).1) s.initUnmutes := by
  obtain ⟨hframe, _⟩ := initTwice_spec s
  have hdevices : (beginStep (initTwice s).1).devices = s.devices := State.devices_congr hframe.board
  rw [State.initUnmutes, unmuteEach, hdevices]
  exact forEach_spec unmuteProc_body s.devices _

/-- An unmute of the sequence that succeeds found its device Initialised, and leaves the unmute pattern known (R125, R206). -/
theorem State.initUnmutes_known {s : State} {d : DevIx} (hd : d.val < s.nDev) (hn : (s.devCfg d).noI2C = false)
    (hbit : s.initUnmutes.1.getLsbD d.val = false) :
    (initTwice s).1.healthy d = true ∧ (patTouch (s.layout d).unmutePat ≠ 0#8 →
      (s.initUnmutes.2.entry d (s.layout d).muteReg).valid = true ∧
        overlay (s.initUnmutes.2.entry d (s.layout d).muteReg).val (s.layout d).unmutePat =
          (s.initUnmutes.2.entry d (s.layout d).muteReg).val) := by
  obtain ⟨hcommands, _⟩ := initTwice_spec s
  have hdevices : (beginStep (initTwice s).1).devices = s.devices := State.devices_congr hcommands.board
  have hcfg : (beginStep (initTwice s).1).devCfg d = s.devCfg d := State.devCfg_congr hcommands.board d
  have hlayout : (beginStep (initTwice s).1).layout d = s.layout d := State.layout_congr hcommands.board d
  have hknown := unmuteEach_known (s := beginStep (initTwice s).1) (hdevices ▸ (s.mem_devices d).2 hd) (by rwa [hcfg]) hbit
  rwa [hlayout] at hknown

theorem State.getLsbD_unhealthyMask (s : State) (d : DevIx) :
    s.unhealthyMask.getLsbD d.val = (decide (d.val < s.nDev) && !s.healthy d) := by
  rw [State.unhealthyMask, State.getLsbD_maskOf]

/-- POLL at or after the settle delay is a run of the sequence (R200). -/
theorem sequenceRun_of_settled {s : State} (hpower : s.ctl.power = true) (hinit : s.ctl.initialised = false)
    (hdue : s.cfg.settleDelay.toNat ≤ (s.now - s.ctl.powerOnTime).toNat) : ∃ t, SequenceRun s t := by
  have hexec := exec_poll_initialising hpower hinit hdue
  have hframe := (commits_of_exec hexec).commandFrame
  obtain ⟨hmask, hagree⟩ := initSequence_agree s
  have hattempt := initAttempt_agree s
  obtain ⟨hcommands, _⟩ := initTwice_spec s
  have hunmutes := s.initUnmutes_spec.frame
  have hctl := initSequence_ctl (beginStep s)
  rw [hattempt.initSuccess] at hctl
  have hprimary : ∀ d : DevIx, (initSequence (beginStep s)).1.getLsbD d.val =
      (decide (d.val < s.nDev) && !(initTwice s).1.healthy d) := fun d => by
    rw [initSequence, State.getLsbD_unhealthyMask, hattempt.healthy, State.healthy_beginStep,
      State.nDev_congr (hattempt.board.trans hcommands.board)]
  generalize initSequence (beginStep s) = x at hexec hframe hmask hagree hctl hprimary
  obtain ⟨pf, sf, v⟩ := x
  refine ⟨_, hexec, hframe, ?_, resultWord_of_initialisation, hagree.devs, hctl, ?_, fun d => ?_, fun d => ?_⟩
  · rw [finishPoll_status, Report.status, show v.status.overrun = s.status.overrun from hframe.overrun]
    rfl
  · exact hagree.env_eq (hframe.schedule.trans (hunmutes.schedule.trans hcommands.schedule).symm)
      (hframe.turn.trans (hunmutes.turn.trans hcommands.turn).symm)
      (hframe.readData.trans (hunmutes.readData.trans hcommands.readData).symm)
  · exact (finishPoll_primary ..).trans (hprimary d)
  · exact (finishPoll_secondary ..).trans (congrArg (fun m : DevMask => m.getLsbD d.val) hmask)

/-! ## What the run leaves of the devices -/

section
variable {s t : State} (h : SequenceRun s t) (d : DevIx)
include h

theorem SequenceRun.dev : t.dev d = s.initUnmutes.2.dev d := State.dev_congr h.devs d

theorem SequenceRun.entry (q : RegAddr) : t.entry d q = s.initUnmutes.2.entry d q := State.entry_congr (h.dev d) q

/-- The unmutes change no device state, so the health is that after the attempts. -/
theorem SequenceRun.healthy : t.healthy d = (initTwice s).1.healthy d :=
  (State.healthy_congr (h.dev d)).trans (s.initUnmutes_spec.frame.healthy d)

theorem SequenceRun.chipType : (t.dev d).chipType = ((initTwice s).1.dev d).chipType :=
  (congrArg Device.chipType (h.dev d)).trans (s.initUnmutes_spec.frame.chipTypes d)

theorem SequenceRun.initSuccess : t.initSuccess = (initTwice s).1.initSuccess := by
  obtain ⟨hcommands, _⟩ := initTwice_spec s
  rw [State.initSuccess, State.initSuccess, State.devices_congr (h.frame.board.trans hcommands.board.symm),
    funext h.healthy]

/-- A device that was Initialised stays so, and only its MUTE_REG entry can change (R201, R206). -/
theorem SequenceRun.of_healthy (hd : s.healthy d = true) :
    t.healthy d = true ∧ (t.dev d).chipType = (s.dev d).chipType ∧
      ∀ q, q ≠ (s.layout d).muteReg → t.entry d q = s.entry d q := by
  obtain ⟨hcommands, _, hkept, _⟩ := initTwice_spec s
  have hdev := hkept d (.inl hd)
  refine ⟨?_, ?_, fun q hq => ?_⟩
  · rw [h.healthy, State.healthy_congr hdev, hd]
  · rw [h.chipType, hdev]
  · have hlayout : (beginStep (initTwice s).1).layout d = s.layout d := State.layout_congr hcommands.board d
    calc t.entry d q
      _ = s.initUnmutes.2.entry d q := h.entry d q
      _ = (beginStep (initTwice s).1).entry d q := unmuteEach_entry_other _ d (by rwa [hlayout])
      _ = s.entry d q := State.entry_congr hdev q

theorem SequenceRun.of_absent (hd : s.nDev ≤ d.val) : t.dev d = s.dev d := by
  have hd : d ∉ s.devices := fun hmem => Nat.not_lt.mpr hd ((s.mem_devices d).1 hmem)
  obtain ⟨_, _, hkept, _⟩ := initTwice_spec s
  exact (h.dev d).trans ((s.initUnmutes_spec.others d hd).trans (hkept d (.inr hd)))

theorem SequenceRun.of_noI2C (hd : d.val < s.nDev) (hn : (s.devCfg d).noI2C = true) :
    t.healthy d = true ∧ (s.healthy d = false → (t.dev d).chipType = s.cfg.noI2CChipType) := by
  rw [h.healthy, h.chipType]
  exact initTwice_noI2C ((s.mem_devices d).2 hd) hn

/-- A bus device that ended not Initialised failed its unmute, and its identification was read in both passes (R201, R206). -/
theorem SequenceRun.of_unhealthy (hd : d.val < s.nDev) (hn : (s.devCfg d).noI2C = false) (hfail : t.healthy d = false) :
    t.host.failMask.getLsbD (16 + d.val) = true ∧
      2 ≤ (t.env.trace.filter (Action.isReadOf (s.devCfg d).addr (s.layout d).idReg)).length := by
  obtain ⟨_, _, _, hreads⟩ := initTwice_spec s
  rw [h.healthy] at hfail
  constructor
  · rw [h.secondary]
    cases hbit : s.initUnmutes.1.getLsbD d.val with
    | true => rfl
    | false => exact hfail.symm.trans (State.initUnmutes_known hd hn hbit).1
  · have htwice := hreads d ((s.mem_devices d).2 hd) hn hfail
    simp only [h.env, State.initTrace, List.filter_append, List.length_append]
    omega

/-- A bus device whose unmute succeeded has the unmute pattern known in its shadow (R125, R206). -/
theorem SequenceRun.of_unmuted (hd : d.val < s.nDev) (hn : (s.devCfg d).noI2C = false)
    (hbit : t.host.failMask.getLsbD (16 + d.val) = false) (htouch : patTouch (s.layout d).unmutePat ≠ 0#8) :
    (t.entry d (s.layout d).muteReg).valid = true ∧
      overlay (t.entry d (s.layout d).muteReg).val (s.layout d).unmutePat = (t.entry d (s.layout d).muteReg).val := by
  rw [h.secondary] at hbit
  rw [h.entry]
  exact (State.initUnmutes_known hd hn hbit).2 htouch

end

/-! ## The one event of the run -/

theorem filter_isEvent_of_bus {l : List Action} (h : ∀ a ∈ l, a.isEvent = false) : l.filter Action.isEvent = [] :=
  List.filter_eq_nil_iff.2 fun a ha => by simp [h a ha]

section
variable {a b : List Action} (ha : ∀ x ∈ a, x.isEvent = false) (hb : ∀ x ∈ b, x.isEvent = false) (k : EventKind) (e : Bool)
include ha hb

theorem filter_isEvent_around : (a ++ [Action.ev k e] ++ b).filter Action.isEvent = [.ev k e] := by
  rw [List.filter_append, List.filter_append, filter_isEvent_of_bus ha, filter_isEvent_of_bus hb]
  rfl

theorem deliveredBits_around : deliveredBits (a ++ [.ev k e] ++ b) = if e then eventBit k else 0#10 := by
  rw [deliveredBits_append, deliveredBits_append, deliveredBits_of_bus a ha, deliveredBits_of_bus b hb]
  cases e <;> simp [deliveredBits]

end

/-- Around its event the sequence shows the reset line and bus actions alone (R201). -/
theorem SequenceRun.trace_around {s t : State} (h : SequenceRun s t) : ∃ a b : List Action,
    (∀ x ∈ a, x.isEvent = false) ∧ (∀ x ∈ b, x.isEvent = false) ∧
      t.env.trace = a ++ [.ev (verdictEvent t.initSuccess) (s.enabled (verdictEvent t.initSuccess))] ++ b := by
  obtain ⟨_, hbus, _⟩ := initTwice_spec s
  obtain ⟨acts, htrace, hunmutes⟩ := s.initUnmutes_spec.frame.trace
  refine ⟨s.resetRelease ++ (initTwice s).2, s.initUnmutes.2.env.trace, fun x hx => ?_, fun x hx => ?_, ?_⟩
  · rcases List.mem_append.mp hx with hpin | hx
    · unfold State.resetRelease at hpin
      split at hpin
      · cases hpin
      · cases List.mem_singleton.mp hpin
        rfl
    · exact Action.isEvent_of_isBus (hbus x hx)
  · rw [htrace] at hx
    exact Action.isEvent_of_isBus (hunmutes x hx)
  · rw [h.initSuccess, h.env, State.initTrace]

theorem SequenceRun.events {s t : State} (h : SequenceRun s t) :
    t.host.eventPending = s.host.eventPending ||| (eventBit (verdictEvent t.initSuccess) &&& s.host.eventEnable) ∧
      (t.env.trace.filter Action.isEvent).length = 1 := by
  obtain ⟨a, b, ha, hb, htrace⟩ := h.trace_around
  constructor
  · rw [(commits_of_exec h.exec).events.1, htrace, deliveredBits_around ha hb, eventBit_and]
    rfl
  · rw [htrace, filter_isEvent_around ha hb]
    rfl

/-! ## The obligation -/

/-- The unmutes of the sequence are the UNMUTE_ALL that follows the attempts (R206, R234). -/
theorem exec_unmuteAll_after_attempts (s : State) : ∃ u, exec .unmuteAll (initTwice s).1 = .next u ∧
    u.devs = s.initUnmutes.2.devs ∧ u.env = s.initUnmutes.2.env ∧
      ∀ d : DevIx, u.host.failMask.getLsbD d.val = s.initUnmutes.1.getLsbD d.val := by
  refine ⟨_, (exec_unmuteAll _).trans (congrArg Host.Outcome.next (finishAll_eq _)), rfl, rfl, fun d => ?_⟩
  exact getLsbD_failWord_primary _ d.val

/-- Settles O39: POLL is the run of the sequence (`SequenceRun`), and the run is the commands it stands for. -/
theorem pollRunsInitSequence : Obligations.PollRunsInitSequence := by
  intro s hpower hinit hdue first second
  obtain ⟨t, h⟩ := sequenceRun_of_settled hpower hinit hdue
  obtain ⟨u, hexec, hdevs, henv, hmask⟩ := exec_unmuteAll_after_attempts s
  obtain ⟨hpending, hevents⟩ := h.events
  refine ⟨t, u, h.exec, hexec, h.status, h.result, ?_, fun d => ?_, fun d => ?_, h.devs.trans hdevs.symm, h.frame, ?_, ?_, hevents,
    h.of_healthy, h.of_absent, h.of_noI2C, fun d hd hn => ⟨h.of_unhealthy d hd hn, h.of_unmuted d hd hn⟩⟩
  · rw [h.initSuccess]
    exact h.ctl
  · rw [h.primary, h.healthy]
  · rw [h.secondary, hmask]
  · have hevent : Action.ev (verdictEvent t.initSuccess) (s.enabled (verdictEvent t.initSuccess)) =
        if t.initSuccess then .ev .initialised (s.host.eventEnable.getLsbD 7)
        else .ev .notInitialised (s.host.eventEnable.getLsbD 8) := by
      cases t.initSuccess <;> rfl
    have hattempts : s.resetRelease ++ (initTwice s).2 = s.resetRelease ++ first.2 ++ second.2 := (List.append_assoc ..).symm
    rw [h.env, henv, ← hevent, h.initSuccess, State.initTrace, hattempts]
    rfl
  · rw [hpending]
    cases t.initSuccess <;> rfl

end Sys2Proof.Machine

/-! PROOF. The power commands (spec/42_controller.md R190, R195) and the POLL that does nothing (R200, R271). -/

namespace Sys2Proof.Machine

/-! ## The commit -/

theorem resultWord_of_nothing : resultWord {} = 0#32 := by decide

/-- A command that does nothing but complete (R67). -/
theorem finish_idle (s : State) : finish .success {} 0#16 0#16 (beginStep s) =
    s.completed (okStatus s) 0#32 0#32 { s.env with trace := [] } := by
  rw [finish_beginStep, resultWord_of_nothing, (failWord_eq_zero _).2 rfl]
  rfl

/-- The commit after parts of an Engine step: only the controller, the devices, the surroundings and the events that fired are those
the parts left (R47, R67). -/
theorem EngFrame.finish_eq {s u : State} (h : EngFrame (beginStep s) u) (rep : Report) (res : CmdResult) (pf sf : DevMask) :
    finish rep res pf sf u = { s with
      status := rep.status s
      engine := { s.engine with fired := 0#10 }
      host := { s.host with
        result := resultWord res
        failMask := failWord pf sf
        eventPending := s.host.eventPending ||| (u.engine.fired &&& s.host.eventEnable) }
      ctl := u.ctl
      devs := u.devs
      env := u.env } := by
  obtain ⟨hboard, hstatus, hhost, hnow, hlcmd, hlarg, hlpow, _⟩ := h
  have hengine : { u.engine with fired := 0#10 } = { s.engine with fired := 0#10 } := by
    simp only [hlcmd, hlarg, hlpow]
    rfl
  unfold finish
  rw [hboard, hstatus, hhost, hnow, hengine]
  rfl

/-! ## POWER_ON -/

/-- The two events around the relay's pin action (R190, R260). -/
theorem powerUp_env (s : State) : (powerUp s).env = { s.env with
    trace := s.env.trace ++ ([.ev .beforePowerOn (s.enabled .beforePowerOn)] ++
      (if s.cfg.relayPin = 255#8 then [] else [.pin .relay true]) ++
      [.ev .afterPowerOn (s.enabled .afterPowerOn)]) } := by
  have hpin : (s.emit .beforePowerOn).pinNumber .relay = s.cfg.relayPin := rfl
  simp [powerUp, State.setPin_env, hpin, State.enabled]

theorem powerUp_fired (s : State) : (powerUp s).engine.fired = s.engine.fired ||| 0x003#10 := by
  have hbits : eventBit .beforePowerOn ||| eventBit .afterPowerOn = 0x003#10 := by decide
  simp [powerUp, BitVec.or_assoc, hbits]

theorem exec_powerOn_of_on {s : State} (h : s.ctl.power = true) :
    exec .powerOn s = .next (finish .success {} 0#16 0#16 (beginStep s)) := congrArg Host.Outcome.next (if_pos h)

theorem exec_powerOn_of_off {s : State} (h : s.ctl.power = false) :
    exec .powerOn s = .next (finish .success {} 0#16 0#16 (powerUp (beginStep s))) :=
  congrArg Host.Outcome.next (if_neg (by simp [h]))

/-- Settles O36: while powered the command does nothing; from power off it commits on `powerUp`. -/
theorem powerOnPowersUp : Obligations.PowerOnPowersUp := by
  intro s
  constructor
  · intro hon
    rw [exec_powerOn_of_on hon, finish_idle]
  · intro hoff
    rw [exec_powerOn_of_off hoff, (powerUp_eng _).finish_eq, powerUp_ctl, powerUp_devs, powerUp_fired, powerUp_env,
      resultWord_of_nothing, (failWord_eq_zero _).2 rfl]
    simp only [beginStep_engine, BitVec.zero_or]
    rfl

/-! ## POWER_OFF -/

/-- The reset line, BEFORE, the relay, AFTER (R195, R281). -/
theorem powerDown_env (s : State) : (powerDown s).env = { s.env with
    trace := s.env.trace ++ ((if s.cfg.resetPin = 255#8 then [] else [.pin .reset false]) ++
      [.ev .beforePowerOff (s.enabled .beforePowerOff)] ++
      (if s.cfg.relayPin = 255#8 then [] else [.pin .relay false]) ++
      [.ev .afterPowerOff (s.enabled .afterPowerOff)]) } := by
  have hpin : ((s.setPin .reset false).emit .beforePowerOff).pinNumber .relay = s.cfg.relayPin := by
    simp [State.pinNumber, State.cfg]
  have hreset : s.pinNumber .reset = s.cfg.resetPin := rfl
  simp [powerDown, State.setPin_env, hpin, hreset, State.enabled]

theorem powerDown_fired (s : State) : (powerDown s).engine.fired = s.engine.fired ||| 0x00C#10 := by
  have hbits : eventBit .beforePowerOff ||| eventBit .afterPowerOff = 0x00C#10 := by decide
  simp [powerDown, BitVec.or_assoc, hbits]

/-- The resets of POWER_OFF make no transaction and fire no event (R155, R195). -/
theorem powerOffAfterMutes_env (s : State) : (powerOffAfterMutes s).env = (powerDown s).env := by
  obtain ⟨_, henv, _⟩ := resetAll_spec s.devices (powerDown s)
  exact henv

theorem powerOffAfterMutes_engine (s : State) : (powerOffAfterMutes s).engine = (powerDown s).engine := by
  obtain ⟨hframe, _⟩ := resetAll_spec s.devices (powerDown s)
  exact hframe.engine

/-- POWER_OFF forgets every existing device but its chip type (R155, R195). -/
theorem powerOffAfterMutes_present (s : State) {d : DevIx} (hd : d.val < s.nDev) :
    ((powerOffAfterMutes s).dev d).phase = .uninitialised ∧ ∀ q, ((powerOffAfterMutes s).entry d q).valid = false := by
  obtain ⟨_, _, _, _, hreset⟩ := resetAll_spec s.devices (powerDown s)
  exact hreset d ((s.mem_devices d).2 hd)

theorem powerOffAfterMutes_absent (s : State) {d : DevIx} (hd : s.nDev ≤ d.val) :
    (powerOffAfterMutes s).dev d = s.dev d := by
  obtain ⟨_, _, hothers, _⟩ := resetAll_spec s.devices (powerDown s)
  have habsent : d ∉ s.devices := fun hmem => absurd ((s.mem_devices d).1 hmem) (Nat.not_lt.mpr hd)
  exact (hothers d habsent).trans (State.dev_congr (powerDown_devs s) d)

theorem exec_powerOff_of_off {s : State} (h : s.ctl.power = false) :
    exec .powerOff s = .next (finish .success {} 0#16 0#16 (beginStep s)) :=
  congrArg Host.Outcome.next (if_neg (by simp [h]))

theorem exec_powerOff_of_on {s : State} (h : s.ctl.power = true) :
    exec .powerOff s = .next (finish .success {} (muteEach (beginStep s)).1 0#16
      (powerOffAfterMutes (muteEach (beginStep s)).2)) := congrArg Host.Outcome.next (if_pos h)

theorem exec_muteAll (s : State) : exec .muteAll s = .next (finishAll (muteEach (beginStep s))) := rfl

theorem muteEach_spec (s : State) : LoopSpec s.devices 3 s (muteEach s) := forEach_spec muteProc_body s.devices s

/-- No SECONDARY bit (R37). -/
theorem failWord_secondary_zero (m : DevMask) : (failWord m 0#16).extractLsb' 16 16 = 0#16 := by
  refine BitVec.eq_of_getLsbD_eq fun i hi => ?_
  rw [BitVec.getLsbD_extractLsb', getLsbD_failWord, if_neg (by omega)]
  simp

/-- Settles O37: POWER_OFF and MUTE_ALL run the same mutes, and POWER_OFF goes on with `powerOffAfterMutes`. -/
theorem powerOffShutsDown : Obligations.PowerOffShutsDown := by
  intro s
  constructor
  · intro hoff
    rw [exec_powerOff_of_off hoff, finish_idle]
  intro hon
  have hexec := exec_powerOff_of_on hon
  have hmute := exec_muteAll s
  have hframe := (commits_of_exec hexec).commandFrame
  have hloop := muteEach_spec (beginStep s)
  rw [finishAll_eq] at hmute
  generalize muteEach (beginStep s) = x at hexec hmute hframe hloop
  obtain ⟨mask, m⟩ := x
  have hmutes : ProcFrame (beginStep s) m := hloop.frame.toProcFrame
  have heq := (hmutes.toEng.trans (powerOffAfterMutes_eng m)).finish_eq .success {} mask 0#16
  rw [heq] at hexec hframe
  have hcfg : m.cfg = s.cfg := congrArg Config.Board.cfg hmutes.board
  refine ⟨_, _, hexec, hmute, rfl, resultWord_of_nothing, rfl, failWord_secondary_zero mask, ?_, ?_, fun d hd => ?_,
    fun d hd => ?_, hframe, ?_⟩
  · have hfired : (powerOffAfterMutes m).engine.fired = 0x00C#10 := by
      rw [powerOffAfterMutes_engine, powerDown_fired, hmutes.engine]
      exact BitVec.zero_or
    rw [← hfired]
  · show (powerOffAfterMutes m).ctl = _
    rw [powerOffAfterMutes_ctl, hmutes.ctl]
    rfl
  · obtain ⟨hphase, hshadow⟩ := powerOffAfterMutes_present m (d := d) (by rwa [hmutes.nDev])
    exact ⟨hphase, (powerOffAfterMutes_chipType m d).trans (hloop.frame.chipTypes d), hshadow⟩
  · have habsent : d ∉ (beginStep s).devices := fun hmem => absurd ((s.mem_devices d).1 hmem) (Nat.not_lt.mpr hd)
    exact (powerOffAfterMutes_absent m (by rwa [hmutes.nDev])).trans (hloop.others d habsent)
  · show (powerOffAfterMutes m).env = _
    rw [powerOffAfterMutes_env, powerDown_env, hcfg]
    simp only [State.enabled, hmutes.host]
    rfl

/-! ## The POLL that does nothing -/

/-- The initialisation sequence is due (R200). -/
def State.initDue (s : State) : Prop :=
  s.ctl.power = true ∧ s.ctl.initialised = false ∧ s.cfg.settleDelay.toNat ≤ (s.now - s.ctl.powerOnTime).toNat

/-- A sample is due (R200). -/
def State.sampleDue (s : State) : Prop :=
  s.ctl.power = true ∧ s.ctl.initialised = true ∧ s.initSuccess = true ∧
    s.cfg.sampleInterval.toNat ≤ (s.now - s.ctl.lastPollTime).toNat

theorem elapsed_iff (now t d : Word) : elapsed now t d = true ↔ d.toNat ≤ (now - t).toNat := decide_eq_true_iff

/-- A POLL with neither due only completes, with POLL_ACTION 0 (R200). -/
theorem pollStep_of_waiting {s : State} (hinit : ¬ s.initDue) (hsample : ¬ s.sampleDue) :
    pollStep s = finishPoll 0#2 (0#16, 0#16, s) := by
  unfold pollStep
  split
  · next h =>
    obtain ⟨hpower, hpending⟩ := h
    rw [if_neg fun hdue => hinit ⟨hpower, hpending, (elapsed_iff ..).1 hdue⟩]
  · split
    · next h =>
      obtain ⟨hpower, hinit, hall⟩ := h
      rw [if_neg fun hdue => hsample ⟨hpower, hinit, hall, (elapsed_iff ..).1 hdue⟩]
    · rfl

/-- Settles O38: in each of the four cases neither is due. -/
theorem pollWaits : Obligations.PollWaits := by
  intro s hwait
  have hneither : ¬ s.initDue ∧ ¬ s.sampleDue := by
    rcases hwait with hoff | ⟨_, hinit, hearly⟩ | ⟨hinit, d, hd, hfail⟩ | ⟨hinit, hearly⟩
    · exact ⟨fun ⟨h, _⟩ => by simp [hoff] at h, fun ⟨h, _⟩ => by simp [hoff] at h⟩
    · exact ⟨fun ⟨_, _, hdue⟩ => absurd hdue (Nat.not_le.mpr hearly), fun ⟨_, h, _⟩ => by simp [hinit] at h⟩
    · refine ⟨fun ⟨_, h, _⟩ => by simp [hinit] at h, fun ⟨_, _, hall, _⟩ => ?_⟩
      have hhealthy := (s.healthy_iff d).2 (s.initSuccess_iff.1 hall d hd)
      simp [hfail] at hhealthy
    · exact ⟨fun ⟨_, h, _⟩ => by simp [hinit] at h, fun ⟨_, _, _, hdue⟩ => absurd hdue (Nat.not_le.mpr hearly)⟩
  calc exec .poll s
    _ = .next (finish .success {} 0#16 0#16 (beginStep s)) :=
      congrArg Host.Outcome.next (pollStep_of_waiting (s := beginStep s) hneither.1 hneither.2)
    _ = .next (s.completed (okStatus s) 0#32 0#32 { s.env with trace := [] }) := by rw [finish_idle]

end Sys2Proof.Machine

/-! PROOF. The edge detectors of a sample (spec/42_controller.md R212, R215, R219) and what the lock classes mean (R216). -/

namespace Sys2Proof.Machine

/-! ## The edge detectors -/

/-- The automute event where AUTOMUTED changed between the states (R212). -/
def automuteEvents (s t : State) : List Action :=
  if t.ctl.automuted = s.ctl.automuted then [] else [.ev .automuteChanged (s.host.eventEnable.getLsbD 9)]

/-- The lock event of the new class where LOCK_AGG changed between the states (R215, R216). -/
def lockEvents (s t : State) : List Action :=
  if t.ctl.prevLock = s.ctl.prevLock then []
  else [.ev (lockEvent s.nDev t.ctl.prevLock)
    (s.host.eventEnable.getLsbD (eventNumber (lockEvent s.nDev t.ctl.prevLock)))]

theorem automuteEvents_isEvent (s t : State) : (automuteEvents s t).filter Action.isEvent = automuteEvents s t := by
  unfold automuteEvents
  split <;> rfl

theorem lockEvents_isEvent (s t : State) : (lockEvents s t).filter Action.isEvent = lockEvents s t := by
  unfold lockEvents
  split <;> rfl

/-- The reads of a pass are bus transactions, none of them an event (R11). -/
theorem ProcFrame.filter_isEvent {s t : State} (h : ProcFrame s t) :
    t.env.trace.filter Action.isEvent = s.env.trace.filter Action.isEvent := by
  obtain ⟨acts, htrace, hbus⟩ := h.trace
  rw [htrace, List.filter_append, filter_isEvent_of_bus fun a ha => Action.isEvent_of_isBus (hbus a ha), List.append_nil]

/-- Whatever the bus answers, the automute pass writes AUTOMUTED alone of the controller, and fires its event on a change (R211,
R212). -/
theorem automutePass_events (s : State) :
    (automutePass s).2.ctl = { s.ctl with automuted := (automutePass s).2.ctl.automuted } ∧
      (automutePass s).2.env.trace.filter Action.isEvent =
        s.env.trace.filter Action.isEvent ++ automuteEvents s (automutePass s).2 := by
  have hreads := (automuteAggregate_spec s.devices s).frame
  have hctl : (automutePass s).2.ctl = { s.ctl with automuted := (automuteAggregate s.devices s).2.1 } := by
    rw [automutePass, (automuteEdge_keeps _ _).2.2, hreads.ctl]
  refine ⟨by rw [hctl], ?_⟩
  rw [← automuteEvents_isEvent, automuteEvents, hctl, automutePass, automuteEdge_env, hreads.ctl, hreads.host,
    ← hreads.filter_isEvent, ← List.filter_append]

/-- Whatever the bus answers, the lock pass writes LOCK_AGG alone of the controller, and fires the event of its new class on a change
(R214, R215). -/
theorem lockPass_events (s : State) :
    (lockPass s).2.ctl = { s.ctl with prevLock := (lockPass s).2.ctl.prevLock } ∧
      (lockPass s).2.env.trace.filter Action.isEvent =
        s.env.trace.filter Action.isEvent ++ lockEvents s (lockPass s).2 := by
  have hreads := (lockAggregate_spec s.devices s).frame
  have hctl : (lockPass s).2.ctl = { s.ctl with prevLock := (lockAggregate s.devices s).2.1 } := by
    rw [lockPass, (lockEdge_keeps _ _).2.2, hreads.ctl]
  refine ⟨by rw [hctl], ?_⟩
  rw [← lockEvents_isEvent, lockEvents, hctl, lockPass, lockEdge_env, hreads.ctl, hreads.host, hreads.nDev,
    ← hreads.filter_isEvent, ← List.filter_append]

/-- The events of a sample are those of its two edge detectors (R210, R219). -/
theorem sample_events (s : State) : (sample s).2.2.env.trace.filter Action.isEvent =
    s.env.trace.filter Action.isEvent ++ (automuteEvents s (sample s).2.2 ++ lockEvents s (sample s).2.2) := by
  obtain ⟨hctl, hauto⟩ := automutePass_events s.stampPoll
  have hboard : (automutePass s.stampPoll).2.board = s.board := automutePass_board _
  have hhost : (automutePass s.stampPoll).2.host = s.host := automutePass_host _
  rw [sample_eq]
  generalize (automutePass s.stampPoll).2 = x at hctl hauto hboard hhost
  obtain ⟨hctl', hlock⟩ := lockPass_events x
  generalize (lockPass x).2 = y at hctl' hlock
  have hautomuted : automuteEvents s.stampPoll x = automuteEvents s y := by
    have hkept : y.ctl.automuted = x.ctl.automuted := by rw [hctl']
    rw [automuteEvents, automuteEvents, hkept]
    rfl
  have hprevLock : lockEvents x y = lockEvents s y := by
    have hkept : x.ctl.prevLock = s.ctl.prevLock := by rw [hctl]; rfl
    rw [lockEvents, lockEvents, hkept, hhost, State.nDev_congr hboard]
  show y.env.trace.filter Action.isEvent = _
  rw [hlock, hauto, hautomuted, hprevLock, List.append_assoc]
  rfl

/-- Settles O41: the events of the sample of POLL are those of its edge detectors. -/
theorem sampleFiresOnChangeOnly : Obligations.SampleFiresOnChangeOnly := by
  refine ⟨rfl, fun s t hpower hinit hall hdue hexec => ?_⟩
  rw [exec_poll_sampling hpower hinit hall hdue] at hexec
  cases hexec
  exact sample_events (beginStep s)

/-! ## The lock classes -/

theorem lockEvent_eq_lock_iff (n : Nat) (l : Word) : lockEvent n l = .lock ↔ l.toNat = 2 ^ n - 1 := by
  unfold lockEvent
  split
  · simp [*]
  · split <;> simp [*]

theorem lockEvent_eq_noLock_iff (n : Nat) (l : Word) :
    lockEvent n l = .noLock ↔ l.toNat < 2 ^ n ∧ l.toNat ≠ 2 ^ n - 1 := by
  unfold lockEvent
  split
  · simp [*]
  · split <;> simp [*]

theorem lockEvent_eq_lockReadError_iff (n : Nat) (l : Word) : lockEvent n l = .lockReadError ↔ 2 ^ n ≤ l.toNat := by
  have hpos : 0 < 2 ^ n := Nat.two_pow_pos n
  unfold lockEvent
  split
  · simp; omega
  · split <;> simp <;> omega

/-- A word is below 2^n where its bits from n on are 0. -/
theorem toNat_lt_two_pow_iff (n : Nat) (l : Word) : l.toNat < 2 ^ n ↔ ∀ i, n ≤ i → l.getLsbD i = false := by
  constructor
  · intro hlt i hi
    exact Nat.testBit_lt_two_pow (hlt.trans_le (Nat.pow_le_pow_right (by decide) hi))
  · exact fun hbits => Nat.lt_pow_two_of_testBit _ hbits

/-- A word is 2^n - 1 where its 1 bits are those below n. -/
theorem toNat_eq_two_pow_sub_one_iff (n : Nat) (l : Word) :
    l.toNat = 2 ^ n - 1 ↔ ∀ i, l.getLsbD i = decide (i < n) := by
  constructor
  · intro heq i
    rw [BitVec.getLsbD, heq, Nat.testBit_two_pow_sub_one]
  · intro hbits
    refine Nat.eq_of_testBit_eq fun i => ?_
    rw [Nat.testBit_two_pow_sub_one]
    exact hbits i

section
variable {n : Nat} {l : Word} (habove : ∀ i, 2 * n ≤ i → l.getLsbD i = false)
include habove

/-- In a lock bitmask of n devices the bits from n on are those of the failed reads (R214). -/
theorem lockMask_lt_iff : l.toNat < 2 ^ n ↔ ∀ i, i < n → l.getLsbD (i + n) = false := by
  rw [toNat_lt_two_pow_iff]
  constructor
  · exact fun hhigh i _ => hhigh (i + n) (by omega)
  · intro hreads i hi
    by_cases hlt : i < 2 * n
    · have hbit := hreads (i - n) (by omega)
      rwa [Nat.sub_add_cancel hi] at hbit
    · exact habove i (by omega)

/-- It is 2^n - 1 where every device is locked: no device that is locked has failed (R214). -/
theorem lockMask_eq_iff (hexclusive : ∀ i, i < n → (l.getLsbD i && l.getLsbD (i + n)) = false) :
    l.toNat = 2 ^ n - 1 ↔ ∀ i, i < n → l.getLsbD i = true := by
  rw [toNat_eq_two_pow_sub_one_iff]
  constructor
  · intro hbits i hi
    rw [hbits, decide_eq_true hi]
  · intro hlocked i
    by_cases hi : i < n
    · rw [hlocked i hi, decide_eq_true hi]
    · have hreads : ∀ j, j < n → l.getLsbD (j + n) = false := fun j hj => by
        simpa [hlocked j hj] using hexclusive j hj
      rw [decide_eq_false hi]
      exact (toNat_lt_two_pow_iff n l).1 ((lockMask_lt_iff habove).2 hreads) i (by omega)

end

/-- Settles O42: each class compares the bitmask with 2^n - 1 and 2^n, which its bits decide. -/
theorem lockClassesPartition : Obligations.LockClassesPartition := by
  intro n l _ _ habove hexclusive
  have hlt := lockMask_lt_iff habove
  have heq := lockMask_eq_iff habove hexclusive
  refine ⟨(lockEvent_eq_lock_iff n l).trans heq, ?_, ?_⟩
  · rw [lockEvent_eq_noLock_iff, hlt, ne_eq, heq]
    simp
  · rw [lockEvent_eq_lockReadError_iff, ← Nat.not_lt, hlt]
    simp

end Sys2Proof.Machine

/-! PROOF. The broadcast commands (spec/42_controller.md R230-R241) as one request on every existing device: how each request ends,
what is marked failed, and what the shadows know afterwards. -/

namespace Sys2Proof.Machine

/-! ## A request on one device -/

/-- The procedure that carries a request out on register `r` of device `d` (R124, R125, R175), its report alone. -/
def Request.run (d : DevIx) (r : RegAddr) : Request → State → Report × State
  | .byte v, s => ((wrCore d r v s).1.rep, (wrCore d r v s).2)
  | .patch p, s => ((bitsCore d r p s).1.rep, (bitsCore d r p s).2)
  | .noInput, s => (.failure .badArg 0#3, s)

/-- The shadow entry shows the request met: the whole byte, or the pattern's bits where it touches any (R124, R125). -/
def Request.metBy (x : ShadowEntry) : Request → Prop
  | .byte v => x = { val := v, valid := true }
  | .patch p => patTouch p ≠ 0#8 → x.valid = true ∧ overlay x.val p = x.val
  | .noInput => False

section
variable (d : DevIx) (r : RegAddr) (q : Request) (s : State)

theorem Request.run_body : BodySpec d 3 s (q.run d r s) := by
  cases q with
  | byte v => exact wrCore_body d r v s
  | patch p => exact bitsCore_body d r p s
  | noInput => exact ⟨.refl s, fun _ _ => rfl, Nat.le_add_right ..⟩

theorem Request.run_regFrame : RegFrame d r s (q.run d r s).2 := by
  cases q with
  | byte v => exact (wrCore_spec d r v s).frame
  | patch p => exact (bitsCore_spec d r p s).frame
  | noInput => exact .refl d r s

/-- A request that succeeds on a bus device found it Initialised, and is met in its shadow (R122, R124, R125). -/
theorem Request.run_known (hn : (s.devCfg d).noI2C = false) (hok : (q.run d r s).1.ok = true) :
    s.healthy d = true ∧ q.metBy ((q.run d r s).2.entry d r) := by
  cases q with
  | byte v => exact wrCore_known hn hok
  | patch p => exact bitsCore_known hn hok
  | noInput => cases hok

end

/-- The selector check is the one end of a request for an input the family does not have (R175). -/
theorem WriteEnd.rejected_of_fits {e : WriteEnd} {s : State} {d : DevIx} {r : RegAddr} (h : e.fits s d r .noInput) :
    e = .rejected := by
  cases e <;> simp [WriteEnd.fits, Request.reachesBus, Request.heldBy] at h ⊢

/-- A request does what the way it ends says, all of it (R122-R125, R175). -/
theorem Request.run_end {d : DevIx} {r : RegAddr} {q : Request} {s : State} {e : WriteEnd} {rest : List Config.ReadAnswer}
    {wrest : List Config.WriteAnswer} (hf : e.fits s d r q) (hr : s.env.reads = e.reads q ++ rest)
    (hw : s.env.writes = e.writes ++ wrest) :
    q.run d r s = (e.report, (e.leave d r q s).went rest wrest (e.trace (s.devCfg d).addr r q)) := by
  cases q with
  | byte v => simp only [Request.run, wrCore_end hf hr hw, WriteEnd.outcome]
  | patch p => simp only [Request.run, bitsCore_end hf hr hw, WriteEnd.outcome]
  | noInput =>
    obtain rfl := WriteEnd.rejected_of_fits hf
    have hrest : s.env.reads = rest := hr
    have hwrest : s.env.writes = wrest := hw
    rw [← hrest, ← hwrest]
    exact congrArg (Prod.mk _) s.went_nil.symm

/-! ## A request on every device -/

/-- What a request `q d` on register `reg d` of every existing device leaves, committed as a broadcast (R230, R241, R254). -/
def State.forwarded (s : State) (reg : DevIx → RegAddr) (q : DevIx → Request) : State :=
  finishAll (forEach (fun d => (q d).run d (reg d)) s.devices (beginStep s))

/-- A loop is determined by what its body does under the configuration of the state it starts in. -/
theorem forEach_congr {b : Config.Board} {f g : DevIx → State → Report × State} (hboard : ∀ d s, (f d s).2.board = s.board)
    (hfg : ∀ d s, s.board = b → f d s = g d s) : ∀ (l : List DevIx) (s : State), s.board = b → forEach f l s = forEach g l s
  | [], _, _ => rfl
  | d :: ds, s, hs => by
    have ih := forEach_congr hboard hfg ds (f d s).2 ((hboard d s).trans hs)
    simp only [forEach, ← hfg d s hs, ih]

/-- The mask of a broadcast stands in PRIMARY (R254). -/
theorem getLsbD_finishAll (x : DevMask × State) (i : Nat) : (finishAll x).host.failMask.getLsbD i = x.1.getLsbD i := by
  rw [finishAll_eq]
  exact getLsbD_failWord_primary x.1 i

theorem finishAll_dev (x : DevMask × State) (d : DevIx) : (finishAll x).dev d = x.2.dev d := by
  rw [finishAll_eq]
  rfl

theorem finishAll_env (x : DevMask × State) : (finishAll x).env = x.2.env := by
  rw [finishAll_eq]
  rfl

section
variable (s : State) (reg : DevIx → RegAddr) (q : DevIx → Request)

/-- The mask, the trace and the devices of a forwarded request, end by end (R230, R241). -/
theorem State.forwarded_broadcasts : s.Broadcasts reg q (s.forwarded reg q) := by
  intro e rest wrest hfits hr hw
  obtain ⟨hmask, henv, hdev⟩ := forEach_ends (b := s.board) (f := fun d => (q d).run d (reg d))
    (fun _ _ _ _ _ _ => Request.run_end) e rest wrest s.devices (beginStep s) s.devices_nodup rfl
    (fun d hd => WriteEnd.fits_beginStep (hfits d ((s.mem_devices d).1 hd))) hr hw
  unfold State.forwarded
  refine ⟨fun d => ?_, ?_, fun d hd => ?_⟩
  · rw [getLsbD_finishAll, hmask]
    by_cases hd : d.val < s.nDev
    · rw [s.any_devices _ hd, decide_eq_true hd, Bool.true_and]
    · rw [decide_eq_false hd, Bool.false_and, List.any_eq_false]
      intro g hg hbit
      rw [Bool.and_eq_true, decide_eq_true_eq] at hbit
      exact hd (hbit.2 ▸ (s.mem_devices g).1 hg)
  · rw [finishAll_env, henv]
    rfl
  · rw [finishAll_dev, hdev, if_pos ((s.mem_devices d).2 hd)]
    exact WriteEnd.leave_congr (e d) (reg d) (q d) rfl

/-- A forwarded request reaches every existing device once: its bit says whether its request failed, and the device is what the request
left of it, from a state where it was as at first (R230, R241). -/
theorem State.forwarded_reaches {d : DevIx} (hd : d.val < s.nDev) : ∃ u : State, u.board = s.board ∧ u.dev d = s.dev d ∧
    (s.forwarded reg q).host.failMask.getLsbD d.val = !((q d).run d (reg d) u).1.ok ∧
    (s.forwarded reg q).dev d = ((q d).run d (reg d) u).2.dev d := by
  obtain ⟨u, hframe, hdev, hbit, hend⟩ := forEach_reaches (f := fun d => (q d).run d (reg d))
    (fun d u => Request.run_body d (reg d) (q d) u) s.devices (beginStep s) s.devices_nodup d ((s.mem_devices d).2 hd)
  exact ⟨u, hframe.board, hdev, (getLsbD_finishAll _ _).trans hbit, (finishAll_dev _ d).trans hend⟩

/-- A forwarded request writes no shadow entry but the one it is for (R123). -/
theorem State.forwarded_entry_other (d : DevIx) {r : RegAddr} (hr : r ≠ reg d) : (s.forwarded reg q).entry d r = s.entry d r := by
  by_cases hd : d.val < s.nDev
  · obtain ⟨u, _, hdev, _, hend⟩ := s.forwarded_reaches reg q hd
    calc (s.forwarded reg q).entry d r
      _ = ((q d).run d (reg d) u).2.entry d r := State.entry_congr hend r
      _ = u.entry d r := (Request.run_regFrame d (reg d) (q d) u).entries r hr
      _ = s.entry d r := State.entry_congr hdev r
  · have hothers := (forEach_spec (fun d u => Request.run_body d (reg d) (q d) u) s.devices (beginStep s)).others d
      fun hmem => hd ((s.mem_devices d).1 hmem)
    exact State.entry_congr ((finishAll_dev _ d).trans hothers) r

/-- A device whose family lacks the input is marked failed, bus device or not (R175, R236). -/
theorem State.forwarded_noInput {d : DevIx} (hd : d.val < s.nDev) (hq : q d = .noInput) :
    (s.forwarded reg q).host.failMask.getLsbD d.val = true := by
  obtain ⟨u, _, _, hbit, _⟩ := s.forwarded_reaches reg q hd
  rw [hbit, hq]
  rfl

/-- A bus device that is not marked failed was Initialised, and the request is met in its shadow (R122, R241). -/
theorem State.forwarded_known {d : DevIx} (hd : d.val < s.nDev) (hn : (s.devCfg d).noI2C = false)
    (hbit : (s.forwarded reg q).host.failMask.getLsbD d.val = false) :
    s.healthy d = true ∧ (q d).metBy ((s.forwarded reg q).entry d (reg d)) := by
  obtain ⟨u, hboard, hdev, hfail, hend⟩ := s.forwarded_reaches reg q hd
  have hok : ((q d).run d (reg d) u).1.ok = true := by
    rw [hfail] at hbit
    simpa using hbit
  obtain ⟨hhealthy, hmet⟩ := Request.run_known d (reg d) (q d) u (by rwa [State.devCfg_congr hboard]) hok
  exact ⟨(State.healthy_congr hdev).symm.trans hhealthy, State.entry_congr hend (reg d) ▸ hmet⟩

/-- A bus device that is not Initialised is marked failed (R122, R241). -/
theorem State.forwarded_unhealthy {d : DevIx} (hd : d.val < s.nDev) (hn : (s.devCfg d).noI2C = false)
    (hfail : s.healthy d = false) : (s.forwarded reg q).host.failMask.getLsbD d.val = true := by
  by_contra hbit
  obtain ⟨hhealthy, _⟩ := s.forwarded_known reg q hd hn (by simpa using hbit)
  simp [hfail] at hhealthy

end

/-! ## The commands -/

/-- A broadcast command whose procedure is a request on each device, under the configuration of the state. -/
theorem finishAll_forEach_eq_forwarded {s : State} {f : DevIx → State → Report × State} {reg : DevIx → RegAddr}
    {q : DevIx → Request} (hf : ∀ d u, u.board = s.board → f d u = (q d).run d (reg d) u)
    (hbody : ∀ d u, BodySpec d 3 u (f d u)) :
    finishAll (forEach f s.devices (beginStep s)) = s.forwarded reg q :=
  congrArg finishAll (forEach_congr (fun d u => (hbody d u).frame.board) hf s.devices (beginStep s) rfl)

/-- The requests of SET_ATTEN_ALL (R230). -/
theorem exec_setAttenAll (s : State) : exec .setAttenAll s = .next (s.forwarded (fun d => (s.layout d).attenReg)
    fun d => .byte (clampAtten (operandByte s.engine.larg) (s.layout d).attenMax)) := by
  refine congrArg Host.Outcome.next (finishAll_forEach_eq_forwarded (s := s) (fun d u hu => ?_) (attenProc_body _))
  rw [attenEach.attenProc', attenProc, State.layout_congr hu]
  rfl

/-- The requests of MUTE_ALL (R232). -/
theorem exec_muteAll_forwarded (s : State) : exec .muteAll s =
    .next (s.forwarded (fun d => (s.layout d).muteReg) fun d => .patch (s.layout d).mutePat) := by
  refine congrArg Host.Outcome.next (finishAll_forEach_eq_forwarded (s := s) (fun d u hu => ?_) muteProc_body)
  rw [muteEach.muteProc', muteProc, State.layout_congr hu]
  rfl

/-- The requests of UNMUTE_ALL (R234). -/
theorem exec_unmuteAll_forwarded (s : State) : exec .unmuteAll s =
    .next (s.forwarded (fun d => (s.layout d).muteReg) fun d => .patch (s.layout d).unmutePat) := by
  refine congrArg Host.Outcome.next (finishAll_forEach_eq_forwarded (s := s) (fun d u hu => ?_) unmuteProc_body)
  rw [unmuteEach.unmuteProc', unmuteProc, State.layout_congr hu]
  rfl

theorem State.inputRequest_of_listed {s : State} {d : DevIx} {sel : Byte} {p : Pattern}
    (h : (s.layout d).inputPats[sel.toNat]? = some p) : s.inputRequest d sel = .patch p := by
  simp [State.inputRequest, h]

theorem State.inputRequest_of_missing {s : State} {d : DevIx} {sel : Byte} (h : (s.layout d).inputPats.length ≤ sel.toNat) :
    s.inputRequest d sel = .noInput := by
  simp [State.inputRequest, h]

/-- InputProc is the request of its selector (R175). -/
theorem inputProc_eq_run (d : DevIx) (sel : Byte) (s : State) : ((inputProc d sel s).1.rep, (inputProc d sel s).2) =
    (s.inputRequest d sel).run d (s.layout d).inputReg s := by
  by_cases hsel : sel.toNat < (s.layout d).inputPats.length
  · have hlisted : (s.layout d).inputPats[sel.toNat]? = some (patternAt (s.layout d).inputPats sel.toNat) := by
      simp [patternAt, hsel]
    rw [State.inputRequest_of_listed hlisted, inputProc, if_pos hsel]
    rfl
  · rw [State.inputRequest_of_missing (Nat.not_lt.mp hsel), inputProc, if_neg hsel]
    rfl

/-- The requests of SELECT_INPUT_ALL (R236). -/
theorem exec_selectInputAll (s : State) : exec .selectInputAll s = .next (s.forwarded (fun d => (s.layout d).inputReg)
    fun d => s.inputRequest d (operandByte s.engine.larg)) := by
  refine congrArg Host.Outcome.next (finishAll_forEach_eq_forwarded (s := s) (fun d u hu => ?_) (inputProc_body _))
  have hrequest : u.inputRequest d (operandByte s.engine.larg) = s.inputRequest d (operandByte s.engine.larg) := by
    rw [State.inputRequest, State.layout_congr hu, State.inputRequest]
  rw [inputEach.inputProc', inputProc_eq_run, hrequest, State.layout_congr hu]

/-! ## The obligations -/

/-- Settles O46: the request is the whole clamped byte. -/
theorem setAttenAllReachesEveryDevice : Obligations.SetAttenAllReachesEveryDevice := by
  intro s
  refine ⟨_, exec_setAttenAll s, s.forwarded_broadcasts _ _, fun d _ hr => s.forwarded_entry_other _ _ d hr,
    fun d hd hn => ⟨s.forwarded_unhealthy _ _ hd hn, fun hbit => ?_⟩⟩
  obtain ⟨_, hmet⟩ := s.forwarded_known _ _ hd hn hbit
  exact hmet

/-- What a command leaves that forwards a patch to every device (R232, R234, R241). -/
theorem patchAll_reaches {i : Instr} {s : State} {reg : DevIx → RegAddr} {p : DevIx → Pattern}
    (h : exec i s = .next (s.forwarded reg fun d => .patch (p d))) :
    ∃ t, exec i s = .next t ∧ s.Broadcasts reg (fun d => .patch (p d)) t ∧
      (∀ (d : DevIx) (r : RegAddr), r ≠ reg d → t.entry d r = s.entry d r) ∧
      ∀ d : DevIx, d.val < s.nDev → (s.devCfg d).noI2C = false →
      (s.healthy d = false → t.host.failMask.getLsbD d.val = true) ∧
      (t.host.failMask.getLsbD d.val = false → patTouch (p d) ≠ 0#8 →
        (t.entry d (reg d)).valid = true ∧ overlay (t.entry d (reg d)).val (p d) = (t.entry d (reg d)).val) := by
  refine ⟨_, h, s.forwarded_broadcasts _ _, fun d _ hr => s.forwarded_entry_other _ _ d hr,
    fun d hd hn => ⟨s.forwarded_unhealthy _ _ hd hn, fun hbit => ?_⟩⟩
  obtain ⟨_, hmet⟩ := s.forwarded_known _ _ hd hn hbit
  exact hmet

/-- Settles O47: both commands are a patch of MUTE_REG. -/
theorem muteAllReachesEveryDevice : Obligations.MuteAllReachesEveryDevice :=
  fun s => ⟨patchAll_reaches (exec_muteAll_forwarded s), patchAll_reaches (exec_unmuteAll_forwarded s)⟩

/-- Settles O48: the request is the family's own pattern, or none where it lacks the selector. -/
theorem selectInputAllReachesEveryDevice : Obligations.SelectInputAllReachesEveryDevice := by
  intro s
  refine ⟨_, exec_selectInputAll s, s.forwarded_broadcasts _ _, fun d _ hr => s.forwarded_entry_other _ _ d hr,
    fun d hd => ⟨fun hmissing => ?_, fun hn => s.forwarded_unhealthy _ _ hd hn, fun p hp hn hbit => ?_⟩⟩
  · exact s.forwarded_noInput _ _ hd (State.inputRequest_of_missing hmissing)
  · obtain ⟨_, hmet⟩ := s.forwarded_known _ _ hd hn hbit
    rw [State.inputRequest_of_listed hp] at hmet
    exact hmet

end Sys2Proof.Machine

/-! PROOF. The other host writes and the Timer (spec/10_state.md R22-R37, 20_memory.md R62, 60_exceptions.md R264, R270). -/

namespace Sys2Proof.Machine

/-! ## Host writes by register -/

/-- The offsets of the registers and the registers at the offsets are one map (R22-R37). -/
@[simp] theorem hostRegAt_hostOffset (x : HostReg) : hostRegAt (hostOffset x) = some x := by
  cases x <;> rfl

/-- Every register is one whole aligned word of the window (R60). -/
theorem hostOffset_aligned_inside (x : HostReg) : hostOffset x % 4 = 0 ∧ hostOffset x < 64 := by
  cases x <;> decide

@[simp] theorem hostWriteWord_hostOffset (x : HostReg) (v : Word) (s : State) :
    hostWriteWord (hostOffset x) v s = writeHostReg x v s := by
  simp [hostWriteWord]

/-- A word written at the offset of a register is admitted, and goes to that register (R60, R62). -/
theorem hostWriteStep_hostOffset (x : HostReg) (v : Word) (s : State) :
    hostWriteStep 4 (hostOffset x) v s = .next (writeHostReg x v s) := by
  obtain ⟨haligned, hinside⟩ := hostOffset_aligned_inside x
  rw [hostWriteStep, checkedAccess_of_inside haligned hinside, hostWriteWord_hostOffset]

/-- The ten event bits of a written word are its lowest ten (R28, R264). -/
theorem eventBits_getLsbD (v : Word) {k : Nat} (hk : k < 10) : (v.extractLsb' 0 10).getLsbD k = v.getLsbD k := by
  simp [hk]

theorem writeHostReg_eventEnable_bit (v : Word) (s : State) {k : Nat} (hk : k < 10) :
    (writeHostReg .eventEnable v s).host.eventEnable.getLsbD k = v.getLsbD k := eventBits_getLsbD v hk

/-- An event set takes a write bit by bit: a 1 clears its event, a 0 leaves it (R264). -/
theorem writeHostReg_eventPending_bit (v : Word) (s : State) {k : Nat} (hk : k < 10) :
    (writeHostReg .eventPending v s).host.eventPending.getLsbD k = (s.host.eventPending.getLsbD k && !v.getLsbD k) := by
  rw [writeHostReg, BitVec.getLsbD_and, BitVec.getLsbD_not, eventBits_getLsbD v hk]
  simp [hk]

/-- Settles O50: each offset is that of its register. -/
theorem writableRegistersTakeTheirBits : Obligations.WritableRegistersTakeTheirBits := by
  intro s v
  refine ⟨hostWriteStep_hostOffset .arg v s, hostWriteStep_hostOffset .status v s, ?_, ?_⟩
  · exact ⟨_, hostWriteStep_hostOffset .eventEnable v s, rfl, fun _ => writeHostReg_eventEnable_bit v s⟩
  · exact ⟨_, hostWriteStep_hostOffset .eventPending v s, rfl, fun _ => writeHostReg_eventPending_bit v s⟩

/-! ## The Timer -/

/-- NOW wraps at 32 bits (R270). -/
theorem tick_now_toNat (s : State) : (tick s).now.toNat = (s.now.toNat + 1) % 2 ^ 32 :=
  BitVec.toNat_add s.now 1#32

/-- Settles O55: NOW is the only field a tick writes. -/
theorem tickAdvancesNow : Obligations.TickAdvancesNow :=
  fun s => ⟨tick s, rfl, tick_now_toNat s, rfl⟩

end Sys2Proof.Machine

/-! PROOF. The bus transactions of a command (spec/70_reset_and_hazards.md R313), counted from the empty trace its Engine step begins
with. -/

namespace Sys2Proof.Machine

/-! ## The start and the commit -/

@[simp] theorem busCount_beginStep (s : State) : busCount (beginStep s) = 0 := rfl

@[simp] theorem busCount_finish (rep : Report) (res : CmdResult) (pf sf : DevMask) (s : State) :
    busCount (finish rep res pf sf s) = busCount s := rfl

@[simp] theorem busCount_finishPoll (action : BitVec 2) (x : DevMask × DevMask × State) :
    busCount (finishPoll action x) = busCount x.2.2 := rfl

@[simp] theorem busCount_finishAll (x : DevMask × State) : busCount (finishAll x) = busCount x.2 := by
  rw [busCount, finishAll_env, busCount]

theorem finishPoll_result (action : BitVec 2) (x : DevMask × DevMask × State) :
    (finishPoll action x).host.result.extractLsb' 16 2 = action := resultWord_pollAction _

/-- A command on an absent device issues no transaction (R95), so the bound of its body is that of the command. -/
theorem busCount_onDevice_le {d : DevIx} {body : State → State} {s : State} {n : Nat}
    (h : busCount (body (beginStep s)) ≤ n) : busCount (onDevice d body s) ≤ n := by
  unfold onDevice
  split
  · exact h
  · exact Nat.zero_le n

/-! ## The parts of the commands -/

theorem WriteSpec.busCount_le {d e : DevIx} {r : RegAddr} {n : Nat} {s : State} {x : WriteResult × State}
    (h : WriteSpec d r n (beginStep s) x) : busCount (finishWrite e x) ≤ n := by
  simpa [finishWrite] using h.count

theorem busCount_patchRegister_le (d : DevIx) (r : RegAddr) (p : Pattern) (s : State) :
    busCount (patchRegister d r p (beginStep s)) ≤ 3 := by
  unfold patchRegister
  split
  · exact (bitsCore_spec ..).busCount_le
  · exact Nat.zero_le 3

/-- A gated read from the start of a step. -/
theorem busCount_rdCore_beginStep (d : DevIx) (r : RegAddr) (s : State) : busCount (rdCore d r (beginStep s)).2 ≤ 1 := by
  simpa using busCount_rdCore d r (beginStep s)

/-- A loop over the existing devices costs what its body does, once for each. -/
theorem busCount_forEach_devices {f : DevIx → State → Report × State} {n : Nat} (hf : ∀ d s, BodySpec d n s (f d s))
    (s : State) : busCount (forEach f s.devices s).2 ≤ busCount s + n * s.nDev := by
  have h := (forEach_spec hf s.devices s).count
  rwa [s.devices_length s.nDev_range.2] at h

theorem busCount_broadcast_le {f : DevIx → State → Report × State} {n : Nat} (hf : ∀ d s, BodySpec d n s (f d s))
    (s : State) : busCount (finishAll (forEach f (beginStep s).devices (beginStep s))) ≤ n * s.nDev := by
  simpa using busCount_forEach_devices hf (beginStep s)

theorem busCount_muteEach_le (s : State) : busCount (muteEach (beginStep s)).2 ≤ 3 * s.nDev := by
  have hcount : busCount (muteEach (beginStep s)).2 ≤ busCount (beginStep s) + 3 * (beginStep s).nDev :=
    busCount_forEach_devices muteProc_body (beginStep s)
  simpa using hcount

/-- POWER_OFF reaches the bus through its mutes alone (R195). -/
theorem busCount_powerOffAfterMutes (s : State) : busCount (powerOffAfterMutes s) = busCount s := by
  rw [busCount, powerOffAfterMutes_env]
  exact busCount_powerDown s

/-- Two initialisation passes of at most 7 transactions for each device, then an unmute of at most 3 (R201, R206). -/
theorem busCount_initSequence_le (s : State) : busCount (initSequence s).2.2 ≤ busCount s + 17 * s.nDev := by
  have hpasses : busCount (initAttempt s) ≤ busCount s + 14 * s.nDev := by
    obtain ⟨t, _, _, hstart, _, hpass⟩ := initAttempt_spec s
    exact hstart ▸ hpass.count
  have hverdict : busCount (initVerdict (initAttempt s)) = busCount (initAttempt s) := (initVerdict_devs _).2
  have hunmutes : busCount (initSequence s).2.2 ≤
      busCount (initVerdict (initAttempt s)) + 3 * (initVerdict (initAttempt s)).nDev :=
    busCount_forEach_devices unmuteProc_body _
  have hn : (initVerdict (initAttempt s)).nDev = s.nDev :=
    State.nDev_congr ((initAttempt_eng s).trans (initVerdict_eng _)).board
  omega

theorem ReadLoop.busCount_devices_le {s t : State} {m : DevMask} (h : ReadLoop s.devices s t m) :
    busCount t ≤ busCount s + s.nDev := by
  have hcount := h.count
  rwa [s.devices_length s.nDev_range.2] at hcount

theorem busCount_automutePass_le (s : State) : busCount (automutePass s).2 ≤ busCount s + s.nDev := by
  obtain ⟨_, hedge, _⟩ := automuteEdge_keeps (automuteAggregate s.devices s).2.1 (automuteAggregate s.devices s).2.2
  exact hedge ▸ (automuteAggregate_spec s.devices s).busCount_devices_le

theorem busCount_lockPass_le (s : State) : busCount (lockPass s).2 ≤ busCount s + s.nDev := by
  obtain ⟨_, hedge, _⟩ := lockEdge_keeps (lockAggregate s.devices s).2.1 (lockAggregate s.devices s).2.2
  exact hedge ▸ (lockAggregate_spec s.devices s).busCount_devices_le

/-- The automute pass and the lock pass read each device at most once (R210). -/
theorem busCount_sample_le (s : State) : busCount (sample s).2.2 ≤ busCount s + 2 * s.nDev := by
  have hpasses : (sample s).2.2 = (lockPass (automutePass s.stampPoll).2).2 := rfl
  have hstamp : busCount s.stampPoll = busCount s := rfl
  have hautomute := busCount_automutePass_le s.stampPoll
  have hlock := busCount_lockPass_le (automutePass s.stampPoll).2
  rw [State.nDev_congr (automutePass_board s.stampPoll)] at hlock
  have hn : s.stampPoll.nDev = s.nDev := rfl
  rw [hpasses]
  omega

/-! ## POLL -/

/-- POLL waits, initialises or samples (R200). -/
theorem exec_poll_cases (s : State) :
    exec .poll s = .next (finishPoll 0#2 (0#16, 0#16, beginStep s)) ∨
    exec .poll s = .next (finishPoll 1#2 (initSequence (beginStep s))) ∨
    exec .poll s = .next (finishPoll 2#2 (sample (beginStep s))) := by
  by_cases hinit : s.initDue
  · obtain ⟨hpower, hpending, hdue⟩ := hinit
    exact .inr (.inl (exec_poll_initialising hpower hpending hdue))
  · by_cases hsample : s.sampleDue
    · obtain ⟨hpower, hdone, hall, hdue⟩ := hsample
      exact .inr (.inr (exec_poll_sampling hpower hdone hall hdue))
    · exact .inl (congrArg Host.Outcome.next (pollStep_of_waiting (s := beginStep s) hinit hsample))

theorem exec_poll_busCount_le {s t : State} (h : exec .poll s = .next t) : busCount t ≤ 17 * s.nDev := by
  rcases exec_poll_cases s with hrun | hrun | hrun <;> cases hrun.symm.trans h
  · exact Nat.zero_le _
  · simpa using busCount_initSequence_le (beginStep s)
  · have hsample : busCount (sample (beginStep s)).2.2 ≤ 2 * s.nDev := by simpa using busCount_sample_le (beginStep s)
    rw [busCount_finishPoll]
    omega

/-- POLL_ACTION 2 tells the POLL that sampled (R25, R200). -/
theorem exec_poll_busCount_le_of_sampled {s t : State} (h : exec .poll s = .next t)
    (haction : t.host.result.extractLsb' 16 2 = 2#2) : busCount t ≤ 2 * s.nDev := by
  rcases exec_poll_cases s with hrun | hrun | hrun <;> cases hrun.symm.trans h <;> rw [finishPoll_result] at haction
  · exact absurd haction (by decide)
  · exact absurd haction (by decide)
  · simpa using busCount_sample_le (beginStep s)

/-! ## Every command -/

/-- R313's table, command by command. -/
theorem exec_busCount_le {i : Instr} {s t : State} (h : exec i s = .next t) : busCount t ≤ maxTransactions s.nDev i := by
  cases i with
  | poll => exact exec_poll_busCount_le h
  | readReg d r | devLocked d | devAutomuted d =>
    cases h
    exact busCount_onDevice_le (busCount_rdCore_beginStep ..)
  | writeReg d r => cases h; exact busCount_onDevice_le (wrCore_spec ..).busCount_le
  | writeBits d r => cases h; exact busCount_onDevice_le (busCount_patchRegister_le ..)
  | devInit d =>
    cases h
    have hcount : busCount (initProc d (beginStep s)).2 ≤ 7 := by simpa using (initProc_spec d (beginStep s)).count
    exact busCount_onDevice_le hcount
  | devReset d => cases h; exact busCount_onDevice_le (Nat.zero_le 0)
  | devMute d => cases h; exact busCount_onDevice_le (muteProc_spec ..).busCount_le
  | devUnmute d => cases h; exact busCount_onDevice_le (unmuteProc_spec ..).busCount_le
  | devSetAtten d => cases h; exact busCount_onDevice_le (attenProc_spec ..).busCount_le
  | devSelectInput d => cases h; exact busCount_onDevice_le (inputProc_spec ..).busCount_le
  | powerOn =>
    cases h
    split
    · exact Nat.zero_le 0
    · rw [busCount_finish, busCount_powerUp]
      exact Nat.zero_le 0
  | powerOff =>
    cases h
    split
    · rw [busCount_finish, busCount_powerOffAfterMutes]
      exact busCount_muteEach_le s
    · exact Nat.zero_le _
  | setAttenAll => cases h; exact busCount_broadcast_le (attenProc_body _) s
  | muteAll => cases h; exact busCount_broadcast_le muteProc_body s
  | unmuteAll => cases h; exact busCount_broadcast_le unmuteProc_body s
  | selectInputAll => cases h; exact busCount_broadcast_le (inputProc_body _) s

/-- Settles O14: the table command by command, and the two passes of a sample. -/
theorem transactionsAreBounded : Obligations.TransactionsAreBounded := by
  intro i s t h
  refine ⟨exec_busCount_le h, ?_⟩
  rintro rfl haction
  exact exec_poll_busCount_le_of_sampled h haction

end Sys2Proof.Machine

/-! PROOF. The Reset step and the state right after reset (spec/10_state.md section 6, 70_reset_and_hazards.md R290-R292). -/

namespace Sys2Proof.Machine

/-! ## The Reset step -/

@[simp] theorem resetStep_dev (s : State) (d : DevIx) : (resetStep s).dev d = resetDevice (s.dev d) :=
  getElem_mapVector ..

/-- No entry is valid after a Reset step; its value stays (log 7). -/
theorem resetStep_entry (s : State) (d : DevIx) (q : RegAddr) :
    (resetStep s).entry d q = { s.entry d q with valid := false } := by
  rw [State.entry, resetStep_dev, resetDevice, Device.dropAll_entry, State.entry]
  rfl

/-- Settles O56: the registers by their reset values, the devices by `resetDevice`. -/
theorem resetStepRestoresResetValues : Obligations.ResetStepRestoresResetValues := by
  intro s
  refine ⟨resetStep s, rfl, rfl, rfl, rfl, rfl, rfl, rfl, rfl, rfl, fun d => ⟨?_, ?_, fun q => ?_⟩, rfl⟩
  · rw [resetStep_dev, resetDevice, Device.dropAll_phase]
  · rw [resetStep_dev, resetDevice, Device.dropAll_chipType]
  · rw [resetStep_entry]

/-! ## Right after reset -/

section
variable (b : Config.Board)

@[simp] theorem State.resetWith_dev (d : DevIx) : (State.resetWith b).dev d = Device.reset := by
  simp [State.dev, State.resetWith]

theorem resetDevice_reset : resetDevice Device.reset = Device.reset := by
  have hshadow : (resetDevice Device.reset).shadow = Device.reset.shadow := by
    refine Vector.ext fun q hq => ?_
    simp [resetDevice, Device.dropAll, Device.reset]
  exact congrArg (Device.mk .uninitialised 0#2) hshadow

/-- The state right after reset is one that a Reset step leaves as it is. -/
theorem resetStep_resetWith : resetStep (State.resetWith b) = State.resetWith b := by
  have hdevs : mapVector resetDevice (State.resetWith b).devs = (State.resetWith b).devs := by
    refine Vector.ext fun i hi => ?_
    simp [State.resetWith, resetDevice_reset]
  rw [resetStep, hdevs]
  rfl

theorem State.resetWith_healthy (d : DevIx) : (State.resetWith b).healthy d = false := by
  rw [State.healthy, State.resetWith_dev]
  rfl

/-- Device 0 exists and is not Initialised (R33). -/
theorem State.resetWith_initSuccess : (State.resetWith b).initSuccess = false := by
  rw [Bool.eq_false_iff]
  intro hall
  have hphase := State.initSuccess_iff _ |>.1 hall 0 (State.nDev_range _).1
  rw [State.resetWith_dev] at hphase
  cases hphase

/-- CTRL_STATUS with every flag 0: N_DEV, at most 16, stands whole in its five bits (R26). -/
theorem State.resetWith_ctrlStatusWord :
    (State.resetWith b).ctrlStatusWord = BitVec.ofNat 32 b.cfg.nDev <<< 16 := by
  have hstate : (State.resetWith b).stateCode = 0#3 := rfl
  have hflags : (State.resetWith b).ctl = Controller.reset := rfl
  have hn : (State.resetWith b).nDev = b.cfg.nDev := rfl
  obtain ⟨_, h16⟩ := State.nDev_range (State.resetWith b)
  rw [State.ctrlStatusWord, State.resetWith_initSuccess, hstate, hflags, hn]
  rw [hn] at h16
  generalize b.cfg.nDev = n at h16
  interval_cases n <;> rfl

theorem State.resetWith_statusWord : (State.resetWith b).statusWord = 0#32 := by
  simp [State.statusWord, State.irq, State.resetWith, Status.reset, HostRegs.reset, errCode]

theorem State.resetWith_chipTypeWord : (State.resetWith b).chipTypeWord = 0#32 := by
  refine BitVec.eq_of_getLsbD_eq fun i hi => ?_
  rw [State.chipTypeWord, BitVec.getLsbD_ofFnLE]
  simp [hi, Device.reset]

/-- The registers that read 0 right after reset, whatever the configuration (10_state.md section 6). -/
def HostReg.isZeroAtReset : HostReg → Bool
  | .ctrlStatus | .lockAgg | .devState => false
  | .cmd | .arg | .status | .result | .eventEnable | .eventPending | .now | .powerOnTime | .lastPollTime | .devChipType
  | .devFailMask => true

theorem readHostReg_resetWith {x : HostReg} (h : x.isZeroAtReset = true) : readHostReg (State.resetWith b) x = 0#32 := by
  cases x with
  | ctrlStatus | lockAgg | devState => cases h
  | devChipType => exact State.resetWith_chipTypeWord b
  | status => exact State.resetWith_statusWord b
  | cmd | arg | result | eventEnable | eventPending | now | powerOnTime | lastPollTime | devFailMask => rfl

theorem hostReadWord_resetWith {off : Nat} (h : (hostRegAt off).all HostReg.isZeroAtReset = true) :
    hostReadWord (State.resetWith b) off = 0#32 := by
  unfold hostReadWord
  split
  · next x hx => exact readHostReg_resetWith b (by simpa [hx] using h)
  · rfl

end

/-- Settles O57: thirteen offsets hold a register that reads 0 or none, the other three by their words. -/
theorem resetReadsAsTheTableSays : Obligations.ResetReadsAsTheTableSays := by
  intro b s
  refine ⟨fun off hoff => ?_, State.resetWith_ctrlStatusWord b, rfl, fun d => ?_, rfl⟩
  · have hlisted : ∀ o ∈ [0x00, 0x04, 0x08, 0x0C, 0x18, 0x1C, 0x20, 0x24, 0x28, 0x30, 0x34, 0x38, 0x3C],
        (hostRegAt o).all HostReg.isZeroAtReset = true := by decide
    exact hostReadWord_resetWith b (hlisted off hoff)
  · obtain ⟨hhealthy, hnoI2C⟩ := s.devStateWord_bits d
    rw [State.resetWith_healthy, Bool.and_false] at hhealthy
    exact ⟨hhealthy, hnoI2C⟩

/-- Settles O59: the state right after reset is that of a Reset step, which meets the invariant (`resetStep_inv`). -/
theorem resetMeetsInvariant : Obligations.ResetMeetsInvariant := by
  intro b
  rw [← resetStep_resetWith b]
  exact resetStep_inv _

end Sys2Proof.Machine
